-- ==== Sys2Proof/Word.lean ====
section
/-! DEFINITION. The bit-vector widths of the block's ports and of the transport's register space
(spec/00_scope.md section 5, spec/30_encoding.md R51, R53). Bit 0 is the least significant bit. -/

namespace Sys2Proof

/-- A "word": 32 bits (00_scope.md section 5). The data unit of every register write (R30, R31). -/
abbrev Word := BitVec 32

/-- A MachineUnitSample: 16 unsigned bits, 0x8000 at 0 V (00_scope.md section 6). -/
abbrev Sample := BitVec 16

/-- A register address: 24 bits, naming one 32-bit word (R25, R30). -/
abbrev Address := BitVec 24

/-- A channel number, a group's first channel or a `channel_base`: 0..31 (R51). -/
abbrev Chan := BitVec 5

/-- The bits of an IEEE 754 binary64 voltage operand (R51, R71). -/
abbrev Volt := BitVec 64

/-- A channel mask: bit `i` for channel `i` (R51). -/
abbrev Mask := BitVec 32

/-- A duration in nanoseconds on the `dur` port (R51, R109). -/
abbrev Duration := BitVec 64

end Sys2Proof
end

