-- ==== Sys2Proof/Syntax.lean ====
section
/-! DEFINITION. The commands (spec/30_encoding.md R52; one constructor per row of
spec/opcode_table.json) and the command record on the command port (R50, R51). -/

namespace Sys2Proof

/-- The 17 commands of R52 with the operands their formats name. -/
inductive Instr where
  /-- `SET_CHANNEL chan, volt[0]` (format V, R100). -/
  | setChannel (chan : Chan) (volt : Volt)
  /-- `UPDATE mask` (format M, R102). -/
  | update (mask : Mask)
  /-- `SET_HOLD mask` (format M, R103). -/
  | setHold (mask : Mask)
  /-- `SET_CFG reset, afe_power_down, dac_clr, clr_err` (format C, R106). -/
  | setCfg (reset afePowerDown dacClr clrErr : Bool)
  /-- `SET_LEDS led` (format L, R105). -/
  | setLeds (led : BitVec 8)
  /-- `SET_CONTINUOUS mask` (format M, R104). -/
  | setContinuous (mask : Mask)
  /-- `STAGE_CIC rate` (format R, R107); `rate` is signed. -/
  | stageCic (rate : BitVec 32)
  /-- `APPLY_CIC mask` (format M, R108). -/
  | applyCic (mask : Mask)
  /-- `SET_GROUP chan, [volt[0], ..., volt[nvolt-1]]` (format G, R101). `nvolt` is the count on its
  port (0..63); the ports hold at most 32 voltages. -/
  | setGroup (chan : Chan) (nvolt : BitVec 6) (volts : List Volt)
  /-- `INITIALIZE` (format N, R110). -/
  | initialise
  /-- `DELAY dur` (format D, R109). -/
  | delay (dur : Duration)
  /-- `VOLTAGE_TO_MU volt[0]` (format F, R70). -/
  | voltageToMu (volt : Volt)
  /-- `PACK_GROUP [volt[0], ..., volt[nvolt-1]]` (format P, R74). -/
  | packGroup (nvolt : BitVec 6) (volts : List Volt)
  /-- `ENCODE chan, offs` (format E, R80). -/
  | encode (chan : Chan) (offs : BitVec 8)
  /-- `VALIDATE_GROUP_ALIGNMENT chan, l2w` (format W, R81). -/
  | validateGroupAlignment (chan : Chan) (l2w : BitVec 3)
  /-- `CIC_QUANTIZE rate` (format R, R90); `rate` is signed. -/
  | cicQuantize (rate : BitVec 32)
  /-- `READ addr` (format A, R111). -/
  | read (addr : Address)
deriving DecidableEq, Repr

/-- One record on the command port: the command code and every operand port (R50, R51). `volt` holds
the ports `volt[0]` to `volt[31]`, the first at the head. -/
structure CommandRecord where
  cmdOp   : BitVec 8
  chan    : Chan
  offs    : BitVec 8
  l2w     : BitVec 3
  mask    : Mask
  led     : BitVec 8
  cfgbits : BitVec 4
  rate    : BitVec 32
  addr    : Address
  dur     : Duration
  nvolt   : BitVec 6
  volt    : List Volt
deriving DecidableEq, Repr

/-- Every operand port at zero, under the given command code. -/
def CommandRecord.ofCode (code : BitVec 8) : CommandRecord where
  cmdOp   := code
  chan    := 0
  offs    := 0
  l2w     := 0
  mask    := 0
  led     := 0
  cfgbits := 0
  rate    := 0
  addr    := 0
  dur     := 0
  nvolt   := 0
  volt    := List.replicate 32 0

end Sys2Proof
end

