-- ==== Sys2Proof/WellFormed.lean ====
section
/-! DEFINITION. Which terms of `Instr` are commands of the block. Every operand but the voltage list
is bounded by the width of its port (spec/30_encoding.md R51), so the list is what is checked. -/

namespace Sys2Proof

/-- How many voltages `nvolt` names on the ports: `volt[0..nvolt-1]`, of the 32 that exist (R51, D8). -/
def suppliedVolts (nvolt : BitVec 6) : Nat := min nvolt.toNat 32

/-- A command carries exactly the voltages that its `nvolt` operand names (R51, R74, R101). -/
def Instr.wellFormed : Instr → Bool
  | .setGroup _ nvolt volts => volts.length == suppliedVolts nvolt
  | .packGroup nvolt volts => volts.length == suppliedVolts nvolt
  | .setChannel _ _ => true
  | .update _ => true
  | .setHold _ => true
  | .setCfg _ _ _ _ => true
  | .setLeds _ => true
  | .setContinuous _ => true
  | .stageCic _ => true
  | .applyCic _ => true
  | .initialise => true
  | .delay _ => true
  | .voltageToMu _ => true
  | .encode _ _ => true
  | .validateGroupAlignment _ _ => true
  | .cicQuantize _ => true
  | .read _ => true

/-- A record has the 32 voltage ports of R51. -/
def CommandRecord.wellFormed (r : CommandRecord) : Bool := r.volt.length == 32

end Sys2Proof
end

