-- ==== Sys2Proof/Decode.lean ====
section
/-! DEFINITION. Decoding a command record (spec/30_encoding.md R50 to R52, R60), the encoder written
from the same table, and the record as one number for `decodeTableWord`. -/

namespace Sys2Proof

/-- Why the decoder refuses a record: its command code is reserved (R60, R146). -/
inductive DecodeError where
  | illegalCommand (code : BitVec 8)
deriving DecidableEq, Repr

/-- `volt[0..nvolt-1]`, of the 32 ports that exist (R51). -/
def CommandRecord.volts (r : CommandRecord) : List Volt :=
  (List.range (suppliedVolts r.nvolt)).map fun i => r.volt.getD i 0

/-- R52: "a full match on the 8 bits of `cmd_op`". The operand ports that the format does not name are
ignored (R50). Every other code is reserved (R60). -/
def decode (r : CommandRecord) : Except DecodeError Instr :=
  match r.cmdOp with
  | 0x00#8 => .ok (.setChannel r.chan (r.volt.getD 0 0))
  | 0x20#8 => .ok (.update r.mask)
  | 0x21#8 => .ok (.setHold r.mask)
  | 0x22#8 => .ok (.setCfg (r.cfgbits.getLsbD 0) (r.cfgbits.getLsbD 1) (r.cfgbits.getLsbD 2) (r.cfgbits.getLsbD 3))
  | 0x23#8 => .ok (.setLeds r.led)
  | 0x25#8 => .ok (.setContinuous r.mask)
  | 0x26#8 => .ok (.stageCic r.rate)
  | 0x27#8 => .ok (.applyCic r.mask)
  | 0x40#8 => .ok (.setGroup r.chan r.nvolt r.volts)
  | 0x41#8 => .ok .initialise
  | 0x42#8 => .ok (.delay r.dur)
  | 0x60#8 => .ok (.voltageToMu (r.volt.getD 0 0))
  | 0x61#8 => .ok (.packGroup r.nvolt r.volts)
  | 0x62#8 => .ok (.encode r.chan r.offs)
  | 0x63#8 => .ok (.validateGroupAlignment r.chan r.l2w)
  | 0x64#8 => .ok (.cicQuantize r.rate)
  | 0x80#8 => .ok (.read r.addr)
  | code => .error (.illegalCommand code)

/-- The command code of R52. -/
def opcode : Instr → BitVec 8
  | .setChannel _ _ => 0x00
  | .update _ => 0x20
  | .setHold _ => 0x21
  | .setCfg _ _ _ _ => 0x22
  | .setLeds _ => 0x23
  | .setContinuous _ => 0x25
  | .stageCic _ => 0x26
  | .applyCic _ => 0x27
  | .setGroup _ _ _ => 0x40
  | .initialise => 0x41
  | .delay _ => 0x42
  | .voltageToMu _ => 0x60
  | .packGroup _ _ => 0x61
  | .encode _ _ => 0x62
  | .validateGroupAlignment _ _ => 0x63
  | .cicQuantize _ => 0x64
  | .read _ => 0x80

/-- The 32 voltage ports with the given voltages on the first of them and zero on the rest. -/
def voltPorts (volts : List Volt) : List Volt :=
  volts.take 32 ++ List.replicate (32 - volts.length) 0

/-- The `cfgbits` port: bit 0 `reset`, bit 1 `afe_power_down`, bit 2 `dac_clr`, bit 3 `clr_err` (R51). -/
def cfgPort (reset afePowerDown dacClr clrErr : Bool) : BitVec 4 :=
  BitVec.ofNat 4 (reset.toNat ||| (afePowerDown.toNat <<< 1) ||| (dacClr.toNat <<< 2) ||| (clrErr.toNat <<< 3))

/-- The record of a command: its code, its operands on the ports its format names, and zero on every
other port (R50 to R52). -/
def encode (i : Instr) : CommandRecord :=
  let r := CommandRecord.ofCode (opcode i)
  match i with
  | .setChannel chan volt => { r with chan := chan, volt := voltPorts [volt] }
  | .update mask => { r with mask := mask }
  | .setHold mask => { r with mask := mask }
  | .setCfg reset afePowerDown dacClr clrErr => { r with cfgbits := cfgPort reset afePowerDown dacClr clrErr }
  | .setLeds led => { r with led := led }
  | .setContinuous mask => { r with mask := mask }
  | .stageCic rate => { r with rate := rate }
  | .applyCic mask => { r with mask := mask }
  | .setGroup chan nvolt volts => { r with chan := chan, nvolt := nvolt, volt := voltPorts volts }
  | .initialise => r
  | .delay dur => { r with dur := dur }
  | .voltageToMu volt => { r with volt := voltPorts [volt] }
  | .packGroup nvolt volts => { r with nvolt := nvolt, volt := voltPorts volts }
  | .encode chan offs => { r with chan := chan, offs := offs }
  | .validateGroupAlignment chan l2w => { r with chan := chan, l2w := l2w }
  | .cicQuantize rate => { r with rate := rate }
  | .read addr => { r with addr := addr }

/-- A field placed below the bits `rest`. -/
def pushField {w : Nat} (field : BitVec w) (rest : Nat) : Nat := field.toNat + 2 ^ w * rest

/-- The lowest `w` bits of a number, as a field. -/
def fieldAt (w bits : Nat) : BitVec w := BitVec.ofNat w bits

/-- The voltage ports as one number, `volt[0]` lowest. -/
def packVolts : List Volt → Nat
  | [] => 0
  | v :: vs => pushField v (packVolts vs)

/-- `n` voltage ports read from a number, `volt[0]` lowest. -/
def unpackVolts : Nat → Nat → List Volt
  | 0, _ => []
  | n + 1, bits => fieldAt 64 bits :: unpackVolts n (bits / 2 ^ 64)

/-- A record as one number: `cmd_op` in bits 7:0 as the opcode table numbers them, and above it the
operand ports in the order in which R51 lists them. The spec gives the ports no place in a word: this
order is the model's (DESIGN CHOICE, log entry 9). -/
def CommandRecord.toBits (r : CommandRecord) : Nat :=
  pushField r.cmdOp <| pushField r.chan <| pushField r.offs <| pushField r.l2w <| pushField r.mask <|
  pushField r.led <| pushField r.cfgbits <| pushField r.rate <| pushField r.addr <| pushField r.dur <|
  pushField r.nvolt <| packVolts r.volt

/-- The record that a number stands for. -/
def CommandRecord.ofBits (w : Nat) : CommandRecord where
  cmdOp   := fieldAt 8 w
  chan    := fieldAt 5 (w / 2 ^ 8)
  offs    := fieldAt 8 (w / 2 ^ 13)
  l2w     := fieldAt 3 (w / 2 ^ 21)
  mask    := fieldAt 32 (w / 2 ^ 24)
  led     := fieldAt 8 (w / 2 ^ 56)
  cfgbits := fieldAt 4 (w / 2 ^ 64)
  rate    := fieldAt 32 (w / 2 ^ 68)
  addr    := fieldAt 24 (w / 2 ^ 100)
  dur     := fieldAt 64 (w / 2 ^ 124)
  nvolt   := fieldAt 6 (w / 2 ^ 188)
  volt    := unpackVolts 32 (w / 2 ^ 194)

/-- The record presented for the first `nbits` bits of `w`, every bit above them 0. -/
def tableRecord (nbits w : Nat) : CommandRecord := CommandRecord.ofBits (w % 2 ^ nbits)

/-- The command that the decoder reads from the bits `w`, numbered as the opcode table numbers them. -/
def decodeTableWord (nbits w : Nat) : Option Instr := (decode (tableRecord nbits w)).toOption

end Sys2Proof
end

