-- ==== Sys2Proof/Config.lean ====
section
/-! DEFINITION. What construction fixes (spec/00_scope.md R2, R5; spec/92_eei_decisions.md, note on
parameters), and the free values: constants without a body for every value the spec leaves open. -/

namespace Sys2Proof

/-- One call of a transport primitive produced by the block (00_scope.md section 6; R30, R31, R32):
`WN(addr, w)`, `WW(addr, words)` or `DL(d)`. -/
inductive Event where
  | wn (addr : Address) (data : Word)
  | ww (addr : Address) (data : List Word)
  | dl (dur : Duration)
deriving DecidableEq, Repr

/-- `VOLT_ARITH` (R5, decision D3): how the product `3276.8 * voltage` is computed. `exact` is the
default and what R71 prescribes. `binary64` is the parameter's other value (D3: "a model matching a
particular software build may set `binary64`"); what it computes is PRESUMED (log entry 13). -/
inductive VoltArith where
  | exact
  | binary64
deriving DecidableEq, Repr

/-- `ROUND` (R5, decision D4, conflict C1): `halfAway` is the default and what R72 prescribes;
`halfEven` is the mode the source's design note also allows. -/
inductive Rounding where
  | halfAway
  | halfEven
deriving DecidableEq, Repr

/-- `INIT_SEQ` (R5, decision D15): the event list of `INITIALIZE`. `standard` is the default, the
fourteen events of R110. -/
inductive InitSeq where
  | standard
  | custom (events : List Event)
deriving DecidableEq, Repr

/-- The configuration of one block, "fixed at construction" (R2, R5). `REF_PERIOD` is no field: a
block that exists has 1 ns (R3, R134, D18). `dataOffset` is 5 bits because a data write lies in the
data window 0x00 to 0x1F (R17, R38), `globalBase` is 5 bits because `ENCODE` takes a 5-bit
`channel_base` (R80) (DESIGN CHOICE, log entry 12). -/
structure Config where
  log2Width  : Fin 6
  dataOffset : BitVec 5
  globalBase : Chan
  voltArith  : VoltArith
  rounding   : Rounding
  initSeq    : InitSeq
deriving DecidableEq, Repr

/-- The configuration with every parameter that has a default at its default (R5) and the given
`LOG2_WIDTH`, which has none (R2). -/
def Config.standard (log2Width : Fin 6) : Config where
  log2Width  := log2Width
  dataOffset := 0
  globalBase := 0
  voltArith  := .exact
  rounding   := .halfAway
  initSeq    := .standard

/-- The points at which the spec leaves a value or a choice open. Each names the rule or the row of
spec/93_implementation_defined.md that leaves it open; a free value is drawn for it (log entry 6). -/
inductive OpenPoint where
  /-- `res_mu` of a command that does not produce it (R53). -/
  | portMu
  /-- `res_nwords` of a command that does not produce it (R53). -/
  | portNwords
  /-- An entry of `res_words` that a command does not produce (R53). -/
  | portWords
  /-- `res_addr` of a command that does not produce it (R53). -/
  | portAddr
  /-- `res_cic` of a command that does not produce it (R53). -/
  | portCic
  /-- `res_rate` of a command that does not produce it (R53). -/
  | portRate
  /-- `ev_addr` of a `DL` event (R66). -/
  | eventAddr
  /-- `ev_n` of a `DL` event (R66). -/
  | eventN
  /-- A word of `ev_data` at or above `ev_n` (R66). -/
  | eventData
  /-- `ev_dur` of a `WN` or `WW` event (R66). -/
  | eventDur
  /-- Device: whether a stray data write reaches a channel (I7, I12, R168). -/
  | strayReaches
  /-- Device: what a stray data write stages in a channel it reaches (I7, I12). -/
  | strayWrite
  /-- Device: whether an update selecting a channel that is not held applies its data (I5). -/
  | unheldUpdate
  /-- Device: whether staged data that was not written in this frame is applied to a channel that is
  not held (I6). -/
  | staleStaged
  /-- Device: whether a dependent operation in the frame of the write it depends on sees the old or
  the new hold register (I9). -/
  | holdSeen
  /-- Device: the same for the continuous register (I9). -/
  | continuousSeen
  /-- Device: the same for the CIC staging register (I9, R158). -/
  | stagedCicSeen
  /-- Device: the same for a channel's staged sample (I9, R159). -/
  | stagedSampleSeen
  /-- Device: the same for a channel's applied CIC config (I9, R157). -/
  | appliedCicSeen
  /-- Device: whether a channel updates while its rate or its continuous bit has no known value
  (R29, R163), or its config is none that the block produces (I18). -/
  | rateUnknown
  /-- Device: whether a channel is held while the hold register has no known value (R29). -/
  | holdUnknown
  /-- Device: outputs while a cfg bit `reset`, `afe_power_down` or `dac_clr` is 1 or unknown (I14). -/
  | cfgActive
  /-- Device: the staged sample after an apply-CIC and a data write at one schedule position (I4). -/
  | raceStaged
  /-- Device: the applied sample after such a race (I4). -/
  | raceApplied
  /-- Device: how many output samples a channel puts out in one frame (N26). -/
  | outputSamples
  /-- Device: how far the error counters count in one frame (R144, N14). -/
  | errorsCounted
  /-- Device: whether the clear or the re-enabled counting wins when both land in one frame (I9). -/
  | errorsCleared
deriving DecidableEq, Repr

/-- A free bit: no body, so nothing is provable of it. `draw` is `State.draws` at the time of use,
`index` tells several values of one draw apart. -/
opaque Config.freeBit (point : OpenPoint) (draw index : Nat) : Bool

/-- A free bit vector of width `w`. -/
opaque Config.freeBits (w : Nat) (point : OpenPoint) (draw index : Nat) : BitVec w

/-- A free natural number. -/
opaque Config.freeNat (point : OpenPoint) (draw index : Nat) : Nat

/-- Where the frame boundaries lie relative to the schedule position: "not in the source" (R157, N25).
A constant without a body (DEDUCED, log entry 15). -/
opaque Config.framePhase : Nat

end Sys2Proof
end

