-- ==== Sys2Proof/Machine/State.lean ====
section
/-! DEFINITION. Everything the spec gives the machine to hold: the block's mirror (spec/10_state.md R14),
its result and event ports (R53, R66), its event trace (R27), the commands the caller has presented
(R6, R11), the transport's schedule position (R12), bus position (R135) and register space (R25), and
the downstream device's registers and hidden state (R17 to R24, R26). -/

namespace Sys2Proof.Machine

/-- The four cfg bits (R14, R20). -/
structure Cfg where
  reset        : Bool
  afePowerDown : Bool
  dacClr       : Bool
  clrErr       : Bool
deriving DecidableEq, Repr

/-- An InterpolatorConfig (R14, R23): stored mantissa (the working mantissa minus 1), rate exponent,
gain exponent. -/
structure CicConfig where
  rateMantissa : BitVec 6
  rateExponent : BitVec 4
  gainExponent : BitVec 6
deriving DecidableEq, Repr

/-- The five level registers, each with a value or `none` for the spec's `⊥`, "no value (never
written)" (00_scope.md section 5). The block's mirror is one of these (R14); the device's own registers
(R19 to R23) are another. `none` is the spec's own state, not a missing reset value (R27, R29). -/
structure LevelRegs where
  holdMask       : Option Mask
  continuousMask : Option Mask
  cfg            : Option Cfg
  stagedCic      : Option CicConfig
  leds           : Option (BitVec 8)
deriving DecidableEq, Repr

/-- The level registers of which none has been written (R27, R29). -/
def LevelRegs.unwritten : LevelRegs where
  holdMask       := none
  continuousMask := none
  cfg            := none
  stagedCic      := none
  leds           := none

/-- The error kinds of R130. `RangeError` carries the index that `err_info` reports. -/
inductive ErrorKind where
  /-- A voltage or a CIC rate outside its bounds (R131). -/
  | rangeError (index : BitVec 6)
  /-- A group's first channel has low bits set (R132). -/
  | alignmentError
  /-- Every `READ` (R133). -/
  | unsupportedOperation
  /-- A configuration or design bug (R134). -/
  | preconditionError
  /-- The transport's (R135). Never raised by the block: the model's step answers the fault
  `Fault.timingUnderflow` there. It is listed for its code on the `err` port. -/
  | timingUnderflow
  /-- A reserved command code (R146). -/
  | illegalCommand
deriving DecidableEq, Repr

/-- The result ports (R53), as the last completed command left them. `resWords` holds
`res_words[0]` to `res_words[15]`. -/
structure ResultPorts where
  err       : BitVec 3
  errInfo   : BitVec 6
  resMu     : BitVec 16
  resNwords : BitVec 5
  resWords  : List Word
  resAddr   : BitVec 24
  resCic    : BitVec 16
  resRate   : BitVec 17
deriving DecidableEq, Repr

/-- One event on the event port (R66). `evData` holds `ev_data[0]` to `ev_data[15]`. -/
structure EventPort where
  evKind : BitVec 2
  evAddr : BitVec 24
  evN    : BitVec 5
  evData : List Word
  evDur  : BitVec 64
deriving DecidableEq, Repr

/-- One command as the caller presents it: the record on the command port (R50), and by how much the
bus's position has moved since the command before it (the environment's, R135, R164;
DESIGN CHOICE, log entries 5 and 7). -/
structure Presented where
  record  : CommandRecord
  elapsed : Nat
deriving DecidableEq, Repr

/-- The transport's register space (R25): the word last delivered to each 24-bit word address, as pairs
(address, word) with addresses strictly rising. An address that is not listed has no value (R29)
(DEDUCED, log entry 28). -/
abbrev Memory := List (Nat × Word)

/-- A register write as the device reads it from an address (R17 to R24, R38). -/
inductive DeviceWrite where
  /-- A narrow DAC data write to one channel (R17). -/
  | data (channel : Chan) (word : Word)
  /-- A wide DAC data write to the group that starts at `first` (R17, R31). -/
  | group (first : Chan) (words : List Word)
  /-- A wide DAC data write whose page is no group's first channel: it reaches "the wrong group subset"
  (R168; DEDUCED from I12, log entry 22). -/
  | misalignedGroup (first : Chan) (words : List Word)
  /-- 0x20 (R18). -/
  | update (mask : Mask)
  /-- 0x21 (R19). -/
  | hold (mask : Mask)
  /-- 0x22 (R20). -/
  | cfg (value : Cfg)
  /-- 0x23 (R21). -/
  | leds (value : BitVec 8)
  /-- 0x25 (R22). -/
  | continuous (mask : Mask)
  /-- 0x26 (R23). -/
  | stageCic (value : CicConfig)
  /-- 0x27 (R24). -/
  | applyCic (mask : Mask)
deriving DecidableEq, Repr

/-- A write delivered to the device and the schedule position at which it was issued. -/
structure Buffered where
  time  : Nat
  write : DeviceWrite
deriving DecidableEq, Repr

/-- One channel of the device (R26). -/
structure Channel where
  /-- The staged sample (R17, R26). -/
  staged   : Option Sample
  /-- The sample last applied to the output (R18, R19, R26). -/
  applied  : Option Sample
  /-- The applied CIC config (R24, R26). -/
  cic      : Option CicConfig
  /-- How many of the next output samples are still transient (R24, R161); no value before the first
  apply-CIC write that selects the channel (R29). -/
  settling : Option Nat
deriving DecidableEq, Repr

/-- The downstream device, as far as R17 to R24 and R26 describe it (DEDUCED from D24, log entry 14). -/
structure Device where
  /-- The frame double buffer: writes delivered since the last frame boundary, oldest first (R26, R157).
  The self-clearing update bits are the update writes in it (R18, R26). -/
  buffer     : List Buffered
  /-- The registers 0x21, 0x22, 0x23, 0x25 and 0x26 as they take effect (R19 to R23). -/
  levels     : LevelRegs
  /-- The 32 channels, channel 0 first. -/
  channels   : List Channel
  /-- The error counters, as one number: their count and widths are not given (R26, R144, N14;
  DESIGN CHOICE, log entry 27). -/
  errorCount : Option Nat
deriving DecidableEq, Repr

/-- A channel about which nothing has been written (R29). -/
def Channel.unwritten : Channel where
  staged   := none
  applied  := none
  cic      := none
  settling := none

/-- The device before any write (R29). That nothing waits in its frame double buffer, and so no update bit is
pending, is the model's (DESIGN CHOICE, log entry 36). -/
def Device.unwritten : Device where
  buffer     := []
  levels     := LevelRegs.unwritten
  channels   := List.replicate 32 Channel.unwritten
  errorCount := none

/-- The machine. -/
structure State where
  /-- The configuration, "immutable" (R2, R5). -/
  config      : Config
  /-- The mirror `S` (R14). -/
  mirror      : LevelRegs
  /-- The result ports (R53). -/
  ports       : ResultPorts
  /-- The last command's events on the event port, in order (R66). -/
  eventPort   : List EventPort
  /-- Every event emitted since reset, oldest first (R27). -/
  trace       : List Event
  /-- The commands the caller has presented and the block has not yet accepted, next first (R1, R6,
  R11). -/
  input       : List Presented
  /-- The schedule position, in ns (R12). -/
  now         : Nat
  /-- The bus's current position, in ns (R135, R164). -/
  busPosition : Nat
  /-- The register space (R25). -/
  regSpace    : Memory
  /-- The downstream device (R17 to R24, R26). -/
  device      : Device
  /-- The MODEL's own: how many draws of free values have been made. -/
  draws       : Nat
deriving DecidableEq, Repr

/-- Where the machine stops. -/
inductive Fault where
  /-- The transport reports a write issued at a schedule position earlier than the bus's (R135, R164):
  "a fault of the run". Safe: the spec ends the run there (D21; DEDUCED, log entry 10). -/
  | timingUnderflow
  /-- The device finds no register for a write: an address without an entry in the register map, or a
  wide write that is no full group inside the data window (I3, R17). Raised only under a `custom` `INIT_SEQ` or a data
  offset that lets a burst leave the data window. Safe: the spec asks for a fault or a stuck state
  (DEDUCED, log entry 11). -/
  | noRegister (addr : Address)
deriving DecidableEq, Repr

/-- What the model gives no meaning. -/
inductive Refusal where
  /-- An instruction whose meaning is not written. No arm of `exec` answers it. Safe. -/
  | notModelled (mnemonic : String)
deriving DecidableEq, Repr

/-- The result ports before any command has completed. "valid when the command completes" (R53): the
spec gives them no value at reset (DESIGN CHOICE, log entry 3). -/
def ResultPorts.idle : ResultPorts where
  err       := 0
  errInfo   := 0
  resMu     := 0
  resNwords := 0
  resWords  := List.replicate 16 0
  resAddr   := 0
  resCic    := 0
  resRate   := 0

/-- The machine right after construction with the given configuration: mirror all `⊥`, empty trace,
nothing written to the device (R27, R150). -/
def State.fresh (config : Config) : State where
  config      := config
  mirror      := LevelRegs.unwritten
  ports       := ResultPorts.idle
  eventPort   := []
  trace       := []
  input       := []
  now         := 0
  busPosition := 0
  regSpace    := []
  device      := Device.unwritten
  draws       := 0

/-- The machine right after reset (R27, R29, R150). `LOG2_WIDTH` has no default (R5, D18): the model
takes 0, single-channel mode (DESIGN CHOICE, log entry 1). -/
def State.reset : State := State.fresh (Config.standard 0)

end Sys2Proof.Machine
end

