-- ==== Sys2Proof/Machine/Operands.lean ====
section
/-! DEFINITION. What an operand stands for (spec/30_encoding.md R51): the exact value of a binary64
voltage (spec/40_voltage_codec.md R71) and its rounding (R72), the signed rate, the bits of a mask, the
fixed constants (spec/00_scope.md R4) and the group width (R2). -/

namespace Sys2Proof.Machine

/-- `MU_ZERO` (R4). -/
abbrev muZero : Int := 32768
/-- `MU_MAX` (R4). -/
abbrev muMax : Int := 65535
/-- `K_NUM` (R4): 3276.8 = 16384 / 5 machine units per volt. -/
abbrev kNum : Nat := 16384
/-- `K_DEN` (R4). -/
abbrev kDen : Nat := 5
/-- `RATE_MAX` (R4). -/
abbrev rateMax : Int := 65536
/-- `MANT_MAX` (R4). -/
abbrev mantMax : Nat := 64
/-- `GAIN_EXP_MAX` (R4): `ORDER * 16`. -/
abbrev gainExpMax : Nat := 48
/-- `ORDER` (R4). -/
abbrev order : Nat := 3
/-- `T_FRAME` in ns (R4, R167). -/
abbrev tFrame : Nat := 392
/-- `NCHAN` (R4). -/
abbrev nchan : Nat := 32

/-- `WIDTH = 2^LOG2_WIDTH` (R2). -/
abbrev groupWidth (c : Config) : Nat := 2 ^ c.log2Width.val

/-- `NWORDS = max(1, WIDTH / 2)` (R75). -/
abbrev groupWords (c : Config) : Nat := max 1 (groupWidth c / 2)

/-- A rational number as a numerator over a positive denominator, not reduced. -/
structure Ratio where
  num : Int
  den : Nat
deriving DecidableEq, Repr

/-- The biased exponent field of a binary64 datum. -/
def expField (f : Volt) : Nat := (f.extractLsb' 52 11).toNat

/-- The fraction field of a binary64 datum. -/
def fracField (f : Volt) : Nat := (f.extractLsb' 0 52).toNat

/-- Neither a NaN nor an infinity (R71). -/
def isFinite (f : Volt) : Bool := expField f != 2047

/-- The integer significand: the hidden bit stands above the fraction of a normal number. -/
def significand (f : Volt) : Nat := if expField f = 0 then fracField f else 2 ^ 52 + fracField f

/-- The exponent of the significand's unit, biased by 1075: the value is
`±significand * 2^(unitExp - 1075)`. -/
def unitExp (f : Volt) : Nat := max (expField f) 1

/-- `±m`, negative where the sign bit of `f` is set. -/
def withSign (f : Volt) (m : Nat) : Int := if f.getLsbD 63 then -(m : Int) else (m : Int)

/-- `±m * 2^e`, with the sign of `f`. -/
def signedScaled (f : Volt) (m : Nat) (e : Int) : Ratio :=
  if m = 0 then ⟨0, 1⟩
  else if 0 ≤ e then ⟨withSign f (m * 2 ^ e.toNat), 1⟩
  else ⟨withSign f m, 2 ^ (-e).toNat⟩

/-- `val(f)`: the exact value of a finite binary64 datum; `+0` and `-0` both give 0 (R71). -/
def valueOf (f : Volt) : Ratio := signedScaled f (significand f) ((unitExp f : Int) - 1075)

/-- `RHA(n / d)`: to the nearest integer, ties away from zero: `sign * floor(|q| + 1/2)` (R72). -/
def roundHalfAway (q : Ratio) : Int := q.num.sign * (((2 * q.num.natAbs + q.den) / (2 * q.den) : Nat) : Int)

/-- To the nearest integer, ties to even: the other value of `ROUND` (D4, C1). -/
def roundHalfEven (q : Ratio) : Int :=
  let below := q.num / (q.den : Int)
  let rest := q.num - below * q.den
  if 2 * rest < q.den then below
  else if (q.den : Int) < 2 * rest then below + 1
  else if below % 2 = 0 then below else below + 1

/-- The significand of the binary64 number nearest to 3276.8, which is it times `2^(-41)` (D3). -/
def kBinary64 : Nat := 0x1999999999999A

/-- `m * 2^e` rounded to the nearest binary64 number, ties to even, without its upper bound: a product
at or above 2^1024 is far outside the range of a sample either way (R70). -/
def roundToBinary64 (f : Volt) (m : Nat) (e : Int) : Ratio :=
  let drop : Nat := max (m.log2 + 1 - 53) (-1074 - e).toNat
  signedScaled f (roundHalfEven ⟨(m : Int), 2 ^ drop⟩).toNat (e + drop)

/-- The product `3276.8 * val(f)`. `exact`: `(16384 * v) / 5` without rounding (R71). `binary64`: the
binary64 multiplication by the binary64 number nearest to 3276.8 (D3; PRESUMED, log entry 13). -/
def scaledVoltage (c : Config) (f : Volt) : Ratio :=
  match c.voltArith with
  | .exact => ⟨kNum * (valueOf f).num, kDen * (valueOf f).den⟩
  | .binary64 => roundToBinary64 f (significand f * kBinary64) ((unitExp f : Int) - 1075 - 41)

/-- Rounding by the configured mode (R5, R72). -/
def roundRatio (c : Config) (q : Ratio) : Int :=
  match c.rounding with
  | .halfAway => roundHalfAway q
  | .halfEven => roundHalfEven q

/-- The integer on the `rate` port: `rate` read as `sext_32` (R51). -/
def rateValue (rate : BitVec 32) : Int := rate.toInt

/-- Bit `i` of a mask, for channel `i` (R51, D26). -/
def selects (mask : Mask) (channel : Nat) : Bool := mask.getLsbD channel

end Sys2Proof.Machine
end

