-- ==== Sys2Proof/Machine/AddressEncoder.lean ====
section
/-! DEFINITION. Unit U2, AddressEncoder (spec/41_address_encoder.md): pure functions of the operands. -/

namespace Sys2Proof.Machine

/-- `ENCODE` (R80, R54): `(channel_base << 8) | register_offset`. The offset is not checked (D31). -/
def encodeAddress (base : Chan) (offset : BitVec 8) : Address :=
  (base.setWidth 24 <<< 8) ||| offset.setWidth 24

/-- `first & (width - 1) = 0` for `width = 2^l2w` (R81). -/
def groupAligned (first : Chan) (l2w : Nat) : Bool := first.toNat &&& ((1 <<< l2w) - 1) == 0

/-- `VALIDATE_GROUP_ALIGNMENT` (R81): `l2w` above 5 is tested first (R137, D32). -/
def validateGroupAlignment (first : Chan) (l2w : Nat) : Except ErrorKind Unit :=
  if 5 < l2w then .error .preconditionError
  else if groupAligned first l2w then .ok () else .error .alignmentError

end Sys2Proof.Machine
end

