-- ==== Sys2Proof/Machine/CicStager.lean ====
section
/-! DEFINITION. Unit U3, CICStager (spec/42_cic_stager.md): the approximation of an interpolation rate,
"exact, must be reproduced bit-for-bit" (R90). The loops carry a fuel that outlasts them. -/

namespace Sys2Proof.Machine

/-- Step 2: `while mantissa > 64: exponent += 1; mantissa >>= 1`, from the given pair. -/
def shiftDown : Nat → Nat → Nat → Nat × Nat
  | 0, mantissa, exponent => (mantissa, exponent)
  | fuel + 1, mantissa, exponent =>
    if mantMax < mantissa then shiftDown fuel (mantissa >>> 1) (exponent + 1) else (mantissa, exponent)

/-- Step 4: `while (1 << g) < gain: g += 1`, from the given `g`. -/
def leastGain : Nat → Nat → Nat → Nat
  | 0, _, g => g
  | fuel + 1, gain, g => if 1 <<< g < gain then leastGain fuel gain (g + 1) else g

/-- What `CIC_QUANTIZE` returns: the config word's fields as integers, and the achieved rate. -/
structure CicResult where
  rateMantissa : Nat
  rateExponent : Nat
  gainExponent : Nat
  achieved     : Nat
deriving DecidableEq, Repr

/-- `CIC_QUANTIZE` (R90), steps 1 to 7. Step 6 is kept although no rate reaches it (R92, D34). -/
def cicQuantize (rate : Int) : Except ErrorKind CicResult :=
  if rate ≤ 0 ∨ rateMax < rate then .error (.rangeError 0)
  else
    let (mantissa, exponent) := shiftDown 32 rate.toNat 0
    let gain := mantissa * mantissa * mantissa
    let gainExponent := leastGain 32 gain 0 + order * exponent
    if gainExpMax < gainExponent then .error .preconditionError
    else .ok {
      rateMantissa := mantissa - 1
      rateExponent := exponent
      gainExponent := gainExponent
      achieved     := mantissa <<< exponent }

/-- The InterpolatorConfig word: `mantissa | exponent << 6 | gain_exponent << 10` (R57). -/
def cicWord (r : CicResult) : BitVec 16 :=
  BitVec.ofNat 16 (r.rateMantissa ||| (r.rateExponent <<< 6) ||| (r.gainExponent <<< 10))

/-- The achieved rate on its 17-bit port (R53, D33). -/
def cicRate (r : CicResult) : BitVec 17 := BitVec.ofNat 17 r.achieved

/-- The fields of an InterpolatorConfig word (R23, R94). -/
def cicFields (word : BitVec 16) : CicConfig where
  rateMantissa := word.extractLsb' 0 6
  rateExponent := word.extractLsb' 6 4
  gainExponent := word.extractLsb' 10 6

/-- The rate a config stands for: `(rate_mantissa + 1) << rate_exponent` (R94). -/
def actualRate (cic : CicConfig) : Nat := (cic.rateMantissa.toNat + 1) <<< cic.rateExponent.toNat

end Sys2Proof.Machine
end

