-- ==== Sys2Proof/Machine/Device.lean ====
section
/-! DEFINITION. The downstream device as the spec's contract gives it (spec/10_state.md R17 to R24, R26,
R29; spec/70_reset_and_hazards.md R157 to R163): how it reads a register write, and what one frame
boundary does with the writes delivered since the last one. What the contract leaves open is a free
value (spec/93_implementation_defined.md I4 to I10, I14). Nothing here is visible to the block (R26). -/

namespace Sys2Proof.Machine

/-- The cfg word: `reset | afe_power_down << 1 | dac_clr << 2 | clr_err << 3`, bits 31:4 zero (R58, R63). -/
def cfgWord (v : Cfg) : Word :=
  BitVec.ofNat 32
    (v.reset.toNat ||| (v.afePowerDown.toNat <<< 1) ||| (v.dacClr.toNat <<< 2) ||| (v.clrErr.toNat <<< 3))

/-- The fields of a cfg word (R20). -/
def cfgFields (word : Word) : Cfg where
  reset        := word.getLsbD 0
  afePowerDown := word.getLsbD 1
  dacClr       := word.getLsbD 2
  clrErr       := word.getLsbD 3

/-- The register that a narrow write reaches (R38). Data: one of the pages 0 to 31, at `DATA_OFFSET`.
The other registers: the page `GLOBAL_BASE`. Offset 0x24, offsets from 0x28 on and every other page have
no register (R38, R61, R62; DEDUCED from I3, log entry 11). Unused data bits are ignored (DESIGN CHOICE, log entry
34). -/
def narrowWrite (c : Config) (addr : Address) (word : Word) : Option DeviceWrite :=
  let page := addr.extractLsb' 8 16
  let offset := addr.extractLsb' 0 8
  if offset = c.dataOffset.setWidth 8 then
    if page.toNat < nchan then some (.data (page.setWidth 5) word) else none
  else if page = c.globalBase.setWidth 16 then
    match offset with
    | 0x20#8 => some (.update word)
    | 0x21#8 => some (.hold word)
    | 0x22#8 => some (.cfg (cfgFields word))
    | 0x23#8 => some (.leds (word.setWidth 8))
    | 0x25#8 => some (.continuous word)
    | 0x26#8 => some (.stageCic (cicFields (word.setWidth 16)))
    | 0x27#8 => some (.applyCic word)
    | _ => none
  else none

/-- The group that a wide write reaches (R17, R31): at `DATA_OFFSET` of the page of an aligned first
channel, exactly `NWORDS` words, all inside the data window 0x00 to 0x1F. At another page it is a misaligned
group write (R168, I12). A partial group write, or one that leaves the window, is given no effect (R17, I3). -/
def wideWrite (c : Config) (addr : Address) (words : List Word) : Option DeviceWrite :=
  let page := addr.extractLsb' 8 16
  let first : Chan := page.setWidth 5
  if addr.extractLsb' 0 8 = c.dataOffset.setWidth 8 ∧ page.toNat < nchan ∧ words.length = groupWords c ∧
      c.dataOffset.toNat + words.length ≤ 32 then
    some (if groupAligned first c.log2Width.val then .group first words else .misalignedGroup first words)
  else none

/-- The effect of a write on the five level registers: each write replaces the whole register (R166). -/
def landLevel (regs : LevelRegs) : DeviceWrite → LevelRegs
  | .hold mask => { regs with holdMask := some mask }
  | .continuous mask => { regs with continuousMask := some mask }
  | .cfg value => { regs with cfg := some value }
  | .stageCic value => { regs with stagedCic := some value }
  | .leds value => { regs with leds := some value }
  | .data _ _ => regs
  | .group _ _ => regs
  | .misalignedGroup _ _ => regs
  | .update _ => regs
  | .applyCic _ => regs

/-- The level registers after the writes of a buffer, in issue order: the later value wins (R40). -/
def landLevels : List Buffered → LevelRegs → LevelRegs
  | [], regs => regs
  | b :: bs, regs => landLevels bs (landLevel regs b.write)

/-- `channel` is in the group that `first` belongs to (00_scope.md section 6, ChannelGroup). For
`WIDTH = 1` the group is the one channel. -/
def sameGroup (c : Config) (first : Chan) (channel : Nat) : Bool :=
  first.toNat / groupWidth c == channel / groupWidth c

/-- A data write of which it is open which channels it reaches and what it stages there: a narrow one in grouped
mode, aligned or not (R168, I7), a wide one in single-channel mode (I7), and a misaligned group write (R168, I12)
(DEDUCED, log entries 21 and 22). -/
def strays (c : Config) : DeviceWrite → Bool
  | .data _ _ => c.log2Width.val != 0
  | .group _ _ => c.log2Width.val == 0
  | .misalignedGroup _ _ => true
  | .update _ => false
  | .hold _ => false
  | .cfg _ => false
  | .leds _ => false
  | .continuous _ => false
  | .stageCic _ => false
  | .applyCic _ => false

/-- A data write that is known to stage a sample for `channel`. -/
def covers (c : Config) (channel : Nat) : DeviceWrite → Bool
  | .data first _ => c.log2Width.val == 0 && sameGroup c first channel
  | .group first _ => c.log2Width.val != 0 && sameGroup c first channel
  | .misalignedGroup _ _ => false
  | .update _ => false
  | .hold _ => false
  | .cfg _ => false
  | .leds _ => false
  | .continuous _ => false
  | .stageCic _ => false
  | .applyCic _ => false

/-- The sample of the `j`-th channel of a group: bits `16*(j mod 2) + 15` down to `16*(j mod 2)` of word
`j >> 1` (R33). -/
def groupSample (words : List Word) (j : Nat) : Sample :=
  (words.getD (j / 2) 0).extractLsb' (16 * (j % 2)) 16

/-- What a dependent operation sees of a value that was written in its own frame: "any value between
'sees the old register value' and 'sees the new one'" (I9). Where nothing changed there is no choice
(DEDUCED, log entry 18). -/
def seen {α : Type} [DecidableEq α] (point : OpenPoint) (draw index : Nat) (old new : α) : α :=
  if old = new then new else if Config.freeBit point draw index then new else old

/-- The fields of a config that `CIC_QUANTIZE` can produce: rate exponent at most 10, gain exponent at most
48. What the device does with any other is open (R92, I18; DEDUCED, log entry 24). -/
def producible (cic : CicConfig) : Bool := decide (cic.rateExponent.toNat ≤ 10 ∧ cic.gainExponent.toNat ≤ gainExpMax)

/-- Whether a channel updates at all: with a rate other than 1 only while its continuous bit is 1 (R163,
I11; how it combines with hold and update is DEDUCED, log entry 25). Free while the rate, or the bit it then depends
on, has no value (R29), and for a config that no command produces (I18). -/
def channelRuns (draw index : Nat) (continuous : Option Mask) (cic : Option CicConfig) (channel : Nat) : Bool :=
  match cic with
  | none => Config.freeBit .rateUnknown draw index
  | some cfg =>
    if !producible cfg then Config.freeBit .rateUnknown draw index
    else if actualRate cfg = 1 then true
    else match continuous with
      | none => Config.freeBit .rateUnknown draw index
      | some mask => selects mask channel

/-- A stray data write on one channel: any sample staged, or none (I7, I12). -/
def strayLands (draw index : Nat) (x : Channel) : Channel :=
  if Config.freeBit .strayReaches draw index then
    { x with staged := some (Config.freeBits 16 .strayWrite draw index) }
  else x

/-- One write of a frame as it takes effect on one channel. `old` and `start` are the level registers and the
channel at the frame's start, `cur` the level registers as the frame's earlier writes leave them, `k` the write's
place in the buffer. -/
def landWrite (c : Config) (draw channel : Nat) (old : LevelRegs) (start : Channel)
    (k : Nat) (cur : LevelRegs) (w : DeviceWrite) (x : Channel) : Channel :=
  let index := nchan * k + channel
  match w with
  | .data first word =>
    -- R17, R55; R168 and I7 where the device is in grouped mode
    if c.log2Width.val = 0 then
      if sameGroup c first channel then { x with staged := some (word.setWidth 16) } else x
    else strayLands draw index x
  | .group first words =>
    -- R17, R33, R160; I7 where the device is in single-channel mode
    if c.log2Width.val = 0 then strayLands draw index x
    else if sameGroup c first channel then { x with staged := some (groupSample words (channel - first.toNat)) }
    else x
  | .misalignedGroup _ _ => strayLands draw index x
  | .update mask =>
    -- R18; I5 for a channel that is not held (DEDUCED, log entry 20); I9 (DEDUCED, log entry 18)
    if selects mask channel then
      let continuous := seen .continuousSeen draw index old.continuousMask cur.continuousMask
      let applies :=
        match seen .holdSeen draw index old.holdMask cur.holdMask with
        | none => Config.freeBit .holdUnknown draw index
        | some held => if selects held channel then true else Config.freeBit .unheldUpdate draw index
      let cic := seen .appliedCicSeen draw index start.cic x.cic
      if applies && channelRuns draw index continuous cic channel then
        { x with applied := seen .stagedSampleSeen draw index start.staged x.staged }
      else x
    else x
  | .applyCic mask =>
    -- R24, R161; I9 for a config staged in the same frame
    if selects mask channel then
      { x with cic := seen .stagedCicSeen draw k old.stagedCic cur.stagedCic, settling := some order }
    else x
  | .hold _ => x
  | .cfg _ => x
  | .leds _ => x
  | .continuous _ => x
  | .stageCic _ => x

/-- The writes of a frame as they take effect on one channel, in issue order (R40). -/
def landChannel (c : Config) (draw channel : Nat) (old : LevelRegs) (start : Channel) :
    Nat → LevelRegs → List Buffered → Channel → Channel
  | _, _, [], x => x
  | k, cur, b :: bs, x =>
    landChannel c draw channel old start (k + 1) (landLevel cur b.write) bs
      (landWrite c draw channel old start k cur b.write x)

/-- Whether the frame itself updates a channel: "auto-update next frame" for a channel that is not held
(R19), with new data in the frame or with its continuous bit set ("keep updating even without new data",
R22). Whether older staged data is applied is open (I6; DEDUCED, log entry 20). `oldCic` and `newCic` are the
channel's applied config at the frame's start and as the frame's writes leave it: which of them an update in the
frame of an APPLY_CIC runs by is open (I9; DEDUCED, log entry 18). -/
def autoUpdates (c : Config) (draw channel : Nat) (buffer : List Buffered) (old cur : LevelRegs)
    (oldCic newCic : Option CicConfig) : Bool :=
  let index := nchan * buffer.length + channel
  let continuous := seen .continuousSeen draw index old.continuousMask cur.continuousMask
  let released :=
    match seen .holdSeen draw index old.holdMask cur.holdMask with
    | none => Config.freeBit .holdUnknown draw index
    | some held => !selects held channel
  let fresh := buffer.any (fun b => covers c channel b.write) ||
    (match continuous with
     | none => false
     | some mask => selects mask channel)
  let cic := seen .appliedCicSeen draw index oldCic newCic
  released && channelRuns draw index continuous cic channel && (fresh || Config.freeBit .staleStaged draw index)

/-- No cfg bit that changes what the outputs do is 1 (I14; DEDUCED, log entry 23). -/
def quietCfg (v : Cfg) : Bool := !v.reset && !v.afePowerDown && !v.dacClr

/-- The cfg register is known to be quiet through the whole frame. -/
def quietFrame (old : LevelRegs) (buffer : List Buffered) : Bool :=
  (match old.cfg with
   | none => false
   | some v => quietCfg v) &&
  buffer.all fun b =>
    match b.write with
    | .cfg v => quietCfg v
    | _ => true

/-- A data write that may reach `channel`: one that stages a sample for it, or any stray one. -/
def mayReach (c : Config) (channel : Nat) (w : DeviceWrite) : Bool := covers c channel w || strays c w

/-- An apply-CIC that selects the channel and a data write to it at one schedule position (R162, I4;
DEDUCED, log entry 19). -/
def applyDataRace (c : Config) (channel : Nat) (buffer : List Buffered) : Bool :=
  buffer.any fun a =>
    match a.write with
    | .applyCic mask => selects mask channel && buffer.any fun b => b.time == a.time && mayReach c channel b.write
    | _ => false

/-- The transient output samples that are left at a frame boundary: a frame puts out some number of
samples that the spec does not give (R161, N26; DEDUCED, log entry 26). Without a value before the first apply (R29). -/
def agedSettling (draw channel : Nat) (settling : Option Nat) : Option Nat :=
  settling.map fun left => if left = 0 then 0 else left - Config.freeNat .outputSamples draw channel

/-- One frame boundary, for one channel. The frame's own update applies what the channel has staged once the frame's
writes have landed: data for a channel that is not held is applied at the very boundary that stages it, and not one
frame later (R19 with R157; DESIGN CHOICE, log entry 37). -/
def frameChannel (c : Config) (draw : Nat) (buffer : List Buffered) (old cur : LevelRegs) (channel : Nat)
    (x : Channel) : Channel :=
  let aged := { x with settling := agedSettling draw channel x.settling }
  let landed := landChannel c draw channel old x 0 old buffer aged
  let updated :=
    if autoUpdates c draw channel buffer old cur x.cic landed.cic then { landed with applied := landed.staged } else landed
  let settled :=
    if quietFrame old buffer then updated
    else { updated with applied := some (Config.freeBits 16 .cfgActive draw channel) }
  if applyDataRace c channel buffer then
    { settled with staged := some (Config.freeBits 16 .raceStaged draw channel),
                   applied := some (Config.freeBits 16 .raceApplied draw channel) }
  else settled

/-- One frame boundary, for the channels from number `channel` on. -/
def frameChannels (c : Config) (draw : Nat) (buffer : List Buffered) (old cur : LevelRegs) :
    Nat → List Channel → List Channel
  | _, [] => []
  | channel, x :: xs =>
    frameChannel c draw buffer old cur channel x :: frameChannels c draw buffer old cur (channel + 1) xs

/-- The error counters at a frame boundary: cleared while `clr_err` is 1, counting while it is 0 (R20,
R26, R144). What they count, and so by how much, is open (N14). -/
def frameErrors (draw : Nat) (buffer : List Buffered) (cur : LevelRegs) (count : Option Nat) : Option Nat :=
  match cur.cfg with
  | none => count
  | some v =>
    if v.clrErr then some 0
    else
      let cleared := buffer.any fun b =>
        match b.write with
        | .cfg w => w.clrErr
        | _ => false
      let start := if cleared && Config.freeBit .errorsCleared draw 0 then some 0 else count
      start.map (· + Config.freeNat .errorsCounted draw 0)

/-- One frame boundary: every write delivered since the last one takes effect (R26, R157), in issue
order (R40), and the channels update (DEDUCED, log entry 16). -/
def frameBoundary (c : Config) (draw : Nat) (d : Device) : Device :=
  let cur := landLevels d.buffer d.levels
  { buffer     := []
    levels     := cur
    channels   := frameChannels c draw d.buffer d.levels cur 0 d.channels
    errorCount := frameErrors draw d.buffer cur d.errorCount }

/-- How many frame boundaries lie in `(now, now + dur]`. Frames follow each other every `T_FRAME`; where
they start is not in the source (R157, N25). -/
def framesCrossed (now dur : Nat) : Nat :=
  (now + dur + Config.framePhase) / tFrame - (now + Config.framePhase) / tFrame

/-- The device after `frames` frame boundaries. From the second on, a boundary has no write to take
effect, and what it does is keep a channel as it is, set it from its staged sample, or draw free values;
one boundary drawn freely stands for all of them (DEDUCED, log entry 17). -/
def elapseFrames (c : Config) (draw : Nat) (d : Device) : Nat → Device
  | 0 => d
  | 1 => frameBoundary c draw d
  | _ + 2 => frameBoundary c (draw + 1) (frameBoundary c draw d)

end Sys2Proof.Machine
end

