-- ==== Sys2Proof/Machine/Flags.lean ====
section
/-! DEFINITION. The block has no flags (spec/10_state.md R13). What it reports instead stands here: the
error codes (spec/60_exceptions.md R130), the result ports (spec/30_encoding.md R53) and the event port
(R66). A port that a command does not produce is unspecified (R53): a free value. -/

namespace Sys2Proof.Machine

/-- The code of an error kind on the `err` port (R130, D12). -/
def errorCode : ErrorKind → BitVec 3
  | .rangeError _ => 1
  | .alignmentError => 2
  | .unsupportedOperation => 3
  | .preconditionError => 4
  | .timingUnderflow => 5
  | .illegalCommand => 7

/-- `err_info`: the index of the offending voltage of a `RangeError`, otherwise 0 (R53, R130). -/
def errorInfo : ErrorKind → BitVec 6
  | .rangeError index => index
  | .alignmentError => 0
  | .unsupportedOperation => 0
  | .preconditionError => 0
  | .timingUnderflow => 0
  | .illegalCommand => 0

/-- The entries `start` to 15 of the `index`-th 16-entry word port of a draw, none of them produced. -/
def freeWords (point : OpenPoint) (draw index start : Nat) : List Word :=
  (List.range (16 - start)).map fun k => Config.freeBits 32 point draw (16 * index + start + k)

/-- The result ports of which only `err` and `err_info` are produced (R53). -/
def portsWith (err : BitVec 3) (errInfo : BitVec 6) (draw : Nat) : ResultPorts where
  err       := err
  errInfo   := errInfo
  resMu     := Config.freeBits 16 .portMu draw 0
  resNwords := Config.freeBits 5 .portNwords draw 0
  resWords  := freeWords .portWords draw 0 0
  resAddr   := Config.freeBits 24 .portAddr draw 0
  resCic    := Config.freeBits 16 .portCic draw 0
  resRate   := Config.freeBits 17 .portRate draw 0

/-- The ports of a command that completes without error and without a result: `err` 0, `err_info` 0. -/
def okPorts (draw : Nat) : ResultPorts := portsWith 0 0 draw

/-- The ports of a command in error: "every other result port but `err_info` is unspecified" (R53). -/
def errorPorts (e : ErrorKind) (draw : Nat) : ResultPorts := portsWith (errorCode e) (errorInfo e) draw

/-- `words` on the first entries of `res_words`; the entries above are not produced. -/
def wordsPort (words : List Word) (draw : Nat) : List Word := words ++ freeWords .portWords draw 0 words.length

/-- An event as the event port carries it (R66). Fields that its kind does not use are free; `index`
tells the events of one command apart. -/
def eventRecord (draw index : Nat) : Event → EventPort
  | .wn addr data =>
    { evKind := 0b00, evAddr := addr, evN := 1,
      evData := data :: freeWords .eventData draw index 1,
      evDur := Config.freeBits 64 .eventDur draw index }
  | .ww addr data =>
    { evKind := 0b01, evAddr := addr, evN := BitVec.ofNat 5 data.length,
      evData := data ++ freeWords .eventData draw index data.length,
      evDur := Config.freeBits 64 .eventDur draw index }
  | .dl dur =>
    { evKind := 0b10, evAddr := Config.freeBits 24 .eventAddr draw index,
      evN := Config.freeBits 5 .eventN draw index,
      evData := freeWords .eventData draw index 0,
      evDur := dur }

/-- The event port's records for a command's event list, in order, the first at `index` (R66). -/
def eventRecords (draw index : Nat) : List Event → List EventPort
  | [] => []
  | e :: es => eventRecord draw index e :: eventRecords draw (index + 1) es

end Sys2Proof.Machine
end

