-- ==== Sys2Proof/Machine/Ops.lean ====
section
/-! DEFINITION. The operations that every command is made of: the register space (spec/10_state.md R25),
issuing events through the transport (spec/20_memory.md R30 to R32, R40), completing a command
(spec/30_encoding.md R53, R66), and ending it in error (spec/60_exceptions.md R138, R139). -/

namespace Sys2Proof.Machine

/-- The word last delivered to an address, or `none` where none was (R29). -/
def readWord (m : Memory) (addr : Nat) : Option Word :=
  match m with
  | [] => none
  | (a, w) :: rest => if a = addr then some w else readWord rest addr

/-- A word delivered to an address (R30). Keeps the addresses strictly rising. -/
def writeWord (m : Memory) (addr : Nat) (word : Word) : Memory :=
  match m with
  | [] => [(addr, word)]
  | (a, w) :: rest =>
    if addr < a then (addr, word) :: (a, w) :: rest
    else if a = addr then (addr, word) :: rest
    else (a, w) :: writeWord rest addr word

/-- The words of a burst: word `i` belongs to address `addr + i`, delivered in ascending order (R31, D23). -/
def writeWords (m : Memory) (addr : Address) : List Word → Memory
  | [] => m
  | w :: ws => writeWords (writeWord m addr.toNat w) (addr + 1) ws

/-- The canonical form: addresses strictly rising, each of 24 bits. An unlisted address has no value, so
no listed word equals it. -/
abbrev memoryWf (m : Memory) : Prop := m.Pairwise (fun x y => x.1 < y.1) ∧ ∀ x ∈ m, x.1 < 2 ^ 24

/-- A write event that the transport takes and the device finds a register for: it is delivered, and
waits in the frame double buffer for the next boundary (R26, R30, R31, R157). -/
def State.delivered (s : State) (e : Event) (space : Memory) (w : DeviceWrite) : State :=
  { s with
    trace    := s.trace ++ [e]
    regSpace := space
    device   := { s.device with buffer := s.device.buffer ++ [{ time := s.now, write := w }] } }

/-- A delay event: `now <- now + d` (R12, R32). Frame boundaries that the schedule position passes take
their effect (R41, R157). -/
def State.delayed (s : State) (dur : Duration) : State :=
  { s with
    trace  := s.trace ++ [.dl dur]
    now    := s.now + dur.toNat
    device := elapseFrames s.config s.draws s.device (framesCrossed s.now dur.toNat)
    draws  := s.draws + 2 }

/-- One event through the transport. A write issued earlier than the bus's position is the transport's
timing-underflow fault (R135, R164); a write for which the device has no register is the device's (I3,
R17). A late write is the transport's fault whether or not it has a register (DESIGN CHOICE, log entry 35). -/
def issueEvent (s : State) (e : Event) : Except Fault State :=
  match e with
  | .wn addr word =>
    if s.now < s.busPosition then .error .timingUnderflow
    else match narrowWrite s.config addr word with
      | none => .error (.noRegister addr)
      | some w => .ok (s.delivered e (writeWord s.regSpace addr.toNat word) w)
  | .ww addr words =>
    if s.now < s.busPosition then .error .timingUnderflow
    else match wideWrite s.config addr words with
      | none => .error (.noRegister addr)
      | some w => .ok (s.delivered e (writeWords s.regSpace addr words) w)
  | .dl dur => .ok (s.delayed dur)

/-- The events of one command, in list order (R40 (a)). -/
def issueEvents (s : State) : List Event → Except Fault State
  | [] => .ok s
  | e :: es =>
    match issueEvent s e with
    | .error fault => .error fault
    | .ok s' => issueEvents s' es

/-- The result ports, the event port's records, and one draw more. -/
def State.reported (s : State) (ports : ResultPorts) (records : List EventPort) : State :=
  { s with ports := ports, eventPort := records, draws := s.draws + 1 }

/-- A command that ends without error: its events are issued in order and its results reported (R50, R53,
R66). A fault of the transport or the device ends the run (R135). -/
def complete (s : State) (ports : ResultPorts) (events : List Event) : Host.Outcome State Fault Refusal :=
  match issueEvents s events with
  | .error fault => .fault fault
  | .ok s' => .next (s'.reported ports (eventRecords s.draws 0 events))

/-- ERROR ENTRY (R138): the command ends at once; no event, the mirror as it was, and the error on the
result ports. There is nothing to return from: the next command is accepted as if this one had not been
issued (R139). -/
def raiseError (s : State) (e : ErrorKind) : Host.Outcome State Fault Refusal :=
  .next (s.reported (errorPorts e s.draws) [])

/-- A computation that may raise: its value goes on, its error is the command's (R138). -/
def orRaise {α : Type} (s : State) (r : Except ErrorKind α) (go : α → Host.Outcome State Fault Refusal) :
    Host.Outcome State Fault Refusal :=
  match r with
  | .error e => raiseError s e
  | .ok v => go v

/-- The address of a device-wide register: `ENCODE(GLOBAL_BASE, offset)` (R39, R44, D6). -/
def globalAddress (c : Config) (offset : BitVec 8) : Address := encodeAddress c.globalBase offset

/-- The address of a data write: `ENCODE(channel, DATA_OFFSET)` (R39, R44, D5). -/
def dataAddress (c : Config) (channel : Chan) : Address := encodeAddress channel (c.dataOffset.setWidth 8)

/-- A reserved command code (R60, R146): `IllegalCommand`, no event, no state change (DEDUCED, log entry 33). -/
def illegalCommand (s : State) : Host.Outcome State Fault Refusal := raiseError s .illegalCommand

/-- The next presented command is accepted, and the bus has moved on (R1, R11, R135). -/
def State.accepted (s : State) (p : Presented) (rest : List Presented) : State :=
  { s with input := rest, busPosition := s.busPosition + p.elapsed }

/-- A reset of a running block (R150, R27): its mirror is `⊥` and it has emitted nothing; the configuration is
not reset, and neither is the device, the transport, nor what the caller presents (log entry 32). -/
def State.blockReset (s : State) : State :=
  { s with mirror := LevelRegs.unwritten, ports := ResultPorts.idle, eventPort := [], trace := [] }

/-- Construction (R3, R134, R150, D18): PreconditionError unless `REF_PERIOD` is 1 ns and `LOG2_WIDTH` is
in 0..5; otherwise a block with every other parameter at its default, beside a device to which nothing has
been written (DEDUCED, log entry 32). -/
def construct (log2Width refPeriod : Nat) : Except ErrorKind State :=
  if h : refPeriod = 1 ∧ log2Width < 6 then .ok (State.fresh (Config.standard ⟨log2Width, h.2⟩))
  else .error .preconditionError

end Sys2Proof.Machine
end

