-- ==== Sys2Proof/Machine/RegisterCommands.lean ====
section
/-! DEFINITION. The mask and bit-field writes (spec/43_device_ops.md R102 to R106). Each overwrites its
whole register (R166); `UPDATE` is not mirrored (spec/10_state.md R16). -/

namespace Sys2Proof.Machine

/-- The mirror replaced (R14). -/
def State.withMirror (s : State) (mirror : LevelRegs) : State := { s with mirror := mirror }

/-- The LED word: bits 7:0 the operand, bits 31:8 zero (R59, R63). -/
def ledWord (led : BitVec 8) : Word := led.setWidth 32

/-- `UPDATE` (R102). -/
def execUpdate (mask : Mask) (s : State) : Host.Outcome State Fault Refusal :=
  complete s (okPorts s.draws) [.wn (globalAddress s.config 0x20) mask]

/-- `SET_HOLD` (R103): `S.hold_mask <- mask`. -/
def execSetHold (mask : Mask) (s : State) : Host.Outcome State Fault Refusal :=
  complete (s.withMirror { s.mirror with holdMask := some mask }) (okPorts s.draws)
    [.wn (globalAddress s.config 0x21) mask]

/-- `SET_CONTINUOUS` (R104): `S.continuous_mask <- mask`. -/
def execSetContinuous (mask : Mask) (s : State) : Host.Outcome State Fault Refusal :=
  complete (s.withMirror { s.mirror with continuousMask := some mask }) (okPorts s.draws)
    [.wn (globalAddress s.config 0x25) mask]

/-- `SET_LEDS` (R105): `S.leds <- led`. -/
def execSetLeds (led : BitVec 8) (s : State) : Host.Outcome State Fault Refusal :=
  complete (s.withMirror { s.mirror with leds := some led }) (okPorts s.draws)
    [.wn (globalAddress s.config 0x23) (ledWord led)]

/-- `SET_CFG` (R106): `S.cfg <- {reset, afe_power_down, dac_clr, clr_err}`. -/
def execSetCfg (reset afePowerDown dacClr clrErr : Bool) (s : State) : Host.Outcome State Fault Refusal :=
  let value : Cfg := { reset := reset, afePowerDown := afePowerDown, dacClr := dacClr, clrErr := clrErr }
  complete (s.withMirror { s.mirror with cfg := some value }) (okPorts s.draws)
    [.wn (globalAddress s.config 0x22) (cfgWord value)]

end Sys2Proof.Machine
end

