-- ==== Sys2Proof/Machine/CicCommands.lean ====
section
/-! DEFINITION. The interpolator commands (spec/43_device_ops.md R107, R108). -/

namespace Sys2Proof.Machine

/-- `STAGE_CIC` (R107): the config word is written, mirrored and returned with the achieved rate. -/
def execStageCic (rate : BitVec 32) (s : State) : Host.Outcome State Fault Refusal :=
  orRaise s (cicQuantize (rateValue rate)) fun r =>
    complete (s.withMirror { s.mirror with stagedCic := some (cicFields (cicWord r)) })
      { okPorts s.draws with resCic := cicWord r, resRate := cicRate r }
      [.wn (globalAddress s.config 0x26) ((cicWord r).setWidth 32)]

/-- `APPLY_CIC` (R108): not mirrored, and `S.staged_cic` is kept (R16). -/
def execApplyCic (mask : Mask) (s : State) : Host.Outcome State Fault Refusal :=
  complete s (okPorts s.draws) [.wn (globalAddress s.config 0x27) mask]

end Sys2Proof.Machine
end

