-- ==== Sys2Proof/Machine/VoltageCodec.lean ====
section
/-! DEFINITION. Unit U1, VoltageCodec (spec/40_voltage_codec.md): pure functions of the operands. -/

namespace Sys2Proof.Machine

/-- `VOLTAGE_TO_MU` (R70): RangeError for a datum that is not finite (R71) or whose ROUNDED result is
outside 0..65535 (C3); otherwise the sample. -/
def voltageToMu (c : Config) (f : Volt) : Except ErrorKind Sample :=
  if isFinite f then
    let n := roundRatio c (scaledVoltage c f) + muZero
    if n < 0 ∨ muMax < n then .error (.rangeError 0) else .ok (BitVec.ofNat 16 n.toNat)
  else .error (.rangeError 0)

/-- Conversion of a list of voltages in index order, the first at `index` (R74). The error reports the
lowest index whose voltage is rejected (R137). -/
def convertAll (c : Config) (index : Nat) : List Volt → Except ErrorKind (List Sample)
  | [] => .ok []
  | f :: fs =>
    match voltageToMu c f with
    | .error _ => .error (.rangeError (BitVec.ofNat 6 index))
    | .ok mu =>
      match convertAll c (index + 1) fs with
      | .error e => .error e
      | .ok mus => .ok (mu :: mus)

/-- A GroupWord: the even-indexed channel's sample in bits 15:0, the odd-indexed one's in bits 31:16
(R33, R56). -/
def groupWord (even odd : Sample) : Word := even.setWidth 32 ||| (odd.setWidth 32 <<< 16)

/-- Consecutive samples in pairs; an unpaired last sample has machine-unit 0 above it (R74). -/
def packPairs : List Sample → List Word
  | [] => []
  | [even] => [groupWord even 0]
  | even :: odd :: rest => groupWord even odd :: packPairs rest

/-- `PACK_GROUP` (R74): PreconditionError for more than 32 voltages, before any conversion (R137, D8). -/
def packGroup (c : Config) (nvolt : BitVec 6) (volts : List Volt) : Except ErrorKind (List Word) :=
  if 32 < nvolt.toNat then .error .preconditionError
  else
    match convertAll c 0 volts with
    | .error e => .error e
    | .ok mus => .ok (packPairs mus)

/-- `FILL_GROUP` (R75): zero words up to `NWORDS`. -/
def fillGroup (c : Config) (words : List Word) : List Word :=
  words ++ List.replicate (groupWords c - words.length) 0

end Sys2Proof.Machine
end

