-- ==== Sys2Proof/Machine/DataCommands.lean ====
section
/-! DEFINITION. The two DAC data writes (spec/43_device_ops.md R100, R101). Neither writes the mirror
(spec/10_state.md R16). -/

namespace Sys2Proof.Machine

/-- The data word of a narrow data write: the sample in bits 15:0, bits 31:16 zero (R55, D5). -/
def dataWord (mu : Sample) : Word := mu.setWidth 32

/-- `SET_CHANNEL` (R100). -/
def execSetChannel (chan : Chan) (volt : Volt) (s : State) : Host.Outcome State Fault Refusal :=
  orRaise s (voltageToMu s.config volt) fun mu =>
    complete s (okPorts s.draws) [.wn (dataAddress s.config chan) (dataWord mu)]

/-- The words of a group write: alignment first, then the count, then the voltages (R101, R137). -/
def groupWrite (c : Config) (first : Chan) (nvolt : BitVec 6) (volts : List Volt) : Except ErrorKind (List Word) :=
  match validateGroupAlignment first c.log2Width.val with
  | .error e => .error e
  | .ok _ =>
    if groupWidth c < nvolt.toNat then .error .preconditionError
    else
      match packGroup c nvolt volts with
      | .error e => .error e
      | .ok words => .ok (fillGroup c words)

/-- `SET_GROUP` (R101): one wide write of `NWORDS` words. -/
def execSetGroup (chan : Chan) (nvolt : BitVec 6) (volts : List Volt) (s : State) :
    Host.Outcome State Fault Refusal :=
  orRaise s (groupWrite s.config chan nvolt volts) fun words =>
    complete s (okPorts s.draws) [.ww (dataAddress s.config chan) words]

end Sys2Proof.Machine
end

