-- ==== Sys2Proof/Machine/SystemCommands.lean ====
section
/-! DEFINITION. Time, initialization and the read that always fails (spec/43_device_ops.md R109 to R111). -/

namespace Sys2Proof.Machine

/-- `DELAY` (R109). -/
def execDelay (dur : Duration) (s : State) : Host.Outcome State Fault Refusal :=
  complete s (okPorts s.draws) [.dl dur]

/-- One FramePeriod of delay (R41, R167). -/
def frameDelay : Event := .dl (BitVec.ofNat 64 tFrame)

/-- The seven register writes of the standard `INIT_SEQ` (R110): offset and word. -/
def initWrites : List (BitVec 8 × Word) :=
  [(0x22, 0x00000008), (0x22, 0x00000000), (0x25, 0x00000000), (0x21, 0x00000000),
   (0x26, 0x00000000), (0x27, 0xFFFFFFFF), (0x23, 0x00000000)]

/-- A list of register writes, each followed by one FramePeriod of delay (R110, R65). -/
def spacedWrites (c : Config) : List (BitVec 8 × Word) → List Event
  | [] => []
  | (offset, word) :: rest => .wn (globalAddress c offset) word :: frameDelay :: spacedWrites c rest

/-- The event list of `INITIALIZE`: the parameter `INIT_SEQ` (R5, R110, D15). -/
def initEvents (c : Config) : List Event :=
  match c.initSeq with
  | .standard => spacedWrites c initWrites
  | .custom events => events

/-- The mirror after `INITIALIZE` (R28). -/
def initMirror : LevelRegs where
  holdMask       := some 0
  continuousMask := some 0
  cfg            := some { reset := false, afePowerDown := false, dacClr := false, clrErr := false }
  stagedCic      := some { rateMantissa := 0, rateExponent := 0, gainExponent := 0 }
  leds           := some 0

/-- `INITIALIZE` (R110). -/
def execInitialise (s : State) : Host.Outcome State Fault Refusal :=
  complete (s.withMirror initMirror) (okPorts s.draws) (initEvents s.config)

/-- `READ` (R111): UnsupportedOperation for every address, which is not examined. -/
def execRead (_addr : Address) (s : State) : Host.Outcome State Fault Refusal :=
  raiseError s .unsupportedOperation

end Sys2Proof.Machine
end

