-- ==== Sys2Proof/Machine/UnitCommands.lean ====
section
/-! DEFINITION. The five unit functions as commands (spec/30_encoding.md R52, D30): they emit no event and
change no mirror field; their result leaves on the result ports (R53). -/

namespace Sys2Proof.Machine

/-- `VOLTAGE_TO_MU` (R70): `res_mu`, or RangeError. -/
def execVoltageToMu (volt : Volt) (s : State) : Host.Outcome State Fault Refusal :=
  orRaise s (voltageToMu s.config volt) fun mu =>
    complete s { okPorts s.draws with resMu := mu } []

/-- `PACK_GROUP` (R74): `res_nwords` and `res_words`, or PreconditionError, or RangeError with the lowest
rejected index. -/
def execPackGroup (nvolt : BitVec 6) (volts : List Volt) (s : State) : Host.Outcome State Fault Refusal :=
  orRaise s (packGroup s.config nvolt volts) fun words =>
    complete s
      { okPorts s.draws with resNwords := BitVec.ofNat 5 words.length, resWords := wordsPort words s.draws } []

/-- `ENCODE` (R80): `res_addr`. -/
def execEncode (chan : Chan) (offs : BitVec 8) (s : State) : Host.Outcome State Fault Refusal :=
  complete s { okPorts s.draws with resAddr := encodeAddress chan offs } []

/-- `VALIDATE_GROUP_ALIGNMENT` (R81): succeeds, or PreconditionError, or AlignmentError. -/
def execValidateGroupAlignment (chan : Chan) (l2w : BitVec 3) (s : State) : Host.Outcome State Fault Refusal :=
  orRaise s (validateGroupAlignment chan l2w.toNat) fun _ => complete s (okPorts s.draws) []

/-- `CIC_QUANTIZE` (R90): `res_cic` and `res_rate`, or RangeError. -/
def execCicQuantize (rate : BitVec 32) (s : State) : Host.Outcome State Fault Refusal :=
  orRaise s (cicQuantize (rateValue rate)) fun r =>
    complete s { okPorts s.draws with resCic := cicWord r, resRate := cicRate r } []

end Sys2Proof.Machine
end

