-- ==== Sys2Proof/Machine/Dispatch.lean ====
section
/-! DEFINITION. One arm per command: a direct call of its meaning. -/

namespace Sys2Proof.Machine

def exec (i : Instr) (s : State) : Host.Outcome State Fault Refusal :=
  match i with
  | .setChannel chan volt => Sys2Proof.Machine.execSetChannel chan volt s
  | .update mask => Sys2Proof.Machine.execUpdate mask s
  | .setHold mask => Sys2Proof.Machine.execSetHold mask s
  | .setCfg reset afePowerDown dacClr clrErr => Sys2Proof.Machine.execSetCfg reset afePowerDown dacClr clrErr s
  | .setLeds led => Sys2Proof.Machine.execSetLeds led s
  | .setContinuous mask => Sys2Proof.Machine.execSetContinuous mask s
  | .stageCic rate => Sys2Proof.Machine.execStageCic rate s
  | .applyCic mask => Sys2Proof.Machine.execApplyCic mask s
  | .setGroup chan nvolt volts => Sys2Proof.Machine.execSetGroup chan nvolt volts s
  | .initialise => Sys2Proof.Machine.execInitialise s
  | .delay dur => Sys2Proof.Machine.execDelay dur s
  | .voltageToMu volt => Sys2Proof.Machine.execVoltageToMu volt s
  | .packGroup nvolt volts => Sys2Proof.Machine.execPackGroup nvolt volts s
  | .encode chan offs => Sys2Proof.Machine.execEncode chan offs s
  | .validateGroupAlignment chan l2w => Sys2Proof.Machine.execValidateGroupAlignment chan l2w s
  | .cicQuantize rate => Sys2Proof.Machine.execCicQuantize rate s
  | .read addr => Sys2Proof.Machine.execRead addr s

end Sys2Proof.Machine
end

