-- ==== Sys2Proof/Machine/Step.lean ====
section
/-! DEFINITION. One step: the next presented command is accepted, decoded and executed to completion
(spec/00_scope.md R1; spec/10_state.md R11). -/

namespace Sys2Proof.Machine

/-- One step. A record whose code is reserved fails with `IllegalCommand` (R60, R146). With no command
presented nothing happens: the block only reacts to commands (R1; DESIGN CHOICE, log entry 8). -/
def step (s : State) : Host.Outcome State Fault Refusal :=
  match s.input with
  | [] => .next s
  | p :: rest =>
    match decode p.record with
    | .error _ => illegalCommand (s.accepted p rest)
    | .ok i => exec i (s.accepted p rest)

/-- `s` with the command whose record has the bits `w`, every bit above `nbits` 0, presented as the next
one, at no cost in bus time (DESIGN CHOICE, log entry 5). -/
def State.withFetchWord (s : State) (nbits w : Nat) : State :=
  { s with input := { record := tableRecord nbits w, elapsed := 0 } :: s.input }

end Sys2Proof.Machine
end

