-- ==== Sys2Proof/Safety.lean ====
section
/-! DEFINITION. What counts as a safe run. A step is safe when it neither faults nor is refused. An event
list respects the hazards when the spacings that the caller owes the device are kept
(spec/70_reset_and_hazards.md R157 to R159, R162); the block checks none of them. -/

namespace Sys2Proof.Machine

/-- A step that ends in a next state. -/
def goesOn {σ φ ρ : Type} : Host.Outcome σ φ ρ → Bool
  | .next _ => true
  | .fault _ => false
  | .refused _ => false

/-- The writes of an event list with the schedule position at which each is issued, from `now` on: the
fold of R12. A write without a register is left out. -/
def issuedWrites (c : Config) (now : Nat) : List Event → List Buffered
  | [] => []
  | .wn addr word :: es =>
    match narrowWrite c addr word with
    | none => issuedWrites c now es
    | some w => { time := now, write := w } :: issuedWrites c now es
  | .ww addr words :: es =>
    match wideWrite c addr words with
    | none => issuedWrites c now es
    | some w => { time := now, write := w } :: issuedWrites c now es
  | .dl dur :: es => issuedWrites c (now + dur.toNat) es

/-- Every write of the kind `later` is issued at least one FramePeriod after every write of the kind
`earlier` that precedes it (R41, R157). -/
def framesApart (earlier later : DeviceWrite → Bool) : List Buffered → Bool
  | [] => true
  | b :: bs =>
    (!earlier b.write || bs.all fun b' => !later b'.write || decide (b.time + tFrame ≤ b'.time)) &&
      framesApart earlier later bs

/-- A CIC staging write. -/
def isStage : DeviceWrite → Bool
  | .stageCic _ => true
  | _ => false

/-- An apply-CIC write that selects some channel in question. -/
def appliesTo (channel : Nat) : DeviceWrite → Bool
  | .applyCic mask => selects mask channel
  | _ => false

/-- An update write that selects the channel. -/
def updatesChannel (channel : Nat) : DeviceWrite → Bool
  | .update mask => selects mask channel
  | _ => false

/-- A write that decides whether and how the channel takes data: hold, continuous, or an apply-CIC that selects it. -/
def governs (channel : Nat) : DeviceWrite → Bool
  | .hold _ => true
  | .continuous _ => true
  | .applyCic mask => selects mask channel
  | _ => false

/-- R157 for one channel: apply after stage (R158), update after a data write (R159), data and updates after the
writes that govern the channel, and no apply and data write at one schedule position (R162). -/
def channelRespectsHazards (c : Config) (writes : List Buffered) (channel : Nat) : Bool :=
  framesApart isStage (appliesTo channel) writes &&
  framesApart (mayReach c channel) (updatesChannel channel) writes &&
  framesApart (governs channel) (fun w => mayReach c channel w || updatesChannel channel w) writes &&
  !applyDataRace c channel writes

/-- The event list, issued from schedule position `now` on, respects the hazards R157 to R159 and R162
of every channel. -/
def respectsHazards (c : Config) (now : Nat) (events : List Event) : Bool :=
  (List.range nchan).all (channelRespectsHazards c (issuedWrites c now events))

/-- The commands of a list executed one after the other, each to completion before the next (R11). -/
def execAll : List Instr → State → Host.Outcome State Fault Refusal
  | [], s => .next s
  | i :: is, s =>
    match exec i s with
    | .next t => execAll is t
    | .fault f => .fault f
    | .refused r => .refused r

end Sys2Proof.Machine
end

