-- ==== Sys2Proof/Certificates/Slice0/Obligations.lean ====
section
/-! DEFINITION. The statements for the provers. Each docstring names the rule of spec/ it formalises. The
notions the statements are written in come first, under `Sys2Proof.Claims`: the exact voltage as a
rational, rounding as R72 writes it, and what a command may leave changed. -/

namespace Sys2Proof.Claims

open Sys2Proof.Machine

/-- `val(f)` of a finite binary64 datum, by the IEEE 754 formula over its three fields (R71). -/
def volts (f : Volt) : ℚ :=
  let exponent := (f.extractLsb' 52 11).toNat
  let fraction : ℚ := ((f.extractLsb' 0 52).toNat : ℚ) / 2 ^ 52
  let magnitude : ℚ :=
    if exponent = 0 then fraction * (2 : ℚ) ^ (-1022 : ℤ) else (1 + fraction) * (2 : ℚ) ^ ((exponent : ℤ) - 1023)
  if f.getLsbD 63 then -magnitude else magnitude

/-- A NaN or an infinity has every exponent bit set (R71). -/
def finite (f : Volt) : Prop := f.extractLsb' 52 11 ≠ 0x7FF#11

/-- `RHA(q) = sign(q) * floor(|q| + 1/2)` (R72). -/
def rha (q : ℚ) : ℤ := (SignType.sign q : ℤ) * ⌊|q| + 1 / 2⌋

/-- `RHA((16384 * v) / 5) + 32768` (R70). -/
def machineUnits (f : Volt) : ℤ := rha (16384 * volts f / 5) + 32768

/-- `VOLTAGE_TO_MU` accepts the voltage (R70, R71). -/
def accepted (f : Volt) : Prop := finite f ∧ 0 ≤ machineUnits f ∧ machineUnits f ≤ 65535

/-- The machine units in a slot of a list of voltages; machine-unit 0 where no voltage was supplied (R74,
R75). -/
def slot (fs : List Volt) (k : ℕ) : ℕ :=
  match fs[k]? with
  | some f => (machineUnits f).toNat
  | none => 0

/-- `count` GroupWords: the even slot in bits 15:0, the odd slot in bits 31:16 (R33, R56). -/
def slotWords (slots : ℕ → ℕ) (count : ℕ) : List Word :=
  (List.range count).map fun j => BitVec.ofNat 32 (slots (2 * j) + 65536 * slots (2 * j + 1))

/-- The GroupWords of a list of voltages under the default arithmetic. -/
def groupWords (fs : List Volt) (count : ℕ) : List Word := slotWords (slot fs) count

/-- The GroupWords of a list of samples; machine-unit 0 where there is none. -/
def sampleWords (mus : List Sample) (count : ℕ) : List Word := slotWords (fun k => (mus.getD k 0).toNat) count

/-- The voltages convert to the samples, under whatever arithmetic and rounding the block has (R5, R74). -/
def convertsTo (c : Config) (fs : List Volt) (mus : List Sample) : Prop :=
  List.Forall₂ (fun f mu => voltageToMu c f = .ok mu) fs mus

/-- The block takes the voltage, under whatever arithmetic and rounding it has. -/
def takes (c : Config) (f : Volt) : Prop := ∃ mu, voltageToMu c f = .ok mu

/-- The quantizer's parameters at their defaults (R5). -/
def defaultArith (c : Config) : Prop := c.voltArith = .exact ∧ c.rounding = .halfAway

/-- A write issued now is not earlier than the bus's current position (R164). -/
def onTime (s : State) : Prop := s.busPosition ≤ s.now

/-- The outcome `ok` on the result ports (R53, R130). -/
def succeeded (t : State) : Prop := t.ports.err = 0 ∧ t.ports.errInfo = 0

/-- The outcome `error(E, info)` on the result ports (R53, R130). -/
def failed (t : State) (code : BitVec 3) (info : BitVec 6) : Prop := t.ports.err = code ∧ t.ports.errInfo = info

/-- Nothing changes but the result ports, the event port, which carries no event, and the draws: the frame
of a unit function (R52) and of a command in error (R138). -/
def onlyReports (s t : State) : Prop :=
  t.config = s.config ∧ t.mirror = s.mirror ∧ t.trace = s.trace ∧ t.input = s.input ∧ t.now = s.now ∧
  t.busPosition = s.busPosition ∧ (∀ a, readWord t.regSpace a = readWord s.regSpace a) ∧
  t.device = s.device ∧ t.eventPort = []

/-- One narrow write of `word` to `addr`, which the device buffers as `w` until the next frame boundary, and
nothing else but the mirror, which the statements say (R30, R66). That the device only buffers it is R157's; for an
`UPDATE`, against R18's "immediate application", it is the model's reading (log entry 16). -/
def writesOne (s t : State) (addr : Address) (word : Word) (w : DeviceWrite) : Prop :=
  t.trace = s.trace ++ [.wn addr word] ∧
  (∃ free dur, t.eventPort = [{ evKind := 0b00, evAddr := addr, evN := 1, evData := word :: free, evDur := dur }]) ∧
  readWord t.regSpace addr.toNat = some word ∧
  (∀ a, a ≠ addr.toNat → readWord t.regSpace a = readWord s.regSpace a) ∧
  t.device = { s.device with buffer := s.device.buffer ++ [{ time := s.now, write := w }] } ∧
  t.config = s.config ∧ t.input = s.input ∧ t.now = s.now ∧ t.busPosition = s.busPosition ∧ succeeded t

/-- The event port's record of an event (R66). -/
def carries (p : EventPort) : Event → Prop
  | .wn addr word => p.evKind = 0b00 ∧ p.evAddr = addr ∧ p.evN = 1 ∧ p.evData[0]? = some word
  | .ww addr words =>
    p.evKind = 0b01 ∧ p.evAddr = addr ∧ p.evN = BitVec.ofNat 5 words.length ∧ p.evData.take words.length = words
  | .dl dur => p.evKind = 0b10 ∧ p.evDur = dur

/-- The address of a device-wide register: `(GLOBAL_BASE << 8) | offset` (R39, R54). -/
def globalAt (c : Config) (offset : ℕ) : Address := BitVec.ofNat 24 (256 * c.globalBase.toNat + offset)

/-- The address of a channel's data register: `(channel << 8) | DATA_OFFSET` (R39, R54). -/
def dataAt (c : Config) (channel : Chan) : Address := BitVec.ofNat 24 (256 * channel.toNat + c.dataOffset.toNat)

/-- A group whose first channel is a multiple of `WIDTH` (R34, R81). -/
def alignedFirst (c : Config) (first : Chan) : Prop := first.toNat % 2 ^ c.log2Width.val = 0

/-- `NWORDS = max(1, WIDTH / 2)` (R75). -/
def nwords (c : Config) : ℕ := max 1 (2 ^ c.log2Width.val / 2)

/-- One wide write of `words` to the group that starts at `chan`, which the device buffers until the next frame
boundary, and no other change but the result ports (R30, R31, R66). Word `j` stands at address + `j`: the reading of
D23 (log entry 28). -/
def writesGroup (s t : State) (chan : Chan) (words : List Word) : Prop :=
  succeeded t ∧ t.mirror = s.mirror ∧ t.trace = s.trace ++ [.ww (dataAt s.config chan) words] ∧
  (∃ p, t.eventPort = [p] ∧ carries p (.ww (dataAt s.config chan) words)) ∧
  (∀ j < words.length, readWord t.regSpace ((dataAt s.config chan).toNat + j) = words[j]?) ∧
  (∀ a, (a < (dataAt s.config chan).toNat ∨ (dataAt s.config chan).toNat + words.length ≤ a) →
    readWord t.regSpace a = readWord s.regSpace a) ∧
  t.device = { s.device with buffer := s.device.buffer ++ [{ time := s.now, write := .group chan words }] } ∧
  t.config = s.config ∧ t.input = s.input ∧ t.now = s.now ∧ t.busPosition = s.busPosition

/-- The exponent and the mantissa of step 2 of `CIC_QUANTIZE`: the least number of halvings that brings the
rate to at most 64 (R90). -/
def cicShift (rate e m : ℕ) : Prop := m = rate / 2 ^ e ∧ m ≤ 64 ∧ ∀ e' < e, 64 < rate / 2 ^ e'

/-- The least `g` with `2^g >= m^3` (R90, step 4). -/
def cicGain (m g : ℕ) : Prop := m ^ 3 ≤ 2 ^ g ∧ ∀ g' < g, 2 ^ g' < m ^ 3

/-- `GE0` of the mantissas 1 to 64 (R91). -/
def gainTable : List ℕ :=
  [0, 3, 5, 6, 7, 8, 9, 9, 10, 10, 11, 11, 12, 12, 12, 12, 13, 13, 13, 13, 14, 14, 14, 14, 14, 15, 15, 15, 15, 15,
   15, 15, 16, 16, 16, 16, 16, 16, 16, 16, 17, 17, 17, 17, 17, 17, 17, 17, 17, 17, 18, 18, 18, 18, 18, 18, 18, 18,
   18, 18, 18, 18, 18, 18]

/-- The fields of a config word: bits 5:0, 9:6 and 15:10 (R23, R57). -/
def configOf (word : BitVec 16) : CicConfig where
  rateMantissa := word.extractLsb' 0 6
  rateExponent := word.extractLsb' 6 4
  gainExponent := word.extractLsb' 10 6

/-- Every parameter with a default at its default (R5). -/
def standardConfig (c : Config) : Prop := c = Config.standard c.log2Width

/-- An event that R39, R34, R35 and R63 allow under the default parameters: a narrow data write to a
channel's page at offset 0 with bits 31:16 zero; a wide write of `NWORDS` words to an aligned first channel's
page at offset 0; a narrow write to one of the seven device-wide registers with the unused bits zero; any
delay. -/
def legalEvent (c : Config) : Event → Prop
  | .wn addr word =>
    (∃ channel < 32, addr.toNat = 256 * channel ∧ word.toNat < 2 ^ 16) ∨
    (addr = 0x000020 ∨ addr = 0x000021 ∨ addr = 0x000025 ∨ addr = 0x000027) ∨
    (addr = 0x000022 ∧ word.toNat < 2 ^ 4) ∨
    (addr = 0x000023 ∧ word.toNat < 2 ^ 8) ∨
    (addr = 0x000026 ∧ word.toNat < 2 ^ 16)
  | .ww addr words =>
    ∃ first < 32, addr.toNat = 256 * first ∧ first % 2 ^ c.log2Width.val = 0 ∧ words.length = nwords c
  | .dl _ => True

/-- INVARIANT of a block with the default parameters: every event of the trace is one R39 allows. -/
def traceLegal (s : State) : Prop := standardConfig s.config ∧ ∀ e ∈ s.trace, legalEvent s.config e

/-- INVARIANT: the mirror is the device's level registers once the writes delivered to it have taken effect
(R14: it "mirrors physical register state"). -/
def mirrorTracksDevice (s : State) : Prop :=
  s.config.initSeq = .standard ∧ s.mirror = landLevels s.device.buffer s.device.levels

/-- The sum of the delays of an event list, in ns (R12). -/
def totalDelay : List Event → ℕ
  | [] => 0
  | .dl dur :: es => dur.toNat + totalDelay es
  | .wn _ _ :: es => totalDelay es
  | .ww _ _ :: es => totalDelay es

/-- The word that an event list last writes to an address, starting from `before`: a burst's word `i` goes
to `addr + i` (R31, R40). -/
def lastWord (a : ℕ) (before : Option Word) : List Event → Option Word
  | [] => before
  | .wn addr word :: es => lastWord a (if addr.toNat = a then some word else before) es
  | .ww addr words :: es =>
    lastWord a (if addr.toNat ≤ a ∧ a < addr.toNat + words.length then words[a - addr.toNat]? else before) es
  | .dl _ :: es => lastWord a before es

/-- INVARIANT: `now` counts the trace's delays (R12), and the register space holds at each address the last
word the trace writes there (R40 (c)). -/
def traceExplainsState (s : State) : Prop :=
  s.now = totalDelay s.trace ∧ (∀ a, readWord s.regSpace a = lastWord a none s.trace) ∧
  ∀ e ∈ s.trace, ∀ addr words, e = .ww addr words → addr.toNat + words.length ≤ 2 ^ 24

/-- The fourteen events of `INITIALIZE` (R110); with the default `GLOBAL_BASE` each address is the offset itself. -/
def initTrace (c : Config) : List Event :=
  [.wn (globalAt c 0x22) 0x00000008, .dl 392, .wn (globalAt c 0x22) 0x00000000, .dl 392,
   .wn (globalAt c 0x25) 0x00000000, .dl 392, .wn (globalAt c 0x21) 0x00000000, .dl 392,
   .wn (globalAt c 0x26) 0x00000000, .dl 392, .wn (globalAt c 0x27) 0xFFFFFFFF, .dl 392,
   .wn (globalAt c 0x23) 0x00000000, .dl 392]

/-- The mirror of R28. -/
def initialised : LevelRegs where
  holdMask       := some 0x00000000
  continuousMask := some 0x00000000
  cfg            := some { reset := false, afePowerDown := false, dacClr := false, clrErr := false }
  stagedCic      := some { rateMantissa := 0, rateExponent := 0, gainExponent := 0 }
  leds           := some 0x00

/-- The fourteen commands of R65 and R110. -/
def initCommands : List Instr :=
  [.setCfg false false false true, .delay 392, .setCfg false false false false, .delay 392,
   .setContinuous 0, .delay 392, .setHold 0, .delay 392, .stageCic 1, .delay 392,
   .applyCic 0xFFFFFFFF, .delay 392, .setLeds 0, .delay 392]

/-- The device's cfg register is known and none of `reset`, `afe_power_down`, `dac_clr` is 1 (I14). -/
def outputsLive (d : Device) : Prop := ∃ v, d.levels.cfg = some v ∧ v.reset = false ∧ v.afePowerDown = false ∧ v.dacClr = false

/-- A config whose exponents `CIC_QUANTIZE` can produce (R92 (c), I18). -/
def possible (cic : CicConfig) : Prop := cic.rateExponent.toNat ≤ 10 ∧ cic.gainExponent.toNat ≤ 48

/-- A device channel with the interpolator at rate 1 (R94). -/
def unityChannel (d : Device) (ch : ℕ) (x : Channel) : Prop :=
  d.channels[ch]? = some x ∧ ∃ cic, x.cic = some cic ∧ possible cic ∧ actualRate cic = 1

end Sys2Proof.Claims

open Sys2Proof Sys2Proof.Machine Sys2Proof.Claims

/-! ### Decoding -/

/-- R52: the seventeen command codes and the ports each format reads. -/
def Obligations.DecodesByCommandCode : Prop :=
  ∀ r : CommandRecord,
    (r.cmdOp = 0x00 → decode r = .ok (.setChannel r.chan (r.volt.getD 0 0))) ∧
    (r.cmdOp = 0x20 → decode r = .ok (.update r.mask)) ∧
    (r.cmdOp = 0x21 → decode r = .ok (.setHold r.mask)) ∧
    (r.cmdOp = 0x22 → decode r = .ok (.setCfg (r.cfgbits.getLsbD 0) (r.cfgbits.getLsbD 1) (r.cfgbits.getLsbD 2)
      (r.cfgbits.getLsbD 3))) ∧
    (r.cmdOp = 0x23 → decode r = .ok (.setLeds r.led)) ∧
    (r.cmdOp = 0x25 → decode r = .ok (.setContinuous r.mask)) ∧
    (r.cmdOp = 0x26 → decode r = .ok (.stageCic r.rate)) ∧
    (r.cmdOp = 0x27 → decode r = .ok (.applyCic r.mask)) ∧
    (r.cmdOp = 0x40 → decode r = .ok (.setGroup r.chan r.nvolt
      ((List.range (min r.nvolt.toNat 32)).map fun k => r.volt.getD k 0))) ∧
    (r.cmdOp = 0x41 → decode r = .ok .initialise) ∧
    (r.cmdOp = 0x42 → decode r = .ok (.delay r.dur)) ∧
    (r.cmdOp = 0x60 → decode r = .ok (.voltageToMu (r.volt.getD 0 0))) ∧
    (r.cmdOp = 0x61 → decode r = .ok (.packGroup r.nvolt
      ((List.range (min r.nvolt.toNat 32)).map fun k => r.volt.getD k 0))) ∧
    (r.cmdOp = 0x62 → decode r = .ok (.encode r.chan r.offs)) ∧
    (r.cmdOp = 0x63 → decode r = .ok (.validateGroupAlignment r.chan r.l2w)) ∧
    (r.cmdOp = 0x64 → decode r = .ok (.cicQuantize r.rate)) ∧
    (r.cmdOp = 0x80 → decode r = .ok (.read r.addr))

/-- R60: every code that is not in the table is reserved, and only those. -/
def Obligations.DecoderRefusesExactlyReservedCodes : Prop :=
  ∀ r : CommandRecord,
    (decode r = .error (.illegalCommand r.cmdOp) ∨ ∃ i, decode r = .ok i ∧ opcode i = r.cmdOp) ∧
    ((∃ e, decode r = .error e) ↔
      r.cmdOp ∉ ([0x00, 0x20, 0x21, 0x22, 0x23, 0x25, 0x26, 0x27, 0x40, 0x41, 0x42, 0x60, 0x61, 0x62, 0x63,
        0x64, 0x80] : List (BitVec 8)))

/-- R52 in the opcode table's own numbering: each of the seventeen code words, with every operand port 0, is
decoded to its command, and the reserved code 0x24 to none. That the operand ports stand above the code is the model's
choice (log entry 9). -/
def Obligations.TableWordsDecode : Prop :=
  decodeTableWord 8 0x00 = some (.setChannel 0 0) ∧ decodeTableWord 8 0x20 = some (.update 0) ∧
  decodeTableWord 8 0x21 = some (.setHold 0) ∧ decodeTableWord 8 0x22 = some (.setCfg false false false false) ∧
  decodeTableWord 8 0x23 = some (.setLeds 0) ∧ decodeTableWord 8 0x25 = some (.setContinuous 0) ∧
  decodeTableWord 8 0x26 = some (.stageCic 0) ∧ decodeTableWord 8 0x27 = some (.applyCic 0) ∧
  decodeTableWord 8 0x40 = some (.setGroup 0 0 []) ∧ decodeTableWord 8 0x41 = some .initialise ∧
  decodeTableWord 8 0x42 = some (.delay 0) ∧ decodeTableWord 8 0x60 = some (.voltageToMu 0) ∧
  decodeTableWord 8 0x61 = some (.packGroup 0 []) ∧ decodeTableWord 8 0x62 = some (.encode 0 0) ∧
  decodeTableWord 8 0x63 = some (.validateGroupAlignment 0 0) ∧ decodeTableWord 8 0x64 = some (.cicQuantize 0) ∧
  decodeTableWord 8 0x80 = some (.read 0) ∧ decodeTableWord 8 0x24 = none

/-- What the decoder answers is a command of the block: its voltages are the ones `nvolt` names. -/
def Obligations.DecodedCommandsAreWellFormed : Prop :=
  ∀ (r : CommandRecord) (i : Instr), decode r = .ok i → i.wellFormed = true

/-- Decode and encode agree through the record's bits, for every command and every operand its ports admit.
The places of the operand ports are the model's choice (log entry 9). -/
def Obligations.DecodeOfEncodedBits : Prop :=
  ∀ i : Instr, i.wellFormed = true → decode (CommandRecord.ofBits (encode i).toBits) = .ok i

/-! ### The step -/

/-- The step accepts the next presented command, moves the bus by what the presentation says, and is `exec`
of the command the decoder reads. How commands and bus time are presented is the model's choice (log entries 5, 7). -/
def Obligations.StepRunsTheDecodedCommand : Prop :=
  ∀ (s : State) (p : Presented) (rest : List Presented) (i : Instr),
    s.input = p :: rest → decode p.record = .ok i →
    step s = exec i { s with input := rest, busPosition := s.busPosition + p.elapsed }

/-- R60, R146: a reserved code is refused by the decoder, fails with `IllegalCommand` (7), emits no event and
changes no state; the command is consumed. That the failure is a next state in which the record is consumed and the
bus has moved is the model's (log entries 5, 7, 33). -/
def Obligations.ReservedCodeFailsWithoutEffect : Prop :=
  ∀ (s : State) (p : Presented) (rest : List Presented),
    s.input = p :: rest →
    p.record.cmdOp ∉ ([0x00, 0x20, 0x21, 0x22, 0x23, 0x25, 0x26, 0x27, 0x40, 0x41, 0x42, 0x60, 0x61, 0x62, 0x63,
      0x64, 0x80] : List (BitVec 8)) →
    decode p.record = .error (.illegalCommand p.record.cmdOp) ∧
    ∃ t, step s = .next t ∧ failed t 7 0 ∧
      onlyReports { s with input := rest, busPosition := s.busPosition + p.elapsed } t

/-- For every command and every operand value the block's step is defined (spec/93_implementation_defined.md,
part 1): with the default parameters and the schedule ahead of the bus, every presented record ends in a next
state and is consumed. How commands and bus time are presented, and that the bus stands still within a command, is
the model's choice (log entries 5, 7); so is the next state of a reserved code (log entry 33). -/
def Obligations.StandardBlockAlwaysCompletes : Prop :=
  ∀ (s : State) (p : Presented) (rest : List Presented),
    standardConfig s.config → s.input = p :: rest → s.busPosition + p.elapsed ≤ s.now →
    ∃ t, step s = .next t ∧ t.input = rest

/-- R135, R164: the only stop of a block with the default parameters is the transport's timing underflow, and
only where the schedule is behind the bus when the command starts: that the bus stands still within a command,
`INITIALIZE` too, is the model's choice (log entry 7). -/
def Obligations.StandardBlockFaultsOnlyOnUnderflow : Prop :=
  ∀ (s : State) (i : Instr), standardConfig s.config → i.wellFormed = true →
    (∀ r, exec i s ≠ .refused r) ∧
    (∀ f, exec i s = .fault f → f = .timingUnderflow ∧ s.now < s.busPosition)

/-- R164: a write issued earlier than the bus's position is a timing-underflow fault, for every device command
that writes a register and raises no error. For a write that also has no register, which a `SET_GROUP` may emit under another
`DATA_OFFSET`, that it is this fault and not `noRegister` is the model's choice (log entry 35). -/
def Obligations.LateWritesUnderflow : Prop :=
  ∀ (s : State) (mask : Mask) (led : BitVec 8) (a b c d : Bool), s.now < s.busPosition →
    exec (.update mask) s = .fault .timingUnderflow ∧
    exec (.setHold mask) s = .fault .timingUnderflow ∧
    exec (.setContinuous mask) s = .fault .timingUnderflow ∧
    exec (.applyCic mask) s = .fault .timingUnderflow ∧
    exec (.setLeds led) s = .fault .timingUnderflow ∧
    exec (.setCfg a b c d) s = .fault .timingUnderflow ∧
    (∀ rate : BitVec 32, 1 ≤ rate.toInt → rate.toInt ≤ 65536 → exec (.stageCic rate) s = .fault .timingUnderflow) ∧
    (∀ chan f, takes s.config f → exec (.setChannel chan f) s = .fault .timingUnderflow) ∧
    (∀ chan (n : BitVec 6) fs, alignedFirst s.config chan → fs.length = n.toNat →
      n.toNat ≤ 2 ^ s.config.log2Width.val → (∀ f ∈ fs, takes s.config f) →
      exec (.setGroup chan n fs) s = .fault .timingUnderflow) ∧
    (s.config.initSeq = .standard → exec .initialise s = .fault .timingUnderflow)

/-- I3, R61: where the parameters let a write reach no register, the run faults at it (log entry 11). A group write whose words
would leave the data window 0x00 to 0x1F, and a custom `INIT_SEQ` that starts with a write to offset 0x24 or to an
offset from 0x28 on. -/
def Obligations.WritesWithoutRegisterFault : Prop :=
  (∀ (s : State) (chan : Chan) (n : BitVec 6) (fs : List Volt), onTime s → alignedFirst s.config chan →
    fs.length = n.toNat → n.toNat ≤ 2 ^ s.config.log2Width.val → (∀ f ∈ fs, takes s.config f) →
    32 < s.config.dataOffset.toNat + nwords s.config →
    exec (.setGroup chan n fs) s = .fault (.noRegister (dataAt s.config chan))) ∧
  ∀ (s : State) (addr : Address) (word : Word) (events : List Event), onTime s →
    s.config.initSeq = .custom (.wn addr word :: events) →
    (addr.toNat % 256 = 0x24 ∨ 0x28 ≤ addr.toNat % 256) →
    exec .initialise s = .fault (.noRegister addr)

/-! ### Reset and construction -/

/-- R27: right after construction with any configuration, of which reset is one, every field of the mirror is `⊥`
and the event trace is empty; the configuration is the one given. -/
def Obligations.ResetLeavesMirrorUnwritten : Prop :=
  (∀ c : Config,
    (State.fresh c).mirror.holdMask = none ∧ (State.fresh c).mirror.continuousMask = none ∧
    (State.fresh c).mirror.cfg = none ∧ (State.fresh c).mirror.stagedCic = none ∧
    (State.fresh c).mirror.leds = none ∧ (State.fresh c).trace = [] ∧ (State.fresh c).config = c) ∧
  ∃ c, State.reset = State.fresh c

/-- R29: no register of the device, no staged or applied sample and no address has a value before the first
write that sets it. That nothing waits in the frame double buffer is the model's choice (log entry 36). -/
def Obligations.ResetLeavesDeviceUnwritten : Prop :=
  State.reset.device.levels = LevelRegs.unwritten ∧ State.reset.device.buffer = [] ∧
  State.reset.device.channels.length = 32 ∧
  (∀ x ∈ State.reset.device.channels, x.staged = none ∧ x.applied = none ∧ x.cic = none ∧ x.settling = none) ∧
  State.reset.device.errorCount = none ∧ ∀ a, readWord State.reset.regSpace a = none

/-- R3, R134 (a) and (c), R150, R27: construction fails with PreconditionError unless `REF_PERIOD` is 1 ns and
`LOG2_WIDTH` is in 0..5; otherwise it yields a block of that width, with every other parameter at its default, whose
mirror is all `⊥` and which has emitted nothing. A reset of a running block leaves the mirror all `⊥` and the trace
empty, keeps the configuration, and resets neither the device nor the transport. The model's choices are that the two
are functions beside the step (D18, log entry 32), that no write waits in a new block's device (log entry 36), and that
the event port is empty before the first command (log entry 3). -/
def Obligations.ConstructionChecksItsParameters : Prop :=
  (∀ log2Width refPeriod : ℕ,
    (¬(refPeriod = 1 ∧ log2Width ≤ 5) → construct log2Width refPeriod = .error .preconditionError) ∧
    (refPeriod = 1 ∧ log2Width ≤ 5 → ∃ s, construct log2Width refPeriod = .ok s ∧
      s.config.log2Width.val = log2Width ∧ standardConfig s.config ∧ s.mirror = LevelRegs.unwritten ∧
      s.trace = [] ∧ s.device = Device.unwritten)) ∧
  ∀ s : State, s.blockReset.mirror = LevelRegs.unwritten ∧ s.blockReset.trace = [] ∧
    s.blockReset.eventPort = [] ∧ s.blockReset.config = s.config ∧ s.blockReset.device = s.device ∧
    s.blockReset.regSpace = s.regSpace ∧ s.blockReset.now = s.now ∧ s.blockReset.busPosition = s.busPosition ∧
    s.blockReset.input = s.input

/-! ### VoltageCodec -/

/-- R70, R71, R72: the sample of an accepted voltage, RangeError for every other datum; in both cases nothing
else changes. First for the default arithmetic, with the sample the rule gives; then for every arithmetic and rounding
that a block may have, with the sample its conversion gives, or RangeError where it gives none. -/
def Obligations.VoltageToMuConverts : Prop :=
  (∀ f, opcode (.voltageToMu f) = 0x60) ∧
  (∀ (c : Config) (f : Volt), defaultArith c →
    (accepted f → ∃ mu, voltageToMu c f = .ok mu ∧ (mu.toNat : ℤ) = machineUnits f) ∧
    (¬accepted f → voltageToMu c f = .error (.rangeError 0))) ∧
  (∀ (s : State) (f : Volt), defaultArith s.config →
    (accepted f → ∃ t, exec (.voltageToMu f) s = .next t ∧ succeeded t ∧ onlyReports s t ∧
      (t.ports.resMu.toNat : ℤ) = machineUnits f) ∧
    (¬accepted f → ∃ t, exec (.voltageToMu f) s = .next t ∧ failed t 1 0 ∧ onlyReports s t)) ∧
  ∀ (s : State) (f : Volt),
    (∀ mu, voltageToMu s.config f = .ok mu → ∃ t, exec (.voltageToMu f) s = .next t ∧ succeeded t ∧
      onlyReports s t ∧ t.ports.resMu = mu) ∧
    (¬takes s.config f → ∃ t, exec (.voltageToMu f) s = .next t ∧ failed t 1 0 ∧ onlyReports s t)

/-- R70 corner case (a): the accepted voltages are exactly the finite ones strictly between -327685/32768 V
and 327675/32768 V. -/
def Obligations.AcceptedVoltageInterval : Prop :=
  ∀ (c : Config) (f : Volt), defaultArith c →
    ((∃ mu, voltageToMu c f = .ok mu) ↔ finite f ∧ -327685 / 32768 < volts f ∧ volts f < 327675 / 32768)

/-- R70 corner case (e): the conversion is monotonic non-decreasing. -/
def Obligations.VoltageToMuMonotone : Prop :=
  ∀ (c : Config) (f g : Volt) (mu nu : Sample), defaultArith c →
    voltageToMu c f = .ok mu → voltageToMu c g = .ok nu → volts f ≤ volts g → mu.toNat ≤ nu.toNat

/-- R73: a sample's nominal voltage `(mu - 32768) / 3276.8` is within half a machine unit of the voltage. -/
def Obligations.NominalVoltageWithinHalfUnit : Prop :=
  ∀ (c : Config) (f : Volt) (mu : Sample), defaultArith c → voltageToMu c f = .ok mu →
    |volts f - ((mu.toNat : ℚ) - 32768) / (16384 / 5)| ≤ (1 / 2) / (16384 / 5)

/-- The other value of the parameter `ROUND` (R5, D4, C1): with ties to even, the sample of an accepted voltage is
within half a machine unit of `3276.8 * v + 32768`, and even where that is a tie. What this value
of `ROUND` computes is only named in D4 and C1 and is the model's (PRESUMED, log entry 13). -/
def Obligations.HalfEvenRoundsTiesToEven : Prop :=
  ∀ (c : Config) (f : Volt) (mu : Sample), c.voltArith = .exact → c.rounding = .halfEven →
    voltageToMu c f = .ok mu →
    |16384 * volts f / 5 + 32768 - (mu.toNat : ℚ)| ≤ 1 / 2 ∧
    (|16384 * volts f / 5 + 32768 - (mu.toNat : ℚ)| = 1 / 2 → mu.toNat % 2 = 0)

/-- R74: `PACK_GROUP` returns `ceil(nvolt / 2)` GroupWords, the even index in the low half, machine-unit 0 in the
upper half of an unpaired last word; more than 32 voltages are a PreconditionError before any conversion, and the
lowest index whose voltage is rejected is the RangeError's. For every arithmetic and rounding, and with the rule's
samples under the default ones. -/
def Obligations.PackGroupPacksOrRejects : Prop :=
  (∀ n fs, opcode (.packGroup n fs) = 0x61) ∧
  ∀ (s : State) (n : BitVec 6) (fs : List Volt), fs.length = min n.toNat 32 →
    (∀ mus, n.toNat ≤ 32 → convertsTo s.config fs mus →
      ∃ t, exec (.packGroup n fs) s = .next t ∧ succeeded t ∧ onlyReports s t ∧
        t.ports.resNwords.toNat = (n.toNat + 1) / 2 ∧ t.ports.resWords.length = 16 ∧
        t.ports.resWords.take ((n.toNat + 1) / 2) = sampleWords mus ((n.toNat + 1) / 2)) ∧
    (defaultArith s.config → n.toNat ≤ 32 → (∀ f ∈ fs, accepted f) →
      ∃ t, exec (.packGroup n fs) s = .next t ∧ succeeded t ∧ onlyReports s t ∧
        t.ports.resNwords.toNat = (n.toNat + 1) / 2 ∧ t.ports.resWords.length = 16 ∧
        t.ports.resWords.take ((n.toNat + 1) / 2) = groupWords fs ((n.toNat + 1) / 2)) ∧
    (32 < n.toNat → ∃ t, exec (.packGroup n fs) s = .next t ∧ failed t 4 0 ∧ onlyReports s t) ∧
    (n.toNat ≤ 32 → ∀ k f, fs[k]? = some f → ¬takes s.config f →
      (∀ j < k, ∀ g, fs[j]? = some g → takes s.config g) →
      ∃ t, exec (.packGroup n fs) s = .next t ∧ failed t 1 (BitVec.ofNat 6 k) ∧ onlyReports s t)

/-! ### AddressEncoder -/

/-- R80: `ENCODE` returns `(channel_base << 8) | register_offset`, for every offset. -/
def Obligations.EncodeComposesAddress : Prop :=
  (∀ chan offs, opcode (.encode chan offs) = 0x62) ∧
  ∀ (s : State) (chan : Chan) (offs : BitVec 8),
    ∃ t, exec (.encode chan offs) s = .next t ∧ succeeded t ∧ onlyReports s t ∧
      t.ports.resAddr = (chan.setWidth 24 <<< 8) ||| offs.setWidth 24 ∧
      t.ports.resAddr.toNat = 256 * chan.toNat + offs.toNat

/-- R80 corner case (b): different operands give different addresses. -/
def Obligations.EncodeInjective : Prop :=
  ∀ (base base' : Chan) (off off' : BitVec 8),
    encodeAddress base off = encodeAddress base' off' → base = base' ∧ off = off'

/-- R81: `l2w` above 5 is a PreconditionError; otherwise the command succeeds exactly when the low `l2w` bits
of the first channel are zero, and is an AlignmentError when they are not. -/
def Obligations.ValidateChecksAlignment : Prop :=
  (∀ chan l2w, opcode (.validateGroupAlignment chan l2w) = 0x63) ∧
  ∀ (s : State) (chan : Chan) (l2w : BitVec 3),
    (5 < l2w.toNat → ∃ t, exec (.validateGroupAlignment chan l2w) s = .next t ∧ failed t 4 0 ∧ onlyReports s t) ∧
    (l2w.toNat ≤ 5 → chan.toNat &&& (2 ^ l2w.toNat - 1) = 0 →
      ∃ t, exec (.validateGroupAlignment chan l2w) s = .next t ∧ succeeded t ∧ onlyReports s t) ∧
    (l2w.toNat ≤ 5 → chan.toNat &&& (2 ^ l2w.toNat - 1) ≠ 0 →
      ∃ t, exec (.validateGroupAlignment chan l2w) s = .next t ∧ failed t 2 0 ∧ onlyReports s t)

/-- R82: the first channels that pass are the multiples of the width; their groups are disjoint, cover the
channels 0 to 31, and never run past channel 31; a group write has 1, 1, 2, 4, 8 or 16 words. -/
def Obligations.AlignedGroupsPartitionChannels : Prop :=
  (∀ l2w ≤ 5, (∀ first : Chan, validateGroupAlignment first l2w = .ok () ↔ 2 ^ l2w ∣ first.toNat) ∧
    ∀ channel < 32, ∃ first : Chan,
      validateGroupAlignment first l2w = .ok () ∧ first.toNat ≤ channel ∧ channel < first.toNat + 2 ^ l2w ∧
      first.toNat + 2 ^ l2w ≤ 32 ∧
      ∀ other : Chan, validateGroupAlignment other l2w = .ok () → other.toNat ≤ channel →
        channel < other.toNat + 2 ^ l2w → other = first) ∧
  ∀ c : Config, ([1, 1, 2, 4, 8, 16] : List ℕ)[c.log2Width.val]? = some (Machine.groupWords c)

/-! ### CICStager -/

/-- R90: for a rate in 1..65536 the config word and the achieved rate of steps 2 to 7; RangeError for every
other rate; nothing else changes. -/
def Obligations.CicQuantizeApproximatesRate : Prop :=
  (∀ rate, opcode (.cicQuantize rate) = 0x64) ∧
  ∀ (s : State) (rate : BitVec 32),
    (1 ≤ rate.toInt → rate.toInt ≤ 65536 → ∃ t m e g,
      exec (.cicQuantize rate) s = .next t ∧ succeeded t ∧ onlyReports s t ∧
      cicShift rate.toNat e m ∧ cicGain m g ∧
      t.ports.resCic.toNat = (m - 1) + 64 * e + 1024 * (g + 3 * e) ∧ t.ports.resRate.toNat = m * 2 ^ e) ∧
    (rate.toInt ≤ 0 ∨ 65536 < rate.toInt → ∃ t,
      exec (.cicQuantize rate) s = .next t ∧ failed t 1 0 ∧ onlyReports s t)

/-- R92 (a) to (h): the achieved rate never overshoots and is more than half, and more than 32/33, of the request,
with the worst case at 33791; the gain exponent is at most 48; powers of two are exact with gain exponent `3k`, and
end at mantissa `2^k` up to 64; the overall gain lies in (0.5, 1]; the exponent is at most 10, the stored mantissa at
most 63, and the word fits 16 bits. -/
def Obligations.CicResultProperties : Prop :=
  ∀ rate : ℕ, 1 ≤ rate → rate ≤ 65536 →
    ∃ r, cicQuantize (rate : ℤ) = .ok r ∧
      r.achieved ≤ rate ∧ rate < 2 * r.achieved ∧ r.gainExponent ≤ 48 ∧
      (∀ k ≤ 16, rate = 2 ^ k → r.achieved = 2 ^ k ∧ r.gainExponent = 3 * k ∧
        r.rateMantissa + 1 = if k ≤ 6 then 2 ^ k else 64) ∧
      (r.rateMantissa + 1) ^ 3 * 2 ^ (3 * r.rateExponent) ≤ 2 ^ r.gainExponent ∧
      2 ^ r.gainExponent < 2 * ((r.rateMantissa + 1) ^ 3 * 2 ^ (3 * r.rateExponent)) ∧
      r.achieved = (rate >>> r.rateExponent) <<< r.rateExponent ∧ rate - r.achieved < 2 ^ r.rateExponent ∧
      32 * rate < 33 * r.achieved ∧ 32768 * rate ≤ 33791 * r.achieved ∧ (rate = 33791 → r.achieved = 32768) ∧
      r.rateExponent ≤ 10 ∧ r.rateMantissa ≤ 63 ∧
      r.rateMantissa + 64 * r.rateExponent + 1024 * r.gainExponent < 2 ^ 16

/-- R91: the exponent's bands, none up to 64 and `e >= 1` exactly for `65 * 2^(e-1) .. 65 * 2^e - 1`; and the gain
exponent is the table's entry for the working mantissa plus `3 * exponent`. -/
def Obligations.CicTablesMatch : Prop :=
  ∀ (rate : ℕ) (r : CicResult), 1 ≤ rate → rate ≤ 65536 → cicQuantize (rate : ℤ) = .ok r →
    (r.rateExponent = 0 ↔ rate ≤ 64) ∧
    (∀ e, 1 ≤ e → (r.rateExponent = e ↔ 65 * 2 ^ (e - 1) ≤ rate ∧ rate < 65 * 2 ^ e)) ∧
    ∃ g, gainTable[r.rateMantissa]? = some g ∧ r.gainExponent = g + 3 * r.rateExponent

/-- R94: the rate that a config word produced by `CIC_QUANTIZE` stands for, `(word[5:0] + 1) << word[9:6]`, is the
achieved rate, and `word[15:10]` is the gain exponent. -/
def Obligations.StagedWordDecodesToAchievedRate : Prop :=
  ∀ (rate : ℤ) (r : CicResult), cicQuantize rate = .ok r →
    actualRate (cicFields (cicWord r)) = r.achieved ∧
    ((cicWord r).toNat % 64 + 1) * 2 ^ ((cicWord r).toNat / 64 % 16) = r.achieved ∧
    (cicWord r).toNat / 1024 = r.gainExponent

/-! ### Device commands -/

/-- R100: `SET_CHANNEL` writes a voltage's sample, zero-extended, to the channel's data register and nothing else;
it raises RangeError without effect for a datum that does not convert. For every arithmetic and rounding, and with the
rule's sample under the default ones. -/
def Obligations.SetChannelWritesSample : Prop :=
  (∀ chan f, opcode (.setChannel chan f) = 0x00) ∧
  ∀ (s : State) (chan : Chan) (f : Volt),
    (∀ mu, voltageToMu s.config f = .ok mu → onTime s → ∃ t, exec (.setChannel chan f) s = .next t ∧
      t.mirror = s.mirror ∧ writesOne s t (dataAt s.config chan) (mu.setWidth 32) (.data chan (mu.setWidth 32))) ∧
    (defaultArith s.config → accepted f → onTime s → ∃ t, exec (.setChannel chan f) s = .next t ∧
      t.mirror = s.mirror ∧ writesOne s t (dataAt s.config chan) (BitVec.ofInt 32 (machineUnits f))
        (.data chan (BitVec.ofInt 32 (machineUnits f)))) ∧
    (¬takes s.config f → ∃ t, exec (.setChannel chan f) s = .next t ∧ failed t 1 0 ∧ onlyReports s t)

/-- R101: `SET_GROUP` writes `NWORDS` GroupWords in one wide write that starts at the first channel's data
register, with machine-unit 0 in every slot without a voltage; nothing else changes. Its errors come in the order of
their tests: AlignmentError, then PreconditionError for more than `WIDTH` voltages, then RangeError at the lowest
rejected index; then nothing is emitted. For every arithmetic and rounding, and with the rule's samples under the
default ones. That word `j` stands at address + `j` is the reading of D23, not R101's (log entry 28). -/
def Obligations.SetGroupWritesOrRejects : Prop :=
  (∀ chan n fs, opcode (.setGroup chan n fs) = 0x40) ∧
  ∀ (s : State) (chan : Chan) (n : BitVec 6) (fs : List Volt), fs.length = min n.toNat 32 →
    (∀ mus, onTime s → alignedFirst s.config chan → n.toNat ≤ 2 ^ s.config.log2Width.val →
      convertsTo s.config fs mus → s.config.dataOffset.toNat + nwords s.config ≤ 32 →
      ∃ t, exec (.setGroup chan n fs) s = .next t ∧ writesGroup s t chan (sampleWords mus (nwords s.config))) ∧
    (defaultArith s.config → onTime s → alignedFirst s.config chan → n.toNat ≤ 2 ^ s.config.log2Width.val →
      (∀ f ∈ fs, accepted f) → s.config.dataOffset.toNat + nwords s.config ≤ 32 →
      ∃ t, exec (.setGroup chan n fs) s = .next t ∧ writesGroup s t chan (groupWords fs (nwords s.config))) ∧
    (¬alignedFirst s.config chan → ∃ t, exec (.setGroup chan n fs) s = .next t ∧ failed t 2 0 ∧ onlyReports s t) ∧
    (alignedFirst s.config chan → 2 ^ s.config.log2Width.val < n.toNat →
      ∃ t, exec (.setGroup chan n fs) s = .next t ∧ failed t 4 0 ∧ onlyReports s t) ∧
    (alignedFirst s.config chan → n.toNat ≤ 2 ^ s.config.log2Width.val →
      ∀ k f, fs[k]? = some f → ¬takes s.config f → (∀ j < k, ∀ g, fs[j]? = some g → takes s.config g) →
      ∃ t, exec (.setGroup chan n fs) s = .next t ∧ failed t 1 (BitVec.ofNat 6 k) ∧ onlyReports s t)

/-- R102, R108, R16: `UPDATE` and `APPLY_CIC` write their mask and leave the mirror as it is. That an `UPDATE` waits in
the device until the next frame boundary and leaves every applied sample as it was till then is the model's reading of
R18's "immediate application" (log entry 16). -/
def Obligations.UpdateAndApplyWriteTheirMask : Prop :=
  ∀ (s : State) (mask : Mask), onTime s →
    (∃ t, exec (.update mask) s = .next t ∧ t.mirror = s.mirror ∧
      writesOne s t (globalAt s.config 0x20) mask (.update mask)) ∧
    (∃ t, exec (.applyCic mask) s = .next t ∧ t.mirror = s.mirror ∧
      writesOne s t (globalAt s.config 0x27) mask (.applyCic mask))

/-- R103, R104: `SET_HOLD` and `SET_CONTINUOUS` write their mask and set their own mirror field only. -/
def Obligations.LevelMasksAreWrittenAndMirrored : Prop :=
  ∀ (s : State) (mask : Mask), onTime s →
    (∃ t, exec (.setHold mask) s = .next t ∧ t.mirror = { s.mirror with holdMask := some mask } ∧
      writesOne s t (globalAt s.config 0x21) mask (.hold mask)) ∧
    (∃ t, exec (.setContinuous mask) s = .next t ∧ t.mirror = { s.mirror with continuousMask := some mask } ∧
      writesOne s t (globalAt s.config 0x25) mask (.continuous mask))

/-- R105: `SET_LEDS` writes its operand with bits 31:8 zero and sets `S.leds` only. -/
def Obligations.SetLedsWritesAndMirrors : Prop :=
  (∀ led, opcode (.setLeds led) = 0x23) ∧
  ∀ (s : State) (led : BitVec 8), onTime s →
    ∃ t, exec (.setLeds led) s = .next t ∧ t.mirror = { s.mirror with leds := some led } ∧
      writesOne s t (globalAt s.config 0x23) (BitVec.ofNat 32 led.toNat) (.leds led)

/-- R106, R58: `SET_CFG` writes `reset | afe_power_down << 1 | dac_clr << 2 | clr_err << 3` and sets `S.cfg`
only. -/
def Obligations.SetCfgWritesAndMirrors : Prop :=
  (∀ a b c d, opcode (.setCfg a b c d) = 0x22) ∧
  ∀ (s : State) (reset afePowerDown dacClr clrErr : Bool), onTime s →
    ∃ t, exec (.setCfg reset afePowerDown dacClr clrErr) s = .next t ∧
      t.mirror = { s.mirror with cfg := some ⟨reset, afePowerDown, dacClr, clrErr⟩ } ∧
      writesOne s t (globalAt s.config 0x22)
        (BitVec.ofNat 32 (reset.toNat + 2 * afePowerDown.toNat + 4 * dacClr.toNat + 8 * clrErr.toNat))
        (.cfg ⟨reset, afePowerDown, dacClr, clrErr⟩)

/-- R107: `STAGE_CIC` writes the config word that `CIC_QUANTIZE` returns, sets `S.staged_cic` to its fields,
and returns the word and the achieved rate; a rate out of range is a RangeError without effect. -/
def Obligations.StageCicWritesMirrorsAndReturns : Prop :=
  (∀ rate, opcode (.stageCic rate) = 0x26) ∧
  ∀ (s : State) (rate : BitVec 32),
    (1 ≤ rate.toInt → rate.toInt ≤ 65536 → onTime s → ∃ t m e g, ∃ word : BitVec 16,
      exec (.stageCic rate) s = .next t ∧ cicShift rate.toNat e m ∧ cicGain m g ∧
      word.toNat = (m - 1) + 64 * e + 1024 * (g + 3 * e) ∧
      t.ports.resCic = word ∧ t.ports.resRate.toNat = m * 2 ^ e ∧
      t.mirror = { s.mirror with stagedCic := some (configOf word) } ∧
      writesOne s t (globalAt s.config 0x26) (word.setWidth 32) (.stageCic (configOf word))) ∧
    (rate.toInt ≤ 0 ∨ 65536 < rate.toInt → ∃ t,
      exec (.stageCic rate) s = .next t ∧ failed t 1 0 ∧ onlyReports s t)

/-- R109, R12: `DELAY` advances the schedule position by its operand, emits the one event `DL(dur)`, and
changes no mirror field and no address; the event port carries one record of kind `0b10` with the duration (R66).
It completes whatever the bus's position. -/
def Obligations.DelayAdvancesSchedule : Prop :=
  (∀ dur, opcode (.delay dur) = 0x42) ∧
  ∀ (s : State) (dur : Duration),
    ∃ t, exec (.delay dur) s = .next t ∧ succeeded t ∧ t.now = s.now + dur.toNat ∧
      t.trace = s.trace ++ [.dl dur] ∧ (∃ p, t.eventPort = [p] ∧ p.evKind = 0b10 ∧ p.evDur = dur) ∧
      t.mirror = s.mirror ∧ t.config = s.config ∧ t.input = s.input ∧ t.busPosition = s.busPosition ∧
      (∀ a, readWord t.regSpace a = readWord s.regSpace a) ∧
      (dur = 0 → t.device = s.device)

/-- R110, R28: `INITIALIZE` issues the configured event list and sets all five mirror fields; with the standard
list it emits the fourteen events, takes 2744 ns of schedule time, and writes no register but 0x21, 0x22, 0x23, 0x25,
0x26 and 0x27 of the page `GLOBAL_BASE`; the event port carries its events in order (R66). That a custom list still
leaves the mirror of R28 is the model's choice (log entry 12); that the whole sequence completes where it starts on
time rests on the model's bus (log entry 7). -/
def Obligations.InitializeEmitsItsSequence : Prop :=
  (opcode .initialise = 0x41) ∧
  (∀ s t events, s.config.initSeq = .custom events → exec .initialise s = .next t →
    t.trace = s.trace ++ events ∧ t.mirror = initialised ∧ succeeded t ∧ List.Forall₂ carries t.eventPort events) ∧
  ∀ s : State, s.config.initSeq = .standard → onTime s →
    ∃ t, exec .initialise s = .next t ∧ succeeded t ∧ t.trace = s.trace ++ initTrace s.config ∧
      t.mirror = initialised ∧ t.now = s.now + 2744 ∧ t.eventPort.length = 14 ∧
      List.Forall₂ carries t.eventPort (initTrace s.config) ∧ t.config = s.config ∧ t.input = s.input ∧
      t.busPosition = s.busPosition ∧
      (∀ offset ∈ [0x21, 0x22, 0x23, 0x25, 0x26], readWord t.regSpace (globalAt s.config offset).toNat = some 0) ∧
      readWord t.regSpace (globalAt s.config 0x27).toNat = some 0xFFFFFFFF ∧
      ∀ a, (∀ offset ∈ [0x21, 0x22, 0x23, 0x25, 0x26, 0x27], a ≠ (globalAt s.config offset).toNat) →
        readWord t.regSpace a = readWord s.regSpace a

/-- R111, R133: `READ` fails with UnsupportedOperation (3) for every address, and changes nothing. -/
def Obligations.ReadIsUnsupported : Prop :=
  (∀ addr, opcode (.read addr) = 0x80) ∧
  ∀ (s : State) (addr : Address), ∃ t, exec (.read addr) s = .next t ∧ failed t 3 0 ∧ onlyReports s t

/-- R65: `INITIALIZE` leaves the mirror, the trace, the schedule position and the register space that its
fourteen commands would leave one after the other. That both complete, with the bus standing still meanwhile, rests on
the model's bus (log entry 7). -/
def Obligations.InitializeIsItsFourteenCommands : Prop :=
  ∀ s : State, s.config.initSeq = .standard → onTime s →
    ∃ t u, exec .initialise s = .next t ∧ execAll initCommands s = .next u ∧
      t.mirror = u.mirror ∧ t.trace = u.trace ∧ t.now = u.now ∧
      ∀ a, readWord t.regSpace a = readWord u.regSpace a

/-! ### Errors, and what no command does -/

/-- R52: the five unit functions complete on every operand, emit no event and change no state. -/
def Obligations.UnitFunctionsAreQueries : Prop :=
  ∀ (s : State) (f : Volt) (n : BitVec 6) (fs : List Volt) (chan : Chan) (offs : BitVec 8) (l2w : BitVec 3)
    (rate : BitVec 32),
    ∀ i ∈ [Instr.voltageToMu f, .packGroup n fs, .encode chan offs, .validateGroupAlignment chan l2w,
      .cicQuantize rate], ∃ t, exec i s = .next t ∧ onlyReports s t

/-- R138: a command that reports an error emits no event and leaves the mirror, and everything else but the
ports, exactly as it was. -/
def Obligations.ErrorsLeaveNothingBehind : Prop :=
  ∀ (i : Instr) (s t : State), exec i s = .next t → t.ports.err ≠ 0 → onlyReports s t

/-- R139: after an error the block accepts the next command as if the failed one had not been issued; and the same
command with the same operands fails again. -/
def Obligations.NextCommandAfterErrorIsUnaffected : Prop :=
  (∀ (s t u : State), step s = .next t → s.input ≠ [] → t.ports.err ≠ 0 → step t = .next u →
    ∃ v, step { s with input := t.input, busPosition := t.busPosition } = .next v ∧
      u.mirror = v.mirror ∧ u.trace = v.trace ∧ u.now = v.now ∧ u.regSpace = v.regSpace ∧ u.input = v.input ∧
      (t.input ≠ [] → u.ports.err = v.ports.err ∧ u.ports.errInfo = v.ports.errInfo)) ∧
  ∀ (i : Instr) (s t : State), exec i s = .next t → t.ports.err ≠ 0 →
    ∃ u, exec i t = .next u ∧ u.ports.err = t.ports.err ∧ u.ports.errInfo = t.ports.errInfo

/-- R15: the mirror is write-only. Two states that differ in the mirror alone give the same outcome, and next
states that differ in the mirror alone. -/
def Obligations.MirrorIsWriteOnly : Prop :=
  ∀ (i : Instr) (s : State) (m : LevelRegs),
    (∀ t, exec i s = .next t → ∃ m', exec i { s with mirror := m } = .next { t with mirror := m' }) ∧
    (∀ f, exec i s = .fault f → exec i { s with mirror := m } = .fault f)

/-- R16: `UPDATE`, `APPLY_CIC`, `SET_CHANNEL` and `SET_GROUP` leave the mirror unchanged; in particular
`S.staged_cic` is kept. -/
def Obligations.UnmirroredCommandsKeepMirror : Prop :=
  ∀ (s t : State) (mask : Mask) (chan : Chan) (f : Volt) (n : BitVec 6) (fs : List Volt),
    ∀ i ∈ [Instr.update mask, .applyCic mask, .setChannel chan f, .setGroup chan n fs],
      exec i s = .next t → t.mirror = s.mirror

/-- R37 for the level registers: issuing a write again leaves the mirror, the register space, and what the device's
level registers become, as one issue would. -/
def Obligations.LevelWritesAreIdempotent : Prop :=
  ∀ (s t u : State) (mask : Mask) (led : BitVec 8) (a b c d : Bool) (rate : BitVec 32),
    ∀ i ∈ [Instr.setHold mask, .setContinuous mask, .setLeds led, .setCfg a b c d, .stageCic rate],
      exec i s = .next t → exec i t = .next u →
      u.mirror = t.mirror ∧ (∀ x, readWord u.regSpace x = readWord t.regSpace x) ∧
      landLevels u.device.buffer u.device.levels = landLevels t.device.buffer t.device.levels

/-- R133: UnsupportedOperation is reported by `READ` and by nothing else. -/
def Obligations.OnlyReadIsUnsupported : Prop :=
  ∀ (i : Instr) (s t : State), exec i s = .next t → (t.ports.err = 3 ↔ ∃ addr, i = .read addr)

/-! ### Invariants -/

/-- R2, R12, R165: a step keeps the configuration, never withdraws an emitted event, and never moves the
schedule position back; that the bus's position moves only forward is the model's choice (log entry 7). -/
def Obligations.StepNeverWithdrawsOrGoesBack : Prop :=
  ∀ s t : State, step s = .next t → t.config = s.config ∧ s.trace <+: t.trace ∧ s.now ≤ t.now ∧
    s.busPosition ≤ t.busPosition

/-- The register space keeps its canonical form: R25 gives the 24-bit addresses, and the strictly rising list is the
model's own (log entry 28). -/
def Obligations.StepKeepsRegisterSpaceCanonical : Prop :=
  ∀ s t : State, memoryWf s.regSpace → step s = .next t → memoryWf t.regSpace

/-- Reset meets the four invariants. That the schedule position and the bus's position are 0 at reset, and that no
write waits in the device, are the model's choices (log entries 2 and 36). -/
def Obligations.ResetMeetsInvariants : Prop :=
  memoryWf State.reset.regSpace ∧ traceLegal State.reset ∧ mirrorTracksDevice State.reset ∧
  traceExplainsState State.reset

/-- R39: the events a block with the default parameters emits are exactly of the kinds the rule lists. -/
def Obligations.StepKeepsTraceLegal : Prop :=
  ∀ s t : State, traceLegal s → step s = .next t → traceLegal t

/-- R14: the mirror stays what the device's level registers become when the delivered writes take effect (the
device is the model's, log entries 14 to 17; so is that writes are taken while cfg `reset` is 1, log entry 23). -/
def Obligations.StepKeepsMirrorTrackingDevice : Prop :=
  ∀ s t : State, mirrorTracksDevice s → step s = .next t → mirrorTracksDevice t

/-- R12, R40: the schedule position stays the sum of the trace's delays, and each address holds the last word
the trace writes to it. That word `i` of a burst goes to its address + `i` is the reading of D23 (log entry 28). -/
def Obligations.StepKeepsTraceExplainingState : Prop :=
  ∀ s t : State, traceExplainsState s → step s = .next t → traceExplainsState t

/-! ### The device's contract -/

/-- R41: a delay of at least one FramePeriod passes a frame boundary, so every write issued before it has
taken effect: nothing waits in the double buffer, and the level registers hold the last values written. This
and the statements below rest on the model's reading of the frame (log entries 14 to 17), and on its taking writes while
cfg `reset` is 1 (log entry 23). -/
def Obligations.FrameDelayIsABarrier : Prop :=
  ∀ (s : State) (dur : Duration), 392 ≤ dur.toNat →
    ∃ t, exec (.delay dur) s = .next t ∧ t.device.buffer = [] ∧
      t.device.levels = landLevels s.device.buffer s.device.levels

/-- R23, R24, R158, R161: a rate staged, one FramePeriod, and an apply commit the staged config to exactly the
selected channels; the others keep theirs. Each selected channel has three transient output samples to come, of which
a delay past one FramePeriod may have used some up; no other channel has any newly. It rests on log entries 14 to 17,
on 7 (the bus stands still between the commands), 23 (writes while cfg `reset` is 1) and 26. -/
def Obligations.SpacedApplyCommitsStagedConfig : Prop :=
  ∀ (s : State) (rate : BitVec 32) (mask : Mask) (d : Duration), onTime s → 1 ≤ rate.toInt → rate.toInt ≤ 65536 →
    392 ≤ d.toNat → s.device.buffer = [] →
    ∃ (t : State) (r : CicResult), execAll [.stageCic rate, .delay d, .applyCic mask, .delay d] s = .next t ∧
      cicQuantize rate.toInt = .ok r ∧
      ∀ (ch : ℕ) (x : Channel), s.device.channels[ch]? = some x →
        ∃ y, t.device.channels[ch]? = some y ∧
          (y.cic = if mask.getLsbD ch then some (cicFields (cicWord r)) else x.cic) ∧
          (mask.getLsbD ch = true → ∃ n ≤ 3, y.settling = some n ∧ (d = 392 → n = 3)) ∧
          (mask.getLsbD ch = false → (x.settling = none → y.settling = none) ∧
            ∀ m, x.settling = some m → ∃ n ≤ m, y.settling = some n)

/-- R17, R19, R55: in single-channel mode, a sample written to a channel that is not held, at rate 1 and with
no cfg bit active, is its applied sample one FramePeriod later. That it is applied at the boundary that stages it, and
not one frame later, is the model's choice (log entry 37); the rest of how the channel updates is log entry 25. -/
def Obligations.UnheldSampleReachesOutput : Prop :=
  ∀ (s : State) (chan : Chan) (f : Volt) (d : Duration) (hold : Mask) (x : Channel),
    defaultArith s.config → accepted f → onTime s → 392 ≤ d.toNat → s.config.log2Width = 0 →
    s.device.buffer = [] → s.device.levels.holdMask = some hold → hold.getLsbD chan.toNat = false →
    outputsLive s.device → unityChannel s.device chan.toNat x →
    ∃ (t : State) (y : Channel), execAll [.setChannel chan f, .delay d] s = .next t ∧
      t.device.channels[chan.toNat]? = some y ∧
      y.staged = some (BitVec.ofInt 16 (machineUnits f)) ∧ y.applied = y.staged

/-- R33, R160: one FramePeriod after `SET_GROUP` in grouped mode, every channel of the group has its own
sample staged, machine-unit 0 where no voltage was supplied, and every other channel keeps its sample. That the
write is staged while cfg `reset` is 1 is the model's (log entry 23). -/
def Obligations.GroupWriteStagesEveryChannel : Prop :=
  ∀ (s : State) (chan : Chan) (n : BitVec 6) (fs : List Volt) (d : Duration), defaultArith s.config → onTime s →
    0 < s.config.log2Width.val → alignedFirst s.config chan → fs.length = n.toNat →
    n.toNat ≤ 2 ^ s.config.log2Width.val → (∀ f ∈ fs, accepted f) →
    s.config.dataOffset.toNat + nwords s.config ≤ 32 → 392 ≤ d.toNat → s.device.buffer = [] →
    ∃ t : State, execAll [.setGroup chan n fs, .delay d] s = .next t ∧
      ∀ (ch : ℕ) (x : Channel), s.device.channels[ch]? = some x →
        ∃ y, t.device.channels[ch]? = some y ∧
          y.staged =
            if chan.toNat ≤ ch ∧ ch < chan.toNat + 2 ^ s.config.log2Width.val then
              some (BitVec.ofNat 16 (slot fs (ch - chan.toNat)))
            else x.staged

/-- R18, R19, R42, R159: the hold and update protocol. Data is written to a group, one FramePeriod passes, an
`UPDATE` selects channels, one more FramePeriod passes. A held channel at rate 1 keeps its applied sample after
the data write; after the `UPDATE` its staged sample is applied if it was selected, and not otherwise. It rests on log
entries 14 to 17 and 25, and on 7 (the bus stands still between the two writes). -/
def Obligations.HeldGroupAppliesOnUpdate : Prop :=
  ∀ (s : State) (chan : Chan) (n : BitVec 6) (fs : List Volt) (mask hold : Mask) (d : Duration),
    onTime s → alignedFirst s.config chan → fs.length = n.toNat →
    n.toNat ≤ 2 ^ s.config.log2Width.val → (∀ f ∈ fs, takes s.config f) →
    s.config.dataOffset.toNat + nwords s.config ≤ 32 → 392 ≤ d.toNat → s.device.buffer = [] →
    s.device.levels.holdMask = some hold → outputsLive s.device →
    ∃ t u : State, execAll [.setGroup chan n fs, .delay d] s = .next t ∧
      execAll [.update mask, .delay d] t = .next u ∧
      ∀ (ch : ℕ) (x : Channel), hold.getLsbD ch = true → unityChannel s.device ch x →
        ∃ y z, t.device.channels[ch]? = some y ∧ u.device.channels[ch]? = some z ∧
          y.applied = x.applied ∧ z.staged = y.staged ∧
          z.applied = if mask.getLsbD ch then y.staged else x.applied

/-- R163, I11: a channel with a rate other than 1 whose continuous bit is 0 does not update: not as time passes, not
on new data for one channel or for a group, and not on an `UPDATE`; that an `UPDATE` is blocked too is the model's
reading (log entry 25). -/
def Obligations.NonUnityChannelNeedsContinuous : Prop :=
  ∀ (s : State) (is : List Instr) (cont : Mask) (d : Duration) (ch : ℕ) (x : Channel) (cic : CicConfig),
    (is = [] ∨ (∃ mask, is = [.update mask]) ∨ (∃ chan f, takes s.config f ∧ is = [.setChannel chan f]) ∨
      ∃ chan n fs, alignedFirst s.config chan ∧ fs.length = n.toNat ∧ n.toNat ≤ 2 ^ s.config.log2Width.val ∧
        (∀ f ∈ fs, takes s.config f) ∧ s.config.dataOffset.toNat + nwords s.config ≤ 32 ∧
        is = [.setGroup chan n fs]) →
    onTime s → 392 ≤ d.toNat → s.device.buffer = [] → s.device.levels.continuousMask = some cont →
    cont.getLsbD ch = false → outputsLive s.device → s.device.channels[ch]? = some x → x.cic = some cic →
    possible cic → actualRate cic ≠ 1 →
    ∃ (t : State) (y : Channel), execAll (is ++ [.delay d]) s = .next t ∧ t.device.channels[ch]? = some y ∧
      y.applied = x.applied

/-- R20, R36, R144: a cfg write with `clr_err` 1 clears the error counters (one number, log entry 27);
that it is taken while `reset` is 1 is the model's (log entry 23). -/
def Obligations.ClearErrorsClearsCounters : Prop :=
  ∀ (s : State) (reset afePowerDown dacClr : Bool) (d : Duration), onTime s → 392 ≤ d.toNat →
    ∃ t : State, execAll [.setCfg reset afePowerDown dacClr true, .delay d] s = .next t ∧
      t.device.errorCount = some 0 ∧
      t.device.levels.cfg = some ⟨reset, afePowerDown, dacClr, true⟩

/-- R28, R110 against the device: after `INITIALIZE` nothing waits, the device's level registers are those of
R28, every channel has the unity config, and no channel's staged sample was written. That the whole sequence
completes rests on the model's bus (log entry 7). -/
def Obligations.InitializeBringsDeviceToUnity : Prop :=
  ∀ s : State, s.config.initSeq = .standard → onTime s → s.device.buffer = [] →
    ∃ t : State, exec .initialise s = .next t ∧ t.device.buffer = [] ∧ t.device.levels = initialised ∧
      ∀ (ch : ℕ) (x : Channel), ch < 32 → s.device.channels[ch]? = some x →
        ∃ y, t.device.channels[ch]? = some y ∧ y.staged = x.staged ∧
          y.cic = some { rateMantissa := 0, rateExponent := 0, gainExponent := 0 }
end

