-- ==== Sys2Proof/Laws/Address.lean ====
section
/-! SUPPORT. The two fields of a composed address, and the register that each of the block's own addresses
reaches in the device. -/

namespace Sys2Proof.Machine

/-- The address as a number: 256 words a page. -/
theorem encodeAddress_toNat (base : Chan) (offset : BitVec 8) :
    (encodeAddress base offset).toNat = 256 * base.toNat + offset.toNat := by
  have hb := base.isLt
  have ho := offset.isLt
  have h1 : (base.setWidth 24 <<< 8 : Address).toNat = base.toNat <<< 8 := by
    simp only [BitVec.toNat_shiftLeft, BitVec.toNat_setWidth, Nat.shiftLeft_eq]; omega
  have h2 : (offset.setWidth 24 : Address).toNat = offset.toNat := by
    simp only [BitVec.toNat_setWidth]; omega
  rw [encodeAddress, BitVec.toNat_or, h1, h2, ← Nat.shiftLeft_add_eq_or_of_lt (by simpa using ho), Nat.shiftLeft_eq]
  omega

@[simp] theorem encodeAddress_page (base : Chan) (offset : BitVec 8) :
    (encodeAddress base offset).extractLsb' 8 16 = base.setWidth 16 := by
  apply BitVec.eq_of_toNat_eq
  have hb := base.isLt
  have ho := offset.isLt
  rw [BitVec.extractLsb'_toNat, encodeAddress_toNat, BitVec.toNat_setWidth, Nat.shiftRight_eq_div_pow]
  omega

@[simp] theorem encodeAddress_offset (base : Chan) (offset : BitVec 8) :
    (encodeAddress base offset).extractLsb' 0 8 = offset := by
  apply BitVec.eq_of_toNat_eq
  have hb := base.isLt
  have ho := offset.isLt
  rw [BitVec.extractLsb'_toNat, encodeAddress_toNat, Nat.shiftRight_eq_div_pow]
  omega

theorem page_lt (base : Chan) : (base.setWidth 16 : BitVec 16).toNat < nchan := by
  have hb := base.isLt
  rw [BitVec.toNat_setWidth, nchan]; omega

@[simp] theorem page_channel (base : Chan) : ((base.setWidth 16 : BitVec 16).setWidth 5 : Chan) = base := by
  apply BitVec.eq_of_toNat_eq
  have hb := base.isLt
  rw [BitVec.toNat_setWidth, BitVec.toNat_setWidth]; omega

/-- A device-wide offset is no data offset. -/
theorem offset_ne_data (c : Config) {offset : BitVec 8} (h : 32 ≤ offset.toNat) :
    offset ≠ c.dataOffset.setWidth 8 := by
  intro he
  have hd := c.dataOffset.isLt
  rw [he, BitVec.toNat_setWidth] at h
  omega

/-- A narrow data write reaches its channel (R17, R39). -/
theorem narrowWrite_data (c : Config) (channel : Chan) (word : Word) :
    narrowWrite c (dataAddress c channel) word = some (.data channel word) := by
  simp only [narrowWrite, dataAddress, encodeAddress_page, encodeAddress_offset, page_channel]
  rw [if_pos trivial, if_pos (page_lt channel)]

theorem narrowWrite_update (c : Config) (w : Word) : narrowWrite c (globalAddress c 0x20) w = some (.update w) := by
  simp only [narrowWrite, globalAddress, encodeAddress_page, encodeAddress_offset]
  rw [if_neg (offset_ne_data c (by decide)), if_pos trivial]; rfl

theorem narrowWrite_hold (c : Config) (w : Word) : narrowWrite c (globalAddress c 0x21) w = some (.hold w) := by
  simp only [narrowWrite, globalAddress, encodeAddress_page, encodeAddress_offset]
  rw [if_neg (offset_ne_data c (by decide)), if_pos trivial]; rfl

theorem narrowWrite_cfg (c : Config) (w : Word) :
    narrowWrite c (globalAddress c 0x22) w = some (.cfg (cfgFields w)) := by
  simp only [narrowWrite, globalAddress, encodeAddress_page, encodeAddress_offset]
  rw [if_neg (offset_ne_data c (by decide)), if_pos trivial]; rfl

theorem narrowWrite_leds (c : Config) (w : Word) :
    narrowWrite c (globalAddress c 0x23) w = some (.leds (w.setWidth 8)) := by
  simp only [narrowWrite, globalAddress, encodeAddress_page, encodeAddress_offset]
  rw [if_neg (offset_ne_data c (by decide)), if_pos trivial]; rfl

theorem narrowWrite_continuous (c : Config) (w : Word) :
    narrowWrite c (globalAddress c 0x25) w = some (.continuous w) := by
  simp only [narrowWrite, globalAddress, encodeAddress_page, encodeAddress_offset]
  rw [if_neg (offset_ne_data c (by decide)), if_pos trivial]; rfl

theorem narrowWrite_stageCic (c : Config) (w : Word) :
    narrowWrite c (globalAddress c 0x26) w = some (.stageCic (cicFields (w.setWidth 16))) := by
  simp only [narrowWrite, globalAddress, encodeAddress_page, encodeAddress_offset]
  rw [if_neg (offset_ne_data c (by decide)), if_pos trivial]; rfl

theorem narrowWrite_applyCic (c : Config) (w : Word) :
    narrowWrite c (globalAddress c 0x27) w = some (.applyCic w) := by
  simp only [narrowWrite, globalAddress, encodeAddress_page, encodeAddress_offset]
  rw [if_neg (offset_ne_data c (by decide)), if_pos trivial]; rfl

/-- A full group write to an aligned first channel reaches its group (R17, R31, R81). -/
theorem wideWrite_group (c : Config) (first : Chan) (words : List Word)
    (ha : groupAligned first c.log2Width.val = true) (hl : words.length = groupWords c)
    (hw : c.dataOffset.toNat + words.length ≤ 32) :
    wideWrite c (dataAddress c first) words = some (.group first words) := by
  simp only [wideWrite, dataAddress, encodeAddress_page, encodeAddress_offset, page_channel]
  rw [if_pos ⟨trivial, page_lt first, hl, hw⟩, if_pos ha]

/-- A data address lies in its channel's page. -/
theorem dataAddress_toNat (c : Config) (channel : Chan) :
    (dataAddress c channel).toNat = 256 * channel.toNat + c.dataOffset.toNat := by
  have hd := c.dataOffset.isLt
  rw [dataAddress, encodeAddress_toNat, BitVec.toNat_setWidth]; omega

theorem globalAddress_toNat (c : Config) (offset : BitVec 8) :
    (globalAddress c offset).toNat = 256 * c.globalBase.toNat + offset.toNat := encodeAddress_toNat _ _

/-- The cfg word's fields are the four bits it was made of (R20, R58). -/
@[simp] theorem cfgFields_cfgWord (v : Cfg) : cfgFields (cfgWord v) = v := by
  obtain ⟨a, b, c, d⟩ := v
  cases a <;> cases b <;> cases c <;> cases d <;> decide

@[simp] theorem setWidth_led (led : BitVec 8) : ((led.setWidth 32 : Word).setWidth 8) = led := by
  apply BitVec.eq_of_toNat_eq
  have := led.isLt
  rw [BitVec.toNat_setWidth, BitVec.toNat_setWidth]; omega

@[simp] theorem setWidth_half (w : BitVec 16) : ((w.setWidth 32 : Word).setWidth 16) = w := by
  apply BitVec.eq_of_toNat_eq
  have := w.isLt
  rw [BitVec.toNat_setWidth, BitVec.toNat_setWidth]; omega

end Sys2Proof.Machine
end

