-- ==== Sys2Proof/Laws/Memory.lean ====
section
/-! SUPPORT. The register space: a read after a write, and the canonical form is kept. -/

namespace Sys2Proof.Machine

/-- A read gives the word just delivered, or what it gave before at any other address. -/
theorem readWord_writeWord (m : Memory) (addr : Nat) (word : Word) (a : Nat) :
    readWord (writeWord m addr word) a = if addr = a then some word else readWord m a := by
  induction m with
  | nil => simp [writeWord, readWord]
  | cons c rest ih =>
    obtain ⟨b, w⟩ := c
    simp only [writeWord]
    split
    · simp [readWord]
    · split
      · subst b; simp only [readWord]; split <;> rfl
      · simp only [readWord, ih]
        split
        · split
          · omega
          · rfl
        · rfl

theorem mem_writeWord {m : Memory} {addr : Nat} {word : Word} {c : Nat × Word} (h : c ∈ writeWord m addr word) :
    c = (addr, word) ∨ c ∈ m := by
  induction m with
  | nil => simpa [writeWord] using h
  | cons d rest ih =>
    obtain ⟨b, w⟩ := d
    simp only [writeWord] at h
    split at h
    · simpa using h
    · split at h
      · simp only [List.mem_cons] at h ⊢; tauto
      · simp only [List.mem_cons] at h ⊢
        rcases h with h | h
        · exact .inr (.inl h)
        · rcases ih h with h | h
          · exact .inl h
          · exact .inr (.inr h)

/-- A write keeps the canonical form. -/
theorem writeWord_wf {m : Memory} {addr : Nat} {word : Word} (hm : memoryWf m) (ha : addr < 2 ^ 24) :
    memoryWf (writeWord m addr word) := by
  refine ⟨?_, fun c hc => ?_⟩
  · induction m with
    | nil => simp [writeWord]
    | cons d rest ih =>
      obtain ⟨b, w⟩ := d
      have hrest : memoryWf rest := ⟨(List.pairwise_cons.1 hm.1).2, fun x hx => hm.2 x (List.mem_cons_of_mem _ hx)⟩
      have hlt := (List.pairwise_cons.1 hm.1).1
      simp only [writeWord]
      split
      · refine List.pairwise_cons.2 ⟨fun x hx => ?_, hm.1⟩
        rcases List.mem_cons.1 hx with rfl | hx
        · assumption
        · have := hlt x hx; simp only at this ⊢; omega
      · split
        · subst b; exact List.pairwise_cons.2 ⟨hlt, hrest.1⟩
        · refine List.pairwise_cons.2 ⟨fun x hx => ?_, ih hrest⟩
          rcases mem_writeWord hx with rfl | hx
          · simp only; omega
          · exact hlt x hx
  · rcases mem_writeWord hc with rfl | hc
    · exact ha
    · exact hm.2 c hc

/-- A burst keeps the canonical form. -/
theorem writeWords_wf {m : Memory} {addr : Address} {words : List Word} (hm : memoryWf m) :
    memoryWf (writeWords m addr words) := by
  induction words generalizing m addr with
  | nil => exact hm
  | cons w ws ih => exact ih (writeWord_wf hm addr.isLt)

/-- A burst that does not pass the end of the space writes word `i` at `addr + i` and nothing else. -/
theorem readWord_writeWords (m : Memory) (addr : Address) (words : List Word) (a : Nat)
    (h : addr.toNat + words.length ≤ 2 ^ 24) :
    readWord (writeWords m addr words) a =
      if addr.toNat ≤ a ∧ a < addr.toNat + words.length then words[a - addr.toNat]? else readWord m a := by
  induction words generalizing m addr with
  | nil =>
    have : ¬(addr.toNat ≤ a ∧ a < addr.toNat) := by omega
    simp [writeWords, this]
  | cons w ws ih =>
    rw [List.length_cons] at h
    by_cases hws : ws = []
    · subst hws
      rw [writeWords, writeWords, readWord_writeWord]
      by_cases ha : addr.toNat = a
      · subst ha; simp
      · have : ¬(addr.toNat ≤ a ∧ a < addr.toNat + 1) := by omega
        rw [if_neg ha, if_neg (by simpa using this)]
    · have hpos : 0 < ws.length := List.length_pos_iff.2 hws
      have hstep : (addr + 1).toNat = addr.toNat + 1 := by
        rw [BitVec.toNat_add]; simp; omega
      rw [writeWords, ih _ _ (by omega), readWord_writeWord, hstep, List.length_cons]
      by_cases ha : addr.toNat = a
      · subst ha
        simp
      · by_cases hin : addr.toNat + 1 ≤ a ∧ a < addr.toNat + 1 + ws.length
        · have h2 : addr.toNat ≤ a ∧ a < addr.toNat + (ws.length + 1) := by omega
          obtain ⟨k, rfl⟩ : ∃ k, a = addr.toNat + 1 + k := ⟨a - (addr.toNat + 1), by omega⟩
          rw [if_pos hin, if_pos h2]
          have h3 : addr.toNat + 1 + k - addr.toNat = k + 1 := by omega
          have h4 : addr.toNat + 1 + k - (addr.toNat + 1) = k := by omega
          rw [h3, h4]; simp
        · have h2 : ¬(addr.toNat ≤ a ∧ a < addr.toNat + (ws.length + 1)) := by omega
          rw [if_neg hin, if_neg h2, if_neg ha]

end Sys2Proof.Machine
end

