-- ==== Sys2Proof/Laws/State.lean ====
section
/-! SUPPORT. What each update of the state does to each field: one lemma per field and update. -/

namespace Sys2Proof.Machine

@[simp] theorem State.delivered_config (s : State) (e : Event) (space : Memory) (w : DeviceWrite) : (s.delivered e space w).config = s.config := rfl
@[simp] theorem State.delivered_mirror (s : State) (e : Event) (space : Memory) (w : DeviceWrite) : (s.delivered e space w).mirror = s.mirror := rfl
@[simp] theorem State.delivered_ports (s : State) (e : Event) (space : Memory) (w : DeviceWrite) : (s.delivered e space w).ports = s.ports := rfl
@[simp] theorem State.delivered_eventPort (s : State) (e : Event) (space : Memory) (w : DeviceWrite) : (s.delivered e space w).eventPort = s.eventPort := rfl
@[simp] theorem State.delivered_trace (s : State) (e : Event) (space : Memory) (w : DeviceWrite) : (s.delivered e space w).trace = s.trace ++ [e] := rfl
@[simp] theorem State.delivered_input (s : State) (e : Event) (space : Memory) (w : DeviceWrite) : (s.delivered e space w).input = s.input := rfl
@[simp] theorem State.delivered_now (s : State) (e : Event) (space : Memory) (w : DeviceWrite) : (s.delivered e space w).now = s.now := rfl
@[simp] theorem State.delivered_busPosition (s : State) (e : Event) (space : Memory) (w : DeviceWrite) : (s.delivered e space w).busPosition = s.busPosition := rfl
@[simp] theorem State.delivered_regSpace (s : State) (e : Event) (space : Memory) (w : DeviceWrite) : (s.delivered e space w).regSpace = space := rfl
@[simp] theorem State.delivered_device (s : State) (e : Event) (space : Memory) (w : DeviceWrite) : (s.delivered e space w).device = { s.device with buffer := s.device.buffer ++ [{ time := s.now, write := w }] } := rfl
@[simp] theorem State.delivered_draws (s : State) (e : Event) (space : Memory) (w : DeviceWrite) : (s.delivered e space w).draws = s.draws := rfl

@[simp] theorem State.delayed_config (s : State) (dur : Duration) : (s.delayed dur).config = s.config := rfl
@[simp] theorem State.delayed_mirror (s : State) (dur : Duration) : (s.delayed dur).mirror = s.mirror := rfl
@[simp] theorem State.delayed_ports (s : State) (dur : Duration) : (s.delayed dur).ports = s.ports := rfl
@[simp] theorem State.delayed_eventPort (s : State) (dur : Duration) : (s.delayed dur).eventPort = s.eventPort := rfl
@[simp] theorem State.delayed_trace (s : State) (dur : Duration) : (s.delayed dur).trace = s.trace ++ [.dl dur] := rfl
@[simp] theorem State.delayed_input (s : State) (dur : Duration) : (s.delayed dur).input = s.input := rfl
@[simp] theorem State.delayed_now (s : State) (dur : Duration) : (s.delayed dur).now = s.now + dur.toNat := rfl
@[simp] theorem State.delayed_busPosition (s : State) (dur : Duration) : (s.delayed dur).busPosition = s.busPosition := rfl
@[simp] theorem State.delayed_regSpace (s : State) (dur : Duration) : (s.delayed dur).regSpace = s.regSpace := rfl
@[simp] theorem State.delayed_device (s : State) (dur : Duration) : (s.delayed dur).device = elapseFrames s.config s.draws s.device (framesCrossed s.now dur.toNat) := rfl
@[simp] theorem State.delayed_draws (s : State) (dur : Duration) : (s.delayed dur).draws = s.draws + 2 := rfl

@[simp] theorem State.reported_config (s : State) (ports : ResultPorts) (records : List EventPort) : (s.reported ports records).config = s.config := rfl
@[simp] theorem State.reported_mirror (s : State) (ports : ResultPorts) (records : List EventPort) : (s.reported ports records).mirror = s.mirror := rfl
@[simp] theorem State.reported_ports (s : State) (ports : ResultPorts) (records : List EventPort) : (s.reported ports records).ports = ports := rfl
@[simp] theorem State.reported_eventPort (s : State) (ports : ResultPorts) (records : List EventPort) : (s.reported ports records).eventPort = records := rfl
@[simp] theorem State.reported_trace (s : State) (ports : ResultPorts) (records : List EventPort) : (s.reported ports records).trace = s.trace := rfl
@[simp] theorem State.reported_input (s : State) (ports : ResultPorts) (records : List EventPort) : (s.reported ports records).input = s.input := rfl
@[simp] theorem State.reported_now (s : State) (ports : ResultPorts) (records : List EventPort) : (s.reported ports records).now = s.now := rfl
@[simp] theorem State.reported_busPosition (s : State) (ports : ResultPorts) (records : List EventPort) : (s.reported ports records).busPosition = s.busPosition := rfl
@[simp] theorem State.reported_regSpace (s : State) (ports : ResultPorts) (records : List EventPort) : (s.reported ports records).regSpace = s.regSpace := rfl
@[simp] theorem State.reported_device (s : State) (ports : ResultPorts) (records : List EventPort) : (s.reported ports records).device = s.device := rfl
@[simp] theorem State.reported_draws (s : State) (ports : ResultPorts) (records : List EventPort) : (s.reported ports records).draws = s.draws + 1 := rfl

@[simp] theorem State.accepted_config (s : State) (p : Presented) (rest : List Presented) : (s.accepted p rest).config = s.config := rfl
@[simp] theorem State.accepted_mirror (s : State) (p : Presented) (rest : List Presented) : (s.accepted p rest).mirror = s.mirror := rfl
@[simp] theorem State.accepted_ports (s : State) (p : Presented) (rest : List Presented) : (s.accepted p rest).ports = s.ports := rfl
@[simp] theorem State.accepted_eventPort (s : State) (p : Presented) (rest : List Presented) : (s.accepted p rest).eventPort = s.eventPort := rfl
@[simp] theorem State.accepted_trace (s : State) (p : Presented) (rest : List Presented) : (s.accepted p rest).trace = s.trace := rfl
@[simp] theorem State.accepted_input (s : State) (p : Presented) (rest : List Presented) : (s.accepted p rest).input = rest := rfl
@[simp] theorem State.accepted_now (s : State) (p : Presented) (rest : List Presented) : (s.accepted p rest).now = s.now := rfl
@[simp] theorem State.accepted_busPosition (s : State) (p : Presented) (rest : List Presented) : (s.accepted p rest).busPosition = s.busPosition + p.elapsed := rfl
@[simp] theorem State.accepted_regSpace (s : State) (p : Presented) (rest : List Presented) : (s.accepted p rest).regSpace = s.regSpace := rfl
@[simp] theorem State.accepted_device (s : State) (p : Presented) (rest : List Presented) : (s.accepted p rest).device = s.device := rfl
@[simp] theorem State.accepted_draws (s : State) (p : Presented) (rest : List Presented) : (s.accepted p rest).draws = s.draws := rfl

@[simp] theorem State.withMirror_config (s : State) (mirror : LevelRegs) : (s.withMirror mirror).config = s.config := rfl
@[simp] theorem State.withMirror_mirror (s : State) (mirror : LevelRegs) : (s.withMirror mirror).mirror = mirror := rfl
@[simp] theorem State.withMirror_ports (s : State) (mirror : LevelRegs) : (s.withMirror mirror).ports = s.ports := rfl
@[simp] theorem State.withMirror_eventPort (s : State) (mirror : LevelRegs) : (s.withMirror mirror).eventPort = s.eventPort := rfl
@[simp] theorem State.withMirror_trace (s : State) (mirror : LevelRegs) : (s.withMirror mirror).trace = s.trace := rfl
@[simp] theorem State.withMirror_input (s : State) (mirror : LevelRegs) : (s.withMirror mirror).input = s.input := rfl
@[simp] theorem State.withMirror_now (s : State) (mirror : LevelRegs) : (s.withMirror mirror).now = s.now := rfl
@[simp] theorem State.withMirror_busPosition (s : State) (mirror : LevelRegs) : (s.withMirror mirror).busPosition = s.busPosition := rfl
@[simp] theorem State.withMirror_regSpace (s : State) (mirror : LevelRegs) : (s.withMirror mirror).regSpace = s.regSpace := rfl
@[simp] theorem State.withMirror_device (s : State) (mirror : LevelRegs) : (s.withMirror mirror).device = s.device := rfl
@[simp] theorem State.withMirror_draws (s : State) (mirror : LevelRegs) : (s.withMirror mirror).draws = s.draws := rfl

@[simp] theorem State.withFetchWord_config (s : State) (nbits w : Nat) : (s.withFetchWord nbits w).config = s.config := rfl
@[simp] theorem State.withFetchWord_mirror (s : State) (nbits w : Nat) : (s.withFetchWord nbits w).mirror = s.mirror := rfl
@[simp] theorem State.withFetchWord_ports (s : State) (nbits w : Nat) : (s.withFetchWord nbits w).ports = s.ports := rfl
@[simp] theorem State.withFetchWord_eventPort (s : State) (nbits w : Nat) : (s.withFetchWord nbits w).eventPort = s.eventPort := rfl
@[simp] theorem State.withFetchWord_trace (s : State) (nbits w : Nat) : (s.withFetchWord nbits w).trace = s.trace := rfl
@[simp] theorem State.withFetchWord_input (s : State) (nbits w : Nat) : (s.withFetchWord nbits w).input = { record := tableRecord nbits w, elapsed := 0 } :: s.input := rfl
@[simp] theorem State.withFetchWord_now (s : State) (nbits w : Nat) : (s.withFetchWord nbits w).now = s.now := rfl
@[simp] theorem State.withFetchWord_busPosition (s : State) (nbits w : Nat) : (s.withFetchWord nbits w).busPosition = s.busPosition := rfl
@[simp] theorem State.withFetchWord_regSpace (s : State) (nbits w : Nat) : (s.withFetchWord nbits w).regSpace = s.regSpace := rfl
@[simp] theorem State.withFetchWord_device (s : State) (nbits w : Nat) : (s.withFetchWord nbits w).device = s.device := rfl
@[simp] theorem State.withFetchWord_draws (s : State) (nbits w : Nat) : (s.withFetchWord nbits w).draws = s.draws := rfl

@[simp] theorem State.blockReset_config (s : State) : s.blockReset.config = s.config := rfl
@[simp] theorem State.blockReset_mirror (s : State) : s.blockReset.mirror = LevelRegs.unwritten := rfl
@[simp] theorem State.blockReset_ports (s : State) : s.blockReset.ports = ResultPorts.idle := rfl
@[simp] theorem State.blockReset_eventPort (s : State) : s.blockReset.eventPort = [] := rfl
@[simp] theorem State.blockReset_trace (s : State) : s.blockReset.trace = [] := rfl
@[simp] theorem State.blockReset_input (s : State) : s.blockReset.input = s.input := rfl
@[simp] theorem State.blockReset_now (s : State) : s.blockReset.now = s.now := rfl
@[simp] theorem State.blockReset_busPosition (s : State) : s.blockReset.busPosition = s.busPosition := rfl
@[simp] theorem State.blockReset_regSpace (s : State) : s.blockReset.regSpace = s.regSpace := rfl
@[simp] theorem State.blockReset_device (s : State) : s.blockReset.device = s.device := rfl
@[simp] theorem State.blockReset_draws (s : State) : s.blockReset.draws = s.draws := rfl

end Sys2Proof.Machine
end

