-- ==== Sys2Proof/Laws/Ops.lean ====
section
/-! SUPPORT. What each shared operation can do, said once: issuing one event, issuing a list, completing a
command, and ending it in error. -/

namespace Sys2Proof.Machine

/-- Everything one event can do if it does not fault. -/
theorem issueEvent_ok {s t : State} {e : Event} (h : issueEvent s e = .ok t) :
    (∃ addr word w, e = .wn addr word ∧ s.busPosition ≤ s.now ∧ narrowWrite s.config addr word = some w ∧
      t = s.delivered e (writeWord s.regSpace addr.toNat word) w) ∨
    (∃ addr words w, e = .ww addr words ∧ s.busPosition ≤ s.now ∧ wideWrite s.config addr words = some w ∧
      t = s.delivered e (writeWords s.regSpace addr words) w) ∨
    (∃ dur, e = .dl dur ∧ t = s.delayed dur) := by
  cases e with
  | wn addr word =>
    refine .inl ⟨addr, word, ?_⟩
    simp only [issueEvent] at h
    split at h
    · cases h
    · split at h
      · cases h
      · rename_i hb _ w hw
        exact ⟨w, rfl, by omega, hw, by simpa using h.symm⟩
  | ww addr words =>
    refine .inr (.inl ⟨addr, words, ?_⟩)
    simp only [issueEvent] at h
    split at h
    · cases h
    · split at h
      · cases h
      · rename_i hb _ w hw
        exact ⟨w, rfl, by omega, hw, by simpa using h.symm⟩
  | dl dur => exact .inr (.inr ⟨dur, rfl, by simpa [issueEvent] using h.symm⟩)

/-- Everything one event can do if it faults. -/
theorem issueEvent_error {s : State} {e : Event} {f : Fault} (h : issueEvent s e = .error f) :
    (f = .timingUnderflow ∧ s.now < s.busPosition) ∨
    (∃ addr word, e = .wn addr word ∧ narrowWrite s.config addr word = none ∧ f = .noRegister addr) ∨
    (∃ addr words, e = .ww addr words ∧ wideWrite s.config addr words = none ∧ f = .noRegister addr) := by
  cases e with
  | wn addr word =>
    simp only [issueEvent] at h
    split at h
    · cases h; exact .inl ⟨rfl, ‹_›⟩
    · split at h
      · cases h; exact .inr (.inl ⟨addr, word, rfl, ‹_›, rfl⟩)
      · cases h
  | ww addr words =>
    simp only [issueEvent] at h
    split at h
    · cases h; exact .inl ⟨rfl, ‹_›⟩
    · split at h
      · cases h; exact .inr (.inr ⟨addr, words, rfl, ‹_›, rfl⟩)
      · cases h
  | dl dur => simp [issueEvent] at h

/-- A narrow write on time to a register is delivered. -/
theorem issueEvent_wn {s : State} {addr : Address} {word : Word} {w : DeviceWrite}
    (hb : s.busPosition ≤ s.now) (hw : narrowWrite s.config addr word = some w) :
    issueEvent s (.wn addr word) = .ok (s.delivered (.wn addr word) (writeWord s.regSpace addr.toNat word) w) := by
  simp [issueEvent, Nat.not_lt.2 hb, hw]

/-- A wide write on time to a group is delivered. -/
theorem issueEvent_ww {s : State} {addr : Address} {words : List Word} {w : DeviceWrite}
    (hb : s.busPosition ≤ s.now) (hw : wideWrite s.config addr words = some w) :
    issueEvent s (.ww addr words) = .ok (s.delivered (.ww addr words) (writeWords s.regSpace addr words) w) := by
  simp [issueEvent, Nat.not_lt.2 hb, hw]

/-- A property that every event keeps is kept by a list of events. -/
theorem issueEvents_induct {P : State → Prop}
    (hstep : ∀ s e t, P s → issueEvent s e = .ok t → P t) :
    ∀ (es : List Event) (s t : State), P s → issueEvents s es = .ok t → P t
  | [], s, t, hs, h => by
    have : s = t := by simpa [issueEvents] using h
    exact this ▸ hs
  | e :: es, s, t, hs, h => by
    simp only [issueEvents] at h
    split at h
    · cases h
    · rename_i s' he
      exact issueEvents_induct hstep es s' t (hstep s e s' hs he) h

/-- What no event changes. -/
theorem issueEvents_frame {es : List Event} {s t : State} (h : issueEvents s es = .ok t) :
    t.config = s.config ∧ t.mirror = s.mirror ∧ t.input = s.input ∧ t.busPosition = s.busPosition ∧
    t.ports = s.ports ∧ t.eventPort = s.eventPort ∧ s.now ≤ t.now := by
  refine issueEvents_induct (P := fun t => t.config = s.config ∧ t.mirror = s.mirror ∧ t.input = s.input ∧
    t.busPosition = s.busPosition ∧ t.ports = s.ports ∧ t.eventPort = s.eventPort ∧ s.now ≤ t.now) ?_ es s t
    (by simp) h
  intro u e v hu hv
  rcases issueEvent_ok hv with ⟨_, _, _, _, _, _, rfl⟩ | ⟨_, _, _, _, _, _, rfl⟩ | ⟨_, _, rfl⟩ <;>
    (simp [hu]; try omega)

/-- The trace grows by exactly the events issued, in order. -/
theorem issueEvents_trace {es : List Event} {s t : State} (h : issueEvents s es = .ok t) :
    t.trace = s.trace ++ es := by
  induction es generalizing s with
  | nil => have : s = t := by simpa [issueEvents] using h
           simp [this]
  | cons e es ih =>
    simp only [issueEvents] at h
    split at h
    · cases h
    · rename_i s' he
      rw [ih h]
      rcases issueEvent_ok he with ⟨_, _, _, _, _, _, rfl⟩ | ⟨_, _, _, _, _, _, rfl⟩ | ⟨_, rfl, rfl⟩ <;> simp

/-- Everything completing a command can do, if it answers a next state. -/
theorem complete_next {s t : State} {ports : ResultPorts} {events : List Event}
    (h : complete s ports events = .next t) :
    ∃ u, issueEvents s events = .ok u ∧ t = u.reported ports (eventRecords s.draws 0 events) := by
  simp only [complete] at h
  split at h
  · cases h
  · rename_i u hu
    exact ⟨u, hu, by simpa using h.symm⟩

theorem complete_of_issue {s u : State} {ports : ResultPorts} {events : List Event}
    (h : issueEvents s events = .ok u) :
    complete s ports events = .next (u.reported ports (eventRecords s.draws 0 events)) := by
  simp [complete, h]

/-- A command without an event always completes. -/
theorem complete_nil (s : State) (ports : ResultPorts) : complete s ports [] = .next (s.reported ports []) := rfl

/-- A command that emits one narrow write, on time. -/
theorem complete_wn {s : State} {ports : ResultPorts} {addr : Address} {word : Word} {w : DeviceWrite}
    (hb : s.busPosition ≤ s.now) (hw : narrowWrite s.config addr word = some w) :
    complete s ports [.wn addr word] =
      .next ((s.delivered (.wn addr word) (writeWord s.regSpace addr.toNat word) w).reported ports
        (eventRecords s.draws 0 [.wn addr word])) := by
  simp [complete, issueEvents, issueEvent_wn hb hw]

/-- A command that emits one wide write, on time. -/
theorem complete_ww {s : State} {ports : ResultPorts} {addr : Address} {words : List Word} {w : DeviceWrite}
    (hb : s.busPosition ≤ s.now) (hw : wideWrite s.config addr words = some w) :
    complete s ports [.ww addr words] =
      .next ((s.delivered (.ww addr words) (writeWords s.regSpace addr words) w).reported ports
        (eventRecords s.draws 0 [.ww addr words])) := by
  simp [complete, issueEvents, issueEvent_ww hb hw]

/-- A command whose one event is a write, too late. -/
theorem complete_wn_late {s : State} {ports : ResultPorts} {addr : Address} {word : Word} {es : List Event}
    (hb : s.now < s.busPosition) : complete s ports (.wn addr word :: es) = .fault .timingUnderflow := by
  simp [complete, issueEvents, issueEvent, hb]

/-- A command that emits one delay. -/
theorem complete_dl (s : State) (ports : ResultPorts) (dur : Duration) :
    complete s ports [.dl dur] =
      .next ((s.delayed dur).reported ports (eventRecords s.draws 0 [.dl dur])) := rfl

@[simp] theorem orRaise_ok {α : Type} (s : State) (v : α) (go : α → Host.Outcome State Fault Refusal) :
    orRaise s (.ok v) go = go v := rfl

@[simp] theorem orRaise_error {α : Type} (s : State) (e : ErrorKind) (go : α → Host.Outcome State Fault Refusal) :
    orRaise s (.error e) go = .next (s.reported (errorPorts e s.draws) []) := rfl

@[simp] theorem okPorts_err (draw : Nat) : (okPorts draw).err = 0 := rfl
@[simp] theorem okPorts_errInfo (draw : Nat) : (okPorts draw).errInfo = 0 := rfl
@[simp] theorem errorPorts_err (e : ErrorKind) (draw : Nat) : (errorPorts e draw).err = errorCode e := rfl
@[simp] theorem errorPorts_errInfo (e : ErrorKind) (draw : Nat) : (errorPorts e draw).errInfo = errorInfo e := rfl

/-- Every error has a code other than 0 (R130). -/
theorem errorCode_ne_zero (e : ErrorKind) : errorCode e ≠ 0 := by cases e <;> simp [errorCode]

@[simp] theorem length_freeWords (point : OpenPoint) (draw index start : Nat) :
    (freeWords point draw index start).length = 16 - start := by simp [freeWords]

@[simp] theorem length_eventRecords (draw index : Nat) (es : List Event) :
    (eventRecords draw index es).length = es.length := by
  induction es generalizing index with
  | nil => rfl
  | cons e es ih => simp [eventRecords, ih]

/-- The conversions raise RangeError only (R70, R131). -/
theorem voltageToMu_error {c : Config} {f : Volt} {e : ErrorKind} (h : voltageToMu c f = .error e) :
    e = .rangeError 0 := by
  simp only [voltageToMu] at h
  split at h
  · split at h <;> cases h; rfl
  · cases h; rfl

theorem convertAll_error {c : Config} {fs : List Volt} {e : ErrorKind} {index : Nat}
    (h : convertAll c index fs = .error e) : ∃ k, e = .rangeError k := by
  induction fs generalizing index with
  | nil => cases h
  | cons f fs ih =>
    simp only [convertAll] at h
    split at h
    · cases h; exact ⟨_, rfl⟩
    · split at h
      · cases h; exact ih ‹_›
      · cases h

/-- The errors of `PACK_GROUP` (R74). -/
theorem packGroup_error {c : Config} {n : BitVec 6} {fs : List Volt} {e : ErrorKind}
    (h : packGroup c n fs = .error e) : e = .preconditionError ∨ ∃ k, e = .rangeError k := by
  simp only [packGroup] at h
  split at h
  · cases h; exact .inl rfl
  · split at h
    · cases h; exact .inr (convertAll_error ‹_›)
    · cases h

/-- The errors of `VALIDATE_GROUP_ALIGNMENT` (R81). -/
theorem validateGroupAlignment_error {first : Chan} {l2w : Nat} {e : ErrorKind}
    (h : validateGroupAlignment first l2w = .error e) : e = .preconditionError ∨ e = .alignmentError := by
  simp only [validateGroupAlignment] at h
  split at h
  · cases h; exact .inl rfl
  · split at h
    · cases h
    · cases h; exact .inr rfl

/-- The errors of `SET_GROUP` (R101). -/
theorem groupWrite_error {c : Config} {first : Chan} {n : BitVec 6} {fs : List Volt} {e : ErrorKind}
    (h : groupWrite c first n fs = .error e) :
    e = .preconditionError ∨ e = .alignmentError ∨ ∃ k, e = .rangeError k := by
  simp only [groupWrite] at h
  split at h
  · cases h
    rcases validateGroupAlignment_error ‹_› with h | h
    · exact .inl h
    · exact .inr (.inl h)
  · split at h
    · cases h; exact .inl rfl
    · split at h
      · cases h
        rcases packGroup_error ‹_› with h | h
        · exact .inl h
        · exact .inr (.inr h)
      · cases h

/-- The errors of `CIC_QUANTIZE` (R90). -/
theorem cicQuantize_error {rate : Int} {e : ErrorKind} (h : cicQuantize rate = .error e) :
    e = .preconditionError ∨ e = .rangeError 0 := by
  simp only [cicQuantize] at h
  split at h
  · cases h; exact .inr rfl
  · split at h
    · cases h; exact .inl rfl
    · cases h

/-- Everything a command's meaning is made of, for all states of one configuration at once: it ends in error,
with UnsupportedOperation exactly for `READ`; or it completes, with the mirror it computes from the mirror, ports
that report no error, and events that depend on nothing but the command and the configuration. -/
theorem exec_uniform (i : Instr) (c : Config) :
    (∃ e, (e = .unsupportedOperation ↔ ∃ addr, i = .read addr) ∧
      ∀ s : State, s.config = c → exec i s = raiseError s e) ∨
    (∃ (mirror : LevelRegs → LevelRegs) (ports : Nat → ResultPorts) (events : List Event),
      (∀ addr, i ≠ .read addr) ∧ (∀ n, (ports n).err = 0 ∧ (ports n).errInfo = 0) ∧
      ∀ s : State, s.config = c → exec i s = complete (s.withMirror (mirror s.mirror)) (ports s.draws) events) := by
  cases i with
  | setChannel chan volt =>
    cases h : voltageToMu c volt with
    | error e =>
      refine .inl ⟨e, by simp [voltageToMu_error h], fun s hs => ?_⟩
      simp only [exec, execSetChannel, hs, h]; rfl
    | ok mu =>
      refine .inr ⟨id, okPorts, [.wn (dataAddress c chan) (dataWord mu)], by simp, fun _ => ⟨rfl, rfl⟩, fun s hs => ?_⟩
      simp only [exec, execSetChannel, hs, h]; rfl
  | setGroup chan nvolt volts =>
    cases h : groupWrite c chan nvolt volts with
    | error e =>
      refine .inl ⟨e, by rcases groupWrite_error h with rfl | rfl | ⟨_, rfl⟩ <;> simp, fun s hs => ?_⟩
      simp only [exec, execSetGroup, hs, h]; rfl
    | ok words =>
      refine .inr ⟨id, okPorts, [.ww (dataAddress c chan) words], by simp, fun _ => ⟨rfl, rfl⟩, fun s hs => ?_⟩
      simp only [exec, execSetGroup, hs, h]; rfl
  | stageCic rate =>
    cases h : cicQuantize (rateValue rate) with
    | error e =>
      refine .inl ⟨e, by rcases cicQuantize_error h with rfl | rfl <;> simp, fun s hs => ?_⟩
      simp only [exec, execStageCic, h]; rfl
    | ok r =>
      refine .inr ⟨fun m => { m with stagedCic := some (cicFields (cicWord r)) },
        fun n => { okPorts n with resCic := cicWord r, resRate := cicRate r },
        [.wn (globalAddress c 0x26) ((cicWord r).setWidth 32)], by simp, fun _ => ⟨rfl, rfl⟩, fun s hs => ?_⟩
      simp only [exec, execStageCic, hs, h]; rfl
  | voltageToMu volt =>
    cases h : voltageToMu c volt with
    | error e =>
      refine .inl ⟨e, by simp [voltageToMu_error h], fun s hs => ?_⟩
      simp only [exec, execVoltageToMu, hs, h]; rfl
    | ok mu =>
      refine .inr ⟨id, fun n => { okPorts n with resMu := mu }, [], by simp, fun _ => ⟨rfl, rfl⟩, fun s hs => ?_⟩
      simp only [exec, execVoltageToMu, hs, h]; rfl
  | packGroup nvolt volts =>
    cases h : packGroup c nvolt volts with
    | error e =>
      refine .inl ⟨e, by rcases packGroup_error h with rfl | ⟨_, rfl⟩ <;> simp, fun s hs => ?_⟩
      simp only [exec, execPackGroup, hs, h]; rfl
    | ok words =>
      refine .inr ⟨id, fun n => { okPorts n with
        resNwords := BitVec.ofNat 5 words.length, resWords := wordsPort words n }, [], by simp,
        fun _ => ⟨rfl, rfl⟩, fun s hs => ?_⟩
      simp only [exec, execPackGroup, hs, h]; rfl
  | validateGroupAlignment chan l2w =>
    cases h : validateGroupAlignment chan l2w.toNat with
    | error e =>
      refine .inl ⟨e, by rcases validateGroupAlignment_error h with rfl | rfl <;> simp, fun s hs => ?_⟩
      simp only [exec, execValidateGroupAlignment, h]; rfl
    | ok u =>
      refine .inr ⟨id, okPorts, [], by simp, fun _ => ⟨rfl, rfl⟩, fun s hs => ?_⟩
      simp only [exec, execValidateGroupAlignment, h]; rfl
  | cicQuantize rate =>
    cases h : cicQuantize (rateValue rate) with
    | error e =>
      refine .inl ⟨e, by rcases cicQuantize_error h with rfl | rfl <;> simp, fun s hs => ?_⟩
      simp only [exec, execCicQuantize, h]; rfl
    | ok r =>
      refine .inr ⟨id, fun n => { okPorts n with resCic := cicWord r, resRate := cicRate r }, [], by simp,
        fun _ => ⟨rfl, rfl⟩, fun s hs => ?_⟩
      simp only [exec, execCicQuantize, h]; rfl
  | encode chan offs =>
    exact .inr ⟨id, fun n => { okPorts n with resAddr := encodeAddress chan offs }, [], by simp,
      fun _ => ⟨rfl, rfl⟩, fun s hs => rfl⟩
  | update mask =>
    exact .inr ⟨id, okPorts, [.wn (globalAddress c 0x20) mask], by simp, fun _ => ⟨rfl, rfl⟩, fun s hs => hs ▸ rfl⟩
  | applyCic mask =>
    exact .inr ⟨id, okPorts, [.wn (globalAddress c 0x27) mask], by simp, fun _ => ⟨rfl, rfl⟩, fun s hs => hs ▸ rfl⟩
  | delay dur => exact .inr ⟨id, okPorts, [.dl dur], by simp, fun _ => ⟨rfl, rfl⟩, fun s hs => rfl⟩
  | setHold mask =>
    exact .inr ⟨fun m => { m with holdMask := some mask }, okPorts, [.wn (globalAddress c 0x21) mask], by simp,
      fun _ => ⟨rfl, rfl⟩, fun s hs => hs ▸ rfl⟩
  | setCfg reset afePowerDown dacClr clrErr =>
    exact .inr ⟨fun m => { m with cfg := some ⟨reset, afePowerDown, dacClr, clrErr⟩ }, okPorts,
      [.wn (globalAddress c 0x22) (cfgWord ⟨reset, afePowerDown, dacClr, clrErr⟩)], by simp,
      fun _ => ⟨rfl, rfl⟩, fun s hs => hs ▸ rfl⟩
  | setLeds led =>
    exact .inr ⟨fun m => { m with leds := some led }, okPorts, [.wn (globalAddress c 0x23) (ledWord led)], by simp,
      fun _ => ⟨rfl, rfl⟩, fun s hs => hs ▸ rfl⟩
  | setContinuous mask =>
    exact .inr ⟨fun m => { m with continuousMask := some mask }, okPorts, [.wn (globalAddress c 0x25) mask], by simp,
      fun _ => ⟨rfl, rfl⟩, fun s hs => hs ▸ rfl⟩
  | initialise =>
    exact .inr ⟨fun _ => initMirror, okPorts, initEvents c, by simp, fun _ => ⟨rfl, rfl⟩, fun s hs => hs ▸ rfl⟩
  | read addr => exact .inl ⟨.unsupportedOperation, by simp, fun s hs => rfl⟩

end Sys2Proof.Machine
end

