-- ==== Sys2Proof/Laws/Cic.lean ====
section
/-! SUPPORT. The loops of `CIC_QUANTIZE`, and what it returns for a rate in range. -/

namespace Sys2Proof.Machine

/-- Step 2 halves until at most 64 is left, and no further. -/
theorem shiftDown_spec (fuel m e : Nat) (h : m ≤ 64 * 2 ^ fuel) :
    ∃ k, shiftDown fuel m e = (m / 2 ^ k, e + k) ∧ m / 2 ^ k ≤ 64 ∧ ∀ j < k, 64 < m / 2 ^ j := by
  induction fuel generalizing m e with
  | zero => exact ⟨0, by simp [shiftDown], by simpa using h, by omega⟩
  | succ fuel ih =>
    simp only [shiftDown, mantMax]
    by_cases hm : 64 < m
    · rw [if_pos hm]
      have hs : m >>> 1 = m / 2 := by simp [Nat.shiftRight_eq_div_pow]
      obtain ⟨k, hk, hle, hlt⟩ := ih (m >>> 1) (e + 1) (by rw [hs, Nat.pow_succ] at *; omega)
      have hdiv : ∀ j, m >>> 1 / 2 ^ j = m / 2 ^ (j + 1) := by
        intro j; rw [hs, Nat.div_div_eq_div_mul, Nat.pow_succ, Nat.mul_comm]
      refine ⟨k + 1, ?_, ?_, ?_⟩
      · rw [hk, hdiv, Nat.add_assoc, Nat.add_comm 1 k]
      · rwa [← hdiv]
      · intro j hj
        cases j with
        | zero => simpa using hm
        | succ j => rw [← hdiv]; exact hlt j (by omega)
    · rw [if_neg hm]
      exact ⟨0, by simp, by simp; omega, by omega⟩

/-- Step 4 finds the least exponent whose power of two reaches the gain. -/
theorem leastGain_spec (fuel gain g : Nat) (h : gain ≤ 2 ^ (g + fuel)) :
    gain ≤ 2 ^ leastGain fuel gain g ∧ g ≤ leastGain fuel gain g ∧
    ∀ j, g ≤ j → j < leastGain fuel gain g → 2 ^ j < gain := by
  induction fuel generalizing g with
  | zero => exact ⟨by simpa [leastGain] using h, by simp [leastGain], by simp [leastGain]; omega⟩
  | succ fuel ih =>
    simp only [leastGain, Nat.one_shiftLeft]
    split
    · rename_i hg
      obtain ⟨h1, h2, h3⟩ := ih (g + 1) (by rw [Nat.add_assoc, Nat.add_comm 1 fuel]; exact h)
      refine ⟨h1, by omega, fun j hj hlt => ?_⟩
      rcases Nat.eq_or_lt_of_le hj with rfl | hj
      · exact hg
      · exact h3 j hj hlt
    · exact ⟨by omega, le_refl _, by omega⟩

/-- A rate out of range is a RangeError (R90, step 1). -/
theorem cicQuantize_range {rate : Int} (h : rate ≤ 0 ∨ 65536 < rate) : cicQuantize rate = .error (.rangeError 0) := by
  simp [cicQuantize, rateMax, h]

/-- What steps 2 to 7 return for a rate in range, with the bounds that keep step 6 from raising. -/
theorem cicQuantize_ok {rate : Nat} (h1 : 1 ≤ rate) (h2 : rate ≤ 65536) :
    ∃ m e g, cicQuantize (rate : Int) =
        .ok { rateMantissa := m - 1, rateExponent := e, gainExponent := g + 3 * e, achieved := m * 2 ^ e } ∧
      m = rate / 2 ^ e ∧ 1 ≤ m ∧ m ≤ 64 ∧ (∀ j < e, 64 < rate / 2 ^ j) ∧ e ≤ 10 ∧
      m ^ 3 ≤ 2 ^ g ∧ (∀ j < g, 2 ^ j < m ^ 3) ∧ g ≤ 18 := by
  obtain ⟨e, hs, hle, hlt⟩ := shiftDown_spec 32 rate 0 (by omega)
  have he : e ≤ 10 := by
    by_contra hc
    have := hlt 10 (by omega)
    omega
  have hm1 : 1 ≤ rate / 2 ^ e := by
    rcases Nat.eq_zero_or_pos e with rfl | hpos
    · simpa using h1
    · have := hlt (e - 1) (by omega)
      obtain ⟨k, rfl⟩ : ∃ k, e = k + 1 := ⟨e - 1, by omega⟩
      rw [Nat.add_sub_cancel] at this
      rw [Nat.pow_succ, ← Nat.div_div_eq_div_mul]
      omega
  generalize hm : rate / 2 ^ e = m at *
  have hcube : m * m * m = m ^ 3 := by ring
  have hgain : m ^ 3 ≤ 2 ^ 18 := by
    calc m ^ 3 ≤ 64 ^ 3 := Nat.pow_le_pow_left hle 3
      _ = 2 ^ 18 := by norm_num
  obtain ⟨g1, -, g3⟩ := leastGain_spec 32 (m ^ 3) 0 (le_trans hgain (Nat.pow_le_pow_right (by norm_num) (by norm_num)))
  generalize hgdef : leastGain 32 (m ^ 3) 0 = g at *
  have hg : g ≤ 18 := by
    by_contra hc
    have := g3 18 (by omega) (by omega)
    omega
  refine ⟨m, e, g, ?_, hm.symm, hm1, hle, hlt, he, g1, fun j hj => g3 j (by omega) hj, hg⟩
  have hr : ¬((rate : Int) ≤ 0 ∨ rateMax < (rate : Int)) := by simp only [rateMax]; omega
  have hge : ¬(gainExpMax < g + order * e) := by simp only [gainExpMax, order]; omega
  simp only [cicQuantize, if_neg hr, Int.toNat_natCast, hs, hcube, hgdef, Nat.zero_add, if_neg hge,
    Nat.shiftLeft_eq]

/-- `a | b << n` is a sum where `a` fits below bit `n`. -/
theorem or_shiftLeft_eq_add {a n : Nat} (b : Nat) (h : a < 2 ^ n) : a ||| (b <<< n) = a + 2 ^ n * b := by
  rw [Nat.or_comm, ← Nat.shiftLeft_add_eq_or_of_lt h, Nat.shiftLeft_eq, Nat.add_comm, Nat.mul_comm]

/-- The config word as a number, where every field fits. -/
theorem cicWord_toNat {r : CicResult} (hm : r.rateMantissa < 64) (he : r.rateExponent < 16) (hg : r.gainExponent < 64) :
    (cicWord r).toNat = r.rateMantissa + 64 * r.rateExponent + 1024 * r.gainExponent := by
  have h1 := or_shiftLeft_eq_add (n := 6) r.rateExponent (by simpa using hm)
  have h2 := or_shiftLeft_eq_add (a := r.rateMantissa + 2 ^ 6 * r.rateExponent) (n := 10) r.gainExponent (by omega)
  rw [cicWord, h1, h2, BitVec.toNat_ofNat]
  omega

/-- The fields of a config word are what it was made of (R57, R94). -/
theorem cicFields_cicWord {r : CicResult} (hm : r.rateMantissa < 64) (he : r.rateExponent < 16)
    (hg : r.gainExponent < 64) :
    cicFields (cicWord r) =
      { rateMantissa := BitVec.ofNat 6 r.rateMantissa, rateExponent := BitVec.ofNat 4 r.rateExponent,
        gainExponent := BitVec.ofNat 6 r.gainExponent } := by
  simp only [cicFields, CicConfig.mk.injEq]
  refine ⟨?_, ?_, ?_⟩ <;> apply BitVec.eq_of_toNat_eq <;>
    rw [BitVec.extractLsb'_toNat, cicWord_toNat hm he hg, Nat.shiftRight_eq_div_pow, BitVec.toNat_ofNat] <;> omega

end Sys2Proof.Machine
end

