-- ==== Sys2Proof/Laws/Decode.lean ====
section
/-! SUPPORT. A field pushed below other bits is read back, and the bits above it come back too. -/

namespace Sys2Proof

@[simp] theorem fieldAt_pushField {w : Nat} (field : BitVec w) (rest : Nat) :
    fieldAt w (pushField field rest) = field := by
  apply BitVec.eq_of_toNat_eq
  have := field.isLt
  rw [fieldAt, pushField, BitVec.toNat_ofNat, Nat.add_mul_mod_self_left, Nat.mod_eq_of_lt this]

theorem pushField_div {w : Nat} (field : BitVec w) (rest : Nat) : pushField field rest / 2 ^ w = rest := by
  have := field.isLt
  rw [pushField, Nat.add_mul_div_left _ _ (Nat.two_pow_pos w), Nat.div_eq_of_lt this, Nat.zero_add]

/-- The bits above a pushed field, further up. -/
theorem pushField_div_add {w : Nat} (field : BitVec w) (rest k : Nat) :
    pushField field rest / 2 ^ (w + k) = rest / 2 ^ k := by
  rw [Nat.pow_add, ← Nat.div_div_eq_div_mul, pushField_div]

/-- Voltage ports packed into a number come back. -/
theorem unpackVolts_packVolts (vs : List Volt) : unpackVolts vs.length (packVolts vs) = vs := by
  induction vs with
  | nil => rfl
  | cons v vs ih => simp only [List.length_cons, unpackVolts, packVolts, fieldAt_pushField, pushField_div, ih]

@[simp] theorem length_voltPorts (volts : List Volt) : (voltPorts volts).length = 32 := by
  simp [voltPorts]; omega

/-- The number of the ports that a command reads is at most 32. -/
theorem suppliedVolts_le (n : BitVec 6) : suppliedVolts n ≤ 32 := Nat.min_le_right _ _

/-- A voltage put on the ports is read from its own port. -/
theorem voltPorts_getD {volts : List Volt} {k : Nat} (hl : volts.length ≤ 32) (hk : k < volts.length) :
    (voltPorts volts).getD k 0 = volts.getD k 0 := by
  have h : (List.take 32 volts) = volts := List.take_of_length_le hl
  rw [voltPorts, h, List.getD_append _ _ _ _ hk]

end Sys2Proof
end

