-- ==== Sys2Proof/Laws/Device.lean ====
section
/-! SUPPORT. The device at a frame boundary. -/

namespace Sys2Proof.Machine

/-- Where nothing changed in the frame there is nothing to choose. -/
@[simp] theorem seen_same {α : Type} [DecidableEq α] (point : OpenPoint) (draw index : Nat) (v : α) :
    seen point draw index v v = v := by simp [seen]

@[simp] theorem landLevels_nil (regs : LevelRegs) : landLevels [] regs = regs := rfl

/-- The writes of one buffer after those of another. -/
theorem landLevels_append (bs cs : List Buffered) (regs : LevelRegs) :
    landLevels (bs ++ cs) regs = landLevels cs (landLevels bs regs) := by
  induction bs generalizing regs with
  | nil => rfl
  | cons b bs ih => exact ih _

/-- One more delivered write. -/
@[simp] theorem landLevels_concat (bs : List Buffered) (b : Buffered) (regs : LevelRegs) :
    landLevels (bs ++ [b]) regs = landLevel (landLevels bs regs) b.write := landLevels_append bs [b] regs

@[simp] theorem frameBoundary_buffer (c : Config) (draw : Nat) (d : Device) :
    (frameBoundary c draw d).buffer = [] := rfl
@[simp] theorem frameBoundary_levels (c : Config) (draw : Nat) (d : Device) :
    (frameBoundary c draw d).levels = landLevels d.buffer d.levels := rfl

/-- A delay of at least one FramePeriod passes a boundary. -/
theorem framesCrossed_pos {now dur : Nat} (h : tFrame ≤ dur) : 1 ≤ framesCrossed now dur := by
  simp only [tFrame, framesCrossed] at *
  omega

/-- A delay of exactly one FramePeriod passes exactly one boundary, wherever the boundaries lie. -/
@[simp] theorem framesCrossed_tFrame (now : Nat) : framesCrossed now tFrame = 1 := by
  simp only [tFrame, framesCrossed]
  omega

@[simp] theorem framesCrossed_zero (now : Nat) : framesCrossed now 0 = 0 := by
  simp only [framesCrossed, Nat.add_zero]
  omega

/-- After at least one boundary nothing waits in the buffer. -/
theorem elapseFrames_buffer (c : Config) (draw : Nat) (d : Device) {n : Nat} (h : 1 ≤ n) :
    (elapseFrames c draw d n).buffer = [] := by
  match n, h with
  | 1, _ => rfl
  | _ + 2, _ => rfl

/-- After at least one boundary the level registers hold the last values written. -/
theorem elapseFrames_levels (c : Config) (draw : Nat) (d : Device) {n : Nat} (h : 1 ≤ n) :
    (elapseFrames c draw d n).levels = landLevels d.buffer d.levels := by
  match n, h with
  | 1, _ => rfl
  | _ + 2, _ => rfl

/-- Boundaries or not, what the level registers become once the buffer is empty stays the same. -/
theorem elapseFrames_settled (c : Config) (draw : Nat) (d : Device) (n : Nat) :
    landLevels (elapseFrames c draw d n).buffer (elapseFrames c draw d n).levels = landLevels d.buffer d.levels := by
  match n with
  | 0 => rfl
  | 1 => rfl
  | _ + 2 => rfl

/-- A property of a device that a boundary keeps, and that one boundary establishes. -/
theorem elapseFrames_induct {P Q : Device → Prop} {c : Config} {draw : Nat} {d : Device} {n : Nat} (hd : P d)
    (hfirst : P d → Q (frameBoundary c draw d)) (hnext : ∀ draw' d', Q d' → Q (frameBoundary c draw' d'))
    (h : 1 ≤ n) : Q (elapseFrames c draw d n) := by
  match n, h with
  | 1, _ => exact hfirst hd
  | _ + 2, _ => exact hnext _ _ (hfirst hd)

/-- The channels are handled one by one. -/
theorem frameChannels_getElem? (c : Config) (draw : Nat) (buffer : List Buffered) (old cur : LevelRegs)
    (first : Nat) (xs : List Channel) (k : Nat) :
    (frameChannels c draw buffer old cur first xs)[k]? =
      (xs[k]?).map (frameChannel c draw buffer old cur (first + k)) := by
  induction xs generalizing first k with
  | nil => simp [frameChannels]
  | cons x xs ih =>
    cases k with
    | zero => simp [frameChannels]
    | succ k => simp [frameChannels, ih, Nat.add_assoc, Nat.add_comm 1 k]

/-- One channel at a frame boundary. -/
theorem frameBoundary_channel (c : Config) (draw : Nat) (d : Device) (k : Nat) :
    (frameBoundary c draw d).channels[k]? =
      (d.channels[k]?).map (frameChannel c draw d.buffer d.levels (landLevels d.buffer d.levels) k) := by
  simp [frameBoundary, frameChannels_getElem?]

/-- A stray data write may stage, and does nothing else. -/
@[simp] theorem strayLands_applied (draw index : Nat) (x : Channel) : (strayLands draw index x).applied = x.applied := by
  unfold strayLands; split <;> rfl
@[simp] theorem strayLands_cic (draw index : Nat) (x : Channel) : (strayLands draw index x).cic = x.cic := by
  unfold strayLands; split <;> rfl
@[simp] theorem strayLands_settling (draw index : Nat) (x : Channel) : (strayLands draw index x).settling = x.settling := by
  unfold strayLands; split <;> rfl

/-- No apply-CIC that selects the channel, no transient sample that is newly to come. -/
theorem landWrite_settling {c : Config} {draw channel : Nat} {old : LevelRegs} {start : Channel} {k : Nat}
    {cur : LevelRegs} {w : DeviceWrite} {x : Channel}
    (hw : ∀ mask, w = .applyCic mask → selects mask channel = false) :
    (landWrite c draw channel old start k cur w x).settling = x.settling := by
  cases w <;> simp only [landWrite] <;> (repeat' split) <;> first | rfl | simp only [strayLands_settling]
  rename_i mask h
  exact absurd h (by simp [hw mask rfl])

/-- The transient samples left after a frame boundary. -/
theorem frameChannel_settling (c : Config) (draw : Nat) (buffer : List Buffered) (old cur : LevelRegs) (channel : Nat)
    (x : Channel) :
    (frameChannel c draw buffer old cur channel x).settling =
      (landChannel c draw channel old x 0 old buffer
        { x with settling := agedSettling draw channel x.settling }).settling := by
  simp only [frameChannel]
  generalize landChannel _ _ _ _ _ _ _ _ _ = y
  cases applyDataRace c channel buffer <;> cases quietFrame old buffer <;>
    cases autoUpdates c draw channel buffer old cur x.cic y.cic <;> rfl

/-- A frame starts no transient sample of itself. -/
theorem agedSettling_le {draw channel m : Nat} :
    agedSettling draw channel none = none ∧ ∃ n ≤ m, agedSettling draw channel (some m) = some n := by
  refine ⟨rfl, ?_⟩
  by_cases h : m = 0
  · exact ⟨0, Nat.zero_le _, by simp [agedSettling, h]⟩
  · exact ⟨m - Config.freeNat .outputSamples draw channel, Nat.sub_le _ _, by simp [agedSettling, h]⟩

/-- What is staged after a frame boundary. -/
theorem frameChannel_staged (c : Config) (draw : Nat) (buffer : List Buffered) (old cur : LevelRegs) (channel : Nat)
    (x : Channel) :
    (frameChannel c draw buffer old cur channel x).staged =
      if applyDataRace c channel buffer then some (Config.freeBits 16 .raceStaged draw channel)
      else (landChannel c draw channel old x 0 old buffer
        { x with settling := agedSettling draw channel x.settling }).staged := by
  simp only [frameChannel]
  generalize landChannel _ _ _ _ _ _ _ _ _ = y
  cases applyDataRace c channel buffer <;> cases quietFrame old buffer <;>
    cases autoUpdates c draw channel buffer old cur x.cic y.cic <;> rfl

/-- The applied CIC config after a frame boundary. -/
theorem frameChannel_cic (c : Config) (draw : Nat) (buffer : List Buffered) (old cur : LevelRegs) (channel : Nat)
    (x : Channel) :
    (frameChannel c draw buffer old cur channel x).cic =
      (landChannel c draw channel old x 0 old buffer
        { x with settling := agedSettling draw channel x.settling }).cic := by
  simp only [frameChannel]
  generalize landChannel _ _ _ _ _ _ _ _ _ = y
  cases applyDataRace c channel buffer <;> cases quietFrame old buffer <;>
    cases autoUpdates c draw channel buffer old cur x.cic y.cic <;> rfl

/-- The applied sample after a frame boundary without a race and with no cfg bit active. -/
theorem frameChannel_applied {c : Config} {draw : Nat} {buffer : List Buffered} {old cur : LevelRegs} {channel : Nat}
    {x : Channel} (hr : applyDataRace c channel buffer = false) (hq : quietFrame old buffer = true) :
    (frameChannel c draw buffer old cur channel x).applied =
      let y := landChannel c draw channel old x 0 old buffer
        { x with settling := agedSettling draw channel x.settling }
      if autoUpdates c draw channel buffer old cur x.cic y.cic then y.staged else y.applied := by
  simp only [frameChannel]
  generalize landChannel _ _ _ _ _ _ _ _ _ = y
  simp only [hr, hq]
  cases autoUpdates c draw channel buffer old cur x.cic y.cic <;> rfl

/-- No apply-CIC in the buffer, no race. -/
theorem applyDataRace_eq_false {c : Config} {channel : Nat} {buffer : List Buffered}
    (h : ∀ b ∈ buffer, ∀ mask, b.write ≠ .applyCic mask) : applyDataRace c channel buffer = false := by
  simp only [applyDataRace, List.any_eq_false]
  intro b hb
  split
  · rename_i mask hm; exact absurd hm (h b hb mask)
  · simp

/-- A boundary at which no write takes effect keeps what is staged and the applied config. -/
theorem frameChannel_idle (c : Config) (draw : Nat) (old cur : LevelRegs) (channel : Nat) (x : Channel) :
    (frameChannel c draw [] old cur channel x).staged = x.staged ∧
    (frameChannel c draw [] old cur channel x).cic = x.cic := by
  rw [frameChannel_staged, frameChannel_cic]
  simp [applyDataRace, landChannel]

/-- One write lands alone: the frame's registers are those at its start. -/
theorem landChannel_single (c : Config) (draw channel : Nat) (old : LevelRegs) (start : Channel)
    (b : Buffered) (x : Channel) :
    landChannel c draw channel old start 0 old [b] x =
      landWrite c draw channel old start 0 old b.write x := rfl

/-- An update stages nothing and configures no interpolator. -/
theorem landWrite_update (c : Config) (draw channel : Nat) (old : LevelRegs) (start : Channel) (k : Nat)
    (cur : LevelRegs) (mask : Mask) (x : Channel) :
    (landWrite c draw channel old start k cur (.update mask) x).staged = x.staged ∧
    (landWrite c draw channel old start k cur (.update mask) x).cic = x.cic := by
  simp only [landWrite]
  constructor <;> repeat' split
  all_goals rfl

/-- A write of data stages, and does nothing else. -/
theorem landWrite_data (c : Config) (draw channel : Nat) (old : LevelRegs) (start : Channel) (k : Nat)
    (cur : LevelRegs) {w : DeviceWrite} (hw : (∃ first word, w = .data first word) ∨ ∃ first words, w = .group first words)
    (x : Channel) :
    (landWrite c draw channel old start k cur w x).applied = x.applied ∧
    (landWrite c draw channel old start k cur w x).cic = x.cic := by
  rcases hw with ⟨first, word, rfl⟩ | ⟨first, words, rfl⟩ <;> simp only [landWrite, strayLands] <;> constructor <;>
    (repeat' split) <;> rfl

/-- A narrow write on time and one FramePeriod of delay: the write has landed, and the rest of the list is issued
from a state in which nothing waits. -/
theorem issueEvents_spaced {s : State} {addr : Address} {word : Word} {w : DeviceWrite}
    (hb : s.busPosition ≤ s.now) (hw : narrowWrite s.config addr word = some w) :
    ∃ u, (∀ es, issueEvents s (.wn addr word :: frameDelay :: es) = issueEvents u es) ∧
      u.config = s.config ∧ u.mirror = s.mirror ∧ u.input = s.input ∧ u.busPosition = s.busPosition ∧
      u.now = s.now + tFrame ∧ u.busPosition ≤ u.now ∧ u.draws = s.draws + 2 ∧
      u.regSpace = writeWord s.regSpace addr.toNat word ∧ u.trace = s.trace ++ [.wn addr word, frameDelay] ∧
      u.device = frameBoundary s.config s.draws
        { s.device with buffer := s.device.buffer ++ [{ time := s.now, write := w }] } := by
  refine ⟨(s.delivered (.wn addr word) (writeWord s.regSpace addr.toNat word) w).delayed (BitVec.ofNat 64 tFrame),
    fun es => ?_, rfl, rfl, rfl, rfl, rfl, ?_, rfl, rfl, ?_, ?_⟩
  · simp only [issueEvents, issueEvent_wn hb hw]; rfl
  · simp only [State.delayed_busPosition, State.delivered_busPosition, State.delayed_now, State.delivered_now]; omega
  · simp [frameDelay]
  · have h : (BitVec.ofNat 64 tFrame).toNat = tFrame := rfl
    simp only [State.delayed_device, State.delivered_config, State.delivered_draws, State.delivered_device,
      State.delivered_now, h, framesCrossed_tFrame]
    rfl

end Sys2Proof.Machine
end

