-- ==== Sys2Proof/Laws/PerInstr.lean ====
section
/-! SUPPORT. Statements for every command, proved command by command. `EncodedRecord`: the encoder puts the
command's own code on `cmd_op` and leaves the 32 voltage ports of R51. -/

namespace Sys2Proof.Laws

/-- The record of a command carries its code (R52) on 32 voltage ports (R51). -/
def EncodedRecord.Statement (i : Instr) : Prop := (encode i).cmdOp = opcode i ∧ (encode i).wellFormed = true

theorem EncodedRecord.setChannel (chan : Chan) (volt : Volt) : EncodedRecord.Statement (.setChannel chan volt) :=
  ⟨rfl, by simp [encode, CommandRecord.wellFormed]⟩

theorem EncodedRecord.update (mask : Mask) : EncodedRecord.Statement (.update mask) :=
  ⟨rfl, by simp [encode, CommandRecord.wellFormed, CommandRecord.ofCode]⟩

theorem EncodedRecord.setHold (mask : Mask) : EncodedRecord.Statement (.setHold mask) :=
  ⟨rfl, by simp [encode, CommandRecord.wellFormed, CommandRecord.ofCode]⟩

theorem EncodedRecord.setCfg (reset afePowerDown dacClr clrErr : Bool) :
    EncodedRecord.Statement (.setCfg reset afePowerDown dacClr clrErr) :=
  ⟨rfl, by simp [encode, CommandRecord.wellFormed, CommandRecord.ofCode]⟩

theorem EncodedRecord.setLeds (led : BitVec 8) : EncodedRecord.Statement (.setLeds led) :=
  ⟨rfl, by simp [encode, CommandRecord.wellFormed, CommandRecord.ofCode]⟩

theorem EncodedRecord.setContinuous (mask : Mask) : EncodedRecord.Statement (.setContinuous mask) :=
  ⟨rfl, by simp [encode, CommandRecord.wellFormed, CommandRecord.ofCode]⟩

theorem EncodedRecord.stageCic (rate : BitVec 32) : EncodedRecord.Statement (.stageCic rate) :=
  ⟨rfl, by simp [encode, CommandRecord.wellFormed, CommandRecord.ofCode]⟩

theorem EncodedRecord.applyCic (mask : Mask) : EncodedRecord.Statement (.applyCic mask) :=
  ⟨rfl, by simp [encode, CommandRecord.wellFormed, CommandRecord.ofCode]⟩

theorem EncodedRecord.setGroup (chan : Chan) (nvolt : BitVec 6) (volts : List Volt) :
    EncodedRecord.Statement (.setGroup chan nvolt volts) :=
  ⟨rfl, by simp [encode, CommandRecord.wellFormed]⟩

theorem EncodedRecord.initialise : EncodedRecord.Statement .initialise :=
  ⟨rfl, by simp [encode, CommandRecord.wellFormed, CommandRecord.ofCode]⟩

theorem EncodedRecord.delay (dur : Duration) : EncodedRecord.Statement (.delay dur) :=
  ⟨rfl, by simp [encode, CommandRecord.wellFormed, CommandRecord.ofCode]⟩

theorem EncodedRecord.voltageToMu (volt : Volt) : EncodedRecord.Statement (.voltageToMu volt) :=
  ⟨rfl, by simp [encode, CommandRecord.wellFormed]⟩

theorem EncodedRecord.packGroup (nvolt : BitVec 6) (volts : List Volt) :
    EncodedRecord.Statement (.packGroup nvolt volts) :=
  ⟨rfl, by simp [encode, CommandRecord.wellFormed]⟩

theorem EncodedRecord.encode (chan : Chan) (offs : BitVec 8) : EncodedRecord.Statement (.encode chan offs) :=
  ⟨rfl, by simp [Sys2Proof.encode, CommandRecord.wellFormed, CommandRecord.ofCode]⟩

theorem EncodedRecord.validateGroupAlignment (chan : Chan) (l2w : BitVec 3) :
    EncodedRecord.Statement (.validateGroupAlignment chan l2w) :=
  ⟨rfl, by simp [Sys2Proof.encode, CommandRecord.wellFormed, CommandRecord.ofCode]⟩

theorem EncodedRecord.cicQuantize (rate : BitVec 32) : EncodedRecord.Statement (.cicQuantize rate) :=
  ⟨rfl, by simp [Sys2Proof.encode, CommandRecord.wellFormed, CommandRecord.ofCode]⟩

theorem EncodedRecord.read (addr : Address) : EncodedRecord.Statement (.read addr) :=
  ⟨rfl, by simp [Sys2Proof.encode, CommandRecord.wellFormed, CommandRecord.ofCode]⟩

end Sys2Proof.Laws
end

