-- ==== Sys2Proof/Laws/Voltage.lean ====
section
/-! SUPPORT. The quantizer's integer arithmetic, as rational arithmetic: the value of a ratio, of a binary64
datum, and of the rounding; packing and filling. -/

namespace Sys2Proof.Machine

/-- The rational number that a ratio stands for. -/
def ratioValue (q : Ratio) : ℚ := (q.num : ℚ) / (q.den : ℚ)

theorem withSign_cast (f : Volt) (m : Nat) : ((withSign f m : Int) : ℚ) = (if f.getLsbD 63 then -1 else 1) * (m : ℚ) := by
  simp only [withSign]; split <;> simp

theorem signedScaled_den_pos (f : Volt) (m : Nat) (e : Int) : 0 < (signedScaled f m e).den := by
  simp only [signedScaled]
  split
  · simp
  · split
    · simp
    · exact Nat.two_pow_pos _

/-- `±m * 2^e` as a rational. -/
theorem signedScaled_value (f : Volt) (m : Nat) (e : Int) :
    ratioValue (signedScaled f m e) = (if f.getLsbD 63 then -1 else 1) * ((m : ℚ) * (2 : ℚ) ^ e) := by
  simp only [signedScaled]
  split
  · subst m; simp [ratioValue]
  · split
    · rename_i he
      obtain ⟨k, rfl⟩ := Int.eq_ofNat_of_zero_le he
      simp [ratioValue, withSign_cast]
    · rename_i he
      obtain ⟨k, rfl⟩ : ∃ k : ℕ, e = -(k : Int) := ⟨(-e).toNat, by omega⟩
      simp only [ratioValue, withSign_cast, neg_neg, Int.toNat_natCast, zpow_neg, zpow_natCast, Nat.cast_pow,
        Nat.cast_ofNat]
      ring

/-- `val(f)` as a rational. -/
theorem valueOf_value (f : Volt) :
    ratioValue (valueOf f) =
      (if f.getLsbD 63 then -1 else 1) * ((significand f : ℚ) * (2 : ℚ) ^ ((unitExp f : Int) - 1075)) :=
  signedScaled_value f _ _

/-- `RHA` of the rational that a ratio stands for (R72). -/
theorem roundHalfAway_value (q : Ratio) (hd : 0 < q.den) :
    roundHalfAway q = (SignType.sign (ratioValue q) : ℤ) * ⌊|ratioValue q| + 1 / 2⌋ := by
  obtain ⟨n, d⟩ := q
  have hd' : (0 : ℚ) < (d : ℚ) := by exact_mod_cast hd
  have habs : |ratioValue ⟨n, d⟩| + 1 / 2 = ((2 * n.natAbs + d : ℕ) : ℤ) / ((2 * d : ℕ) : ℚ) := by
    have : |ratioValue ⟨n, d⟩| = (n.natAbs : ℚ) / d := by
      rw [ratioValue, abs_div, abs_of_pos hd', Nat.cast_natAbs, Int.cast_abs]
    rw [this]; push_cast [Nat.cast_natAbs]; field_simp
  have hsign : (SignType.sign (ratioValue ⟨n, d⟩) : ℤ) = n.sign := by
    have : SignType.sign (ratioValue ⟨n, d⟩) = SignType.sign n := by
      rcases lt_trichotomy n 0 with hn | rfl | hn
      · rw [sign_neg hn, sign_neg]
        exact div_neg_of_neg_of_pos (by exact_mod_cast hn) hd'
      · simp [ratioValue]
      · rw [sign_pos hn, sign_pos]
        exact div_pos (by exact_mod_cast hn) hd'
    rw [this, ← Int.sign_eq_sign]
  rw [habs, Rat.floor_intCast_div_natCast, hsign]
  rfl

theorem valueOf_den_pos (f : Volt) : 0 < (valueOf f).den := signedScaled_den_pos f _ _

/-- The conversion with the default parameters, over the rationals (R70, R71, R72). -/
theorem voltageToMu_default {c : Config} (ha : c.voltArith = .exact) (hr : c.rounding = .halfAway) (f : Volt) :
    voltageToMu c f =
      if isFinite f then
        let n := (SignType.sign (16384 * ratioValue (valueOf f) / 5) : ℤ) *
          ⌊|16384 * ratioValue (valueOf f) / 5| + 1 / 2⌋ + 32768
        if n < 0 ∨ 65535 < n then .error (.rangeError 0) else .ok (BitVec.ofNat 16 n.toNat)
      else .error (.rangeError 0) := by
  have hq : ratioValue ⟨kNum * (valueOf f).num, kDen * (valueOf f).den⟩ = 16384 * ratioValue (valueOf f) / 5 := by
    have hd : ((valueOf f).den : ℚ) ≠ 0 := by exact_mod_cast (valueOf_den_pos f).ne'
    simp only [ratioValue]; push_cast; field_simp
  have hpos : 0 < kDen * (valueOf f).den := Nat.mul_pos (by decide) (valueOf_den_pos f)
  simp only [voltageToMu, roundRatio, scaledVoltage, ha, hr]
  rw [roundHalfAway_value _ hpos, hq]

/-- A list of voltages that all convert (R74). -/
theorem convertAll_ok {c : Config} {index : Nat} {fs : List Volt} {mus : List Sample}
    (h : List.Forall₂ (fun f mu => voltageToMu c f = .ok mu) fs mus) : convertAll c index fs = .ok mus := by
  induction h generalizing index with
  | nil => rfl
  | cons hf _ ih => simp only [convertAll, hf, ih]

/-- The lowest voltage that does not convert gives the error its index (R74, R137). -/
theorem convertAll_rejects {c : Config} {index k : Nat} {fs : List Volt} {f : Volt} (hk : fs[k]? = some f)
    (hf : ¬∃ mu, voltageToMu c f = .ok mu) (hj : ∀ j < k, ∀ g, fs[j]? = some g → ∃ mu, voltageToMu c g = .ok mu) :
    convertAll c index fs = .error (.rangeError (BitVec.ofNat 6 (index + k))) := by
  induction fs generalizing index k with
  | nil => simp at hk
  | cons g fs ih =>
    cases k with
    | zero =>
      obtain rfl : g = f := by simpa using hk
      cases hv : voltageToMu c g with
      | error e => simp [convertAll, hv]
      | ok mu => exact absurd ⟨mu, hv⟩ hf
    | succ k =>
      obtain ⟨mu, hv⟩ := hj 0 (Nat.succ_pos k) g rfl
      simp only [convertAll, hv]
      rw [ih (by simpa using hk) (fun j hlt g' hg' => hj (j + 1) (by omega) g' (by simpa using hg')),
        Nat.add_assoc, Nat.add_comm 1 k]

/-- `PACK_GROUP`'s conversion gives one sample a voltage. -/
theorem convertAll_length {c : Config} {index : Nat} {fs : List Volt} {mus : List Sample}
    (h : convertAll c index fs = .ok mus) : mus.length = fs.length := by
  induction fs generalizing index mus with
  | nil => have : [] = mus := by simpa [convertAll] using h
           simp [← this]
  | cons f fs ih =>
    simp only [convertAll] at h
    split at h
    · cases h
    · split at h
      · cases h
      · rename_i ms hms
        cases h
        rw [List.length_cons, List.length_cons, ih hms]

/-- `ceil(n / 2)` words for `n` samples (R74). -/
theorem packPairs_length : (mus : List Sample) → (packPairs mus).length = (mus.length + 1) / 2
  | [] => rfl
  | [_] => by simp [packPairs]
  | _ :: _ :: rest => by
    simp only [packPairs, List.length_cons, packPairs_length rest]
    omega

/-- Word `j` holds the samples `2j` and `2j + 1`, machine-unit 0 where there is none (R74). -/
theorem packPairs_getElem? : (mus : List Sample) → (j : Nat) → j < (mus.length + 1) / 2 →
    (packPairs mus)[j]? = some (groupWord (mus.getD (2 * j) 0) (mus.getD (2 * j + 1) 0))
  | [], j, h => by simp at h
  | [even], j, h => by
    obtain rfl : j = 0 := by simp at h; omega
    rfl
  | even :: odd :: rest, j, h => by
    cases j with
    | zero => rfl
    | succ j =>
      have := packPairs_getElem? rest j (by simp only [List.length_cons] at h; omega)
      simpa [packPairs, Nat.mul_add, Nat.add_right_comm] using this

/-- A GroupWord as a number: the odd sample stands 16 bits up (R56). -/
theorem groupWord_toNat (even odd : Sample) : (groupWord even odd).toNat = even.toNat + 65536 * odd.toNat := by
  have he := even.isLt
  have ho := odd.isLt
  have h1 : (odd.setWidth 32 <<< 16 : Word).toNat = odd.toNat <<< 16 := by
    simp only [BitVec.toNat_shiftLeft, BitVec.toNat_setWidth, Nat.shiftLeft_eq]; omega
  have h2 : (even.setWidth 32 : Word).toNat = even.toNat := by
    simp only [BitVec.toNat_setWidth]; omega
  rw [groupWord, BitVec.toNat_or, h1, h2, Nat.or_comm, ← Nat.shiftLeft_add_eq_or_of_lt he, Nat.shiftLeft_eq]
  omega

/-- A filled group has `NWORDS` words (R75). -/
theorem fillGroup_length {c : Config} {words : List Word} (h : words.length ≤ groupWords c) :
    (fillGroup c words).length = groupWords c := by
  simp only [fillGroup, List.length_append, List.length_replicate]; omega

/-- The alignment test on a power of two is a remainder (R81, C8). -/
theorem groupAligned_iff (first : Chan) (l2w : Nat) : groupAligned first l2w = true ↔ first.toNat % 2 ^ l2w = 0 := by
  simp [groupAligned, Nat.one_shiftLeft, Nat.and_two_pow_sub_one_eq_mod]

end Sys2Proof.Machine
end

