-- ==== Sys2Proof/Tests/Slice0.lean ====
section
/-! SUPPORT. Tests: ill-formed commands are refused; every command's record, written out port by port from
spec/30_encoding.md R51 and R52, decodes to it; one or two vectors of spec/95_test_vectors.md for each command; and,
for every statement with hypotheses, a state and operands that meet them. Expected values are the spec's. -/

namespace Sys2Proof.Tests

open Sys2Proof Sys2Proof.Machine Sys2Proof.Claims

/-- What a next state shows, if there is one. -/
def shows {α : Type} (o : Host.Outcome State Fault Refusal) (f : State → α) : Option α :=
  match o with
  | .next t => some (f t)
  | .fault _ => none
  | .refused _ => none

/-- Reset of a block of `LOG2_WIDTH = k`. -/
def block (k : Fin 6) : State := State.fresh (Config.standard k)

/-- 1.0, -1.0, 0.5, 2.5, 10.0, -10.0 as binary64 (95_test_vectors.md, V3 to V6, V18, V19). -/
def one : Volt := 0x3FF0000000000000
def negOne : Volt := 0xBFF0000000000000
def half : Volt := 0x3FE0000000000000
def twoAndHalf : Volt := 0x4004000000000000
def ten : Volt := 0x4024000000000000
def negTen : Volt := 0xC024000000000000
/-- The largest accepted voltage that V14 names. -/
def top : Volt := 0x4023FFEBFFFFFFFD
/-- Plus infinity (V32). -/
def infinity : Volt := 0x7FF0000000000000

/-! ### Well-formedness -/

theorem test_wf_group_too_few : (Instr.setGroup 0 2 [one]).wellFormed = false := by decide
theorem test_wf_group_too_many : (Instr.setGroup 0 63 (List.replicate 33 one)).wellFormed = false := by decide
theorem test_wf_pack_too_few : (Instr.packGroup 1 []).wellFormed = false := by decide
theorem test_wf_record_ports : { CommandRecord.ofCode 0x41 with volt := List.replicate 31 0 }.wellFormed = false := by
  decide
theorem test_wf_group : (Instr.setGroup 0 2 [one, negOne]).wellFormed = true := by decide

/-! ### Decoding: the ports written out, R51 and R52 -/

theorem test_decode_set_channel :
    decode { CommandRecord.ofCode 0x00 with chan := 5, volt := twoAndHalf :: List.replicate 31 0 } =
      .ok (.setChannel 5 twoAndHalf) := by decide
theorem test_decode_update : decode { CommandRecord.ofCode 0x20 with mask := 0xF } = .ok (.update 0xF) := by decide
theorem test_decode_set_hold :
    decode { CommandRecord.ofCode 0x21 with mask := 0xFFFF0000 } = .ok (.setHold 0xFFFF0000) := by decide
/-- `cfgbits` bit 3 is `clr_err`, bit 1 `afe_power_down`. -/
theorem test_decode_set_cfg :
    decode { CommandRecord.ofCode 0x22 with cfgbits := 0b1010 } = .ok (.setCfg false true false true) := by decide
theorem test_decode_set_leds : decode { CommandRecord.ofCode 0x23 with led := 0x81 } = .ok (.setLeds 0x81) := by decide
theorem test_decode_set_continuous :
    decode { CommandRecord.ofCode 0x25 with mask := 1 } = .ok (.setContinuous 1) := by decide
theorem test_decode_stage_cic : decode { CommandRecord.ofCode 0x26 with rate := 0x64 } = .ok (.stageCic 100) := by decide
theorem test_decode_apply_cic : decode { CommandRecord.ofCode 0x27 with mask := 1 } = .ok (.applyCic 1) := by decide
theorem test_decode_set_group :
    decode { CommandRecord.ofCode 0x40 with nvolt := 3, volt := one :: negOne :: half :: List.replicate 29 0 } =
      .ok (.setGroup 0 3 [one, negOne, half]) := by decide
theorem test_decode_initialize : decode (CommandRecord.ofCode 0x41) = .ok .initialise := by decide
theorem test_decode_delay : decode { CommandRecord.ofCode 0x42 with dur := 0x188 } = .ok (.delay 392) := by decide
theorem test_decode_voltage_to_mu :
    decode { CommandRecord.ofCode 0x60 with volt := one :: List.replicate 31 0 } = .ok (.voltageToMu one) := by decide
theorem test_decode_pack_group :
    decode { CommandRecord.ofCode 0x61 with nvolt := 1, volt := half :: List.replicate 31 0 } =
      .ok (.packGroup 1 [half]) := by decide
theorem test_decode_encode :
    decode { CommandRecord.ofCode 0x62 with chan := 31, offs := 0x27 } = .ok (.encode 31 0x27) := by decide
theorem test_decode_validate :
    decode { CommandRecord.ofCode 0x63 with chan := 6, l2w := 2 } = .ok (.validateGroupAlignment 6 2) := by decide
theorem test_decode_cic_quantize :
    decode { CommandRecord.ofCode 0x64 with rate := 0x3E8 } = .ok (.cicQuantize 1000) := by decide
theorem test_decode_read : decode { CommandRecord.ofCode 0x80 with addr := 0x21 } = .ok (.read 0x21) := by decide
/-- X7: reserved codes. -/
theorem test_decode_reserved :
    ([0x01, 0x1F, 0x24, 0x28, 0x43, 0x65, 0x81, 0xFF] : List (BitVec 8)).map (fun c => decode (.ofCode c)) =
      ([0x01, 0x1F, 0x24, 0x28, 0x43, 0x65, 0x81, 0xFF] : List (BitVec 8)).map
        (fun c => .error (.illegalCommand c)) := by decide
/-- A whole record as one number: code 0x62, `chan` in bits 12:8, `offs` in bits 20:13 (log entry 9). -/
theorem test_decode_word : decodeTableWord 64 (0x62 + 31 * 2 ^ 8 + 0x27 * 2 ^ 13) = some (.encode 31 0x27) := by decide
/-- The bits above `nbits` are 0. -/
theorem test_decode_word_cut : decodeTableWord 8 (0x62 + 31 * 2 ^ 8) = some (.encode 0 0) := by decide

/-! ### The unit functions: section 2.1 to 2.4 -/

/-- V3, V10, V14, V15 (a tie that rounds out of range), V17, V21 and V22 (ties). -/
theorem test_voltage_to_mu :
    ([one, 0x3FB999999999999A, top, 0x4023FFEC00000000, 0xC024001400000000, 0x3F24000000000000,
      0xBF24000000000000] : List Volt).map (voltageToMu (Config.standard 0)) =
    [.ok 0x8CCD, .ok 0x8148, .ok 0xFFFF, .error (.rangeError 0), .error (.rangeError 0), .ok 0x8001, .ok 0x7FFF] := by
  decide +kernel
/-- V2, V29, V30, V32, V34: negative zero, the smallest subnormal, a huge number, infinity, a NaN. -/
theorem test_voltage_to_mu_extremes :
    ([0x8000000000000000, 1, 0x7E37E43C8800759C, infinity, 0x7FF8000000000000] : List Volt).map
      (fun v => shows (exec (.voltageToMu v) (block 0)) fun t => (t.ports.err, t.trace.length)) =
    [some (0, 0), some (0, 0), some (1, 0), some (1, 0), some (1, 0)] := by decide +kernel
/-- K3. -/
theorem test_pack_group :
    shows (exec (.packGroup 3 [one, negOne, half]) (block 0))
      (fun t => (t.ports.resNwords, t.ports.resWords.take 2)) = some (2, [0x73338CCD, 0x00008666]) := by decide +kernel
/-- K9, K12: the lowest offending index; the count is tested before the voltages. -/
theorem test_pack_group_errors :
    (shows (exec (.packGroup 3 [one, ten, 0x4026000000000000]) (block 0)) (fun t => (t.ports.err, t.ports.errInfo)),
      shows (exec (.packGroup 33 (List.replicate 32 infinity)) (block 0)) (fun t => (t.ports.err, t.ports.errInfo))) =
    (some (1, 1), some (4, 0)) := by decide +kernel
/-- A4, A5. -/
theorem test_encode :
    ([(31, 0x27), (31, 0xFF)] : List (Chan × BitVec 8)).map
      (fun x => shows (exec (.encode x.1 x.2) (block 0)) fun t => t.ports.resAddr) =
    [some 0x001F27, some 0x001FFF] := by decide
/-- A8 to A18. -/
theorem test_validate :
    ([(16, 5), (16, 4), (4, 2), (6, 2), (6, 1), (7, 1), (31, 0), (28, 2), (12, 3), (0, 6), (1, 7)] :
      List (Chan × BitVec 3)).map
      (fun x => shows (exec (.validateGroupAlignment x.1 x.2) (block 0)) fun t => t.ports.err) =
    [some 2, some 0, some 0, some 2, some 0, some 2, some 0, some 0, some 2, some 4, some 4] := by decide
/-- Q1, Q10, Q11, Q17, Q18, Q22, Q26, Q28, Q29. -/
theorem test_cic_quantize :
    ([1, 64, 65, 129, 130, 1000, 33791, 52224, 65535] : List (BitVec 32)).map
      (fun r => shows (exec (.cicQuantize r) (block 0)) fun t => (t.ports.resCic, t.ports.resRate)) =
    [some (0x0000, 1), some (0x483F, 64), some (0x485F, 64), some (0x547F, 128), some (0x549F, 128),
      some (0x793D, 992), some (0xB69F, 32768), some (0xC2B2, 52224), some (0xC2BE, 64512)] := by decide +kernel
/-- Q30 to Q34. -/
theorem test_cic_quantize_errors :
    ([0, 0xFFFFFFFF, 65537, 0x80000000, 2147483647] : List (BitVec 32)).map
      (fun r => shows (exec (.cicQuantize r) (block 0)) fun t => t.ports.err) =
    [some 1, some 1, some 1, some 1, some 1] := by decide +kernel

/-! ### The device commands: sections 2.5 and 2.6 -/

/-- M1. -/
theorem test_set_channel :
    shows (exec (.setChannel 5 twoAndHalf) (block 0)) (fun t => (t.trace, t.mirror)) =
      some ([.wn 0x000500 0x0000A000], LevelRegs.unwritten) := by decide +kernel
/-- M3. -/
theorem test_set_channel_range :
    shows (exec (.setChannel 0 ten) (block 0)) (fun t => (t.ports.err, t.ports.errInfo, t.trace)) =
      some (1, 0, []) := by decide +kernel
/-- M5. -/
theorem test_set_group :
    shows (exec (.setGroup 4 1 [one]) (block 2)) (·.trace) =
      some [.ww 0x000400 [0x00008CCD, 0x00000000]] := by decide +kernel
/-- X2, X3, X4, X8, X10: the order of the tests. -/
theorem test_set_group_errors :
    [shows (exec (.setGroup 2 5 [ten, one, one, one, one]) (block 2)) (fun t => (t.ports.err, t.ports.errInfo)),
      shows (exec (.setGroup 4 5 [ten, one, one, one, one]) (block 2)) (fun t => (t.ports.err, t.ports.errInfo)),
      shows (exec (.setGroup 4 3 [one, ten, ten]) (block 2)) (fun t => (t.ports.err, t.ports.errInfo)),
      shows (exec (.setGroup 3 2 [one, one]) (block 0)) (fun t => (t.ports.err, t.ports.errInfo)),
      shows (exec (.setGroup 16 0 []) (block 5)) (fun t => (t.ports.err, t.ports.errInfo))] =
    [some (2, 0), some (4, 0), some (1, 1), some (4, 0), some (2, 0)] := by decide +kernel
/-- M9. -/
theorem test_update :
    shows (exec (.update 0xF) (block 0)) (fun t => (t.trace, t.mirror)) =
      some ([.wn 0x000020 0x0000000F], LevelRegs.unwritten) := by decide
/-- M10. -/
theorem test_set_hold :
    shows (exec (.setHold 0xFFFF0000) (block 0)) (fun t => (t.trace, t.mirror.holdMask)) =
      some ([.wn 0x000021 0xFFFF0000], some 0xFFFF0000) := by decide
/-- M11. -/
theorem test_set_continuous :
    shows (exec (.setContinuous 1) (block 0)) (fun t => (t.trace, t.mirror.continuousMask)) =
      some ([.wn 0x000025 0x00000001], some 1) := by decide
/-- M12. -/
theorem test_set_leds :
    shows (exec (.setLeds 0x81) (block 0)) (fun t => (t.trace, t.mirror.leds)) =
      some ([.wn 0x000023 0x00000081], some 0x81) := by decide
/-- M13, and the example of R106. -/
theorem test_set_cfg :
    [shows (exec (.setCfg false false false true) (block 0)) (·.trace),
      shows (exec (.setCfg true true false false) (block 0)) (·.trace)] =
    [some [.wn 0x000022 0x00000008], some [.wn 0x000022 0x00000003]] := by decide
/-- M15: the mirror's fields are {61, 4, 30}. -/
theorem test_stage_cic :
    shows (exec (.stageCic 1000) (block 0)) (fun t => (t.trace, t.ports.resCic, t.ports.resRate, t.mirror.stagedCic)) =
      some ([.wn 0x000026 0x0000793D], 0x793D, 992, some ⟨61, 4, 30⟩) := by decide +kernel
/-- X9. -/
theorem test_stage_cic_range :
    shows (exec (.stageCic 65537) (block 0)) (fun t => (t.ports.err, t.trace, t.mirror.stagedCic)) =
      some (1, [], none) := by decide +kernel
/-- M16. -/
theorem test_apply_cic :
    shows (exec (.applyCic 0x80000001) (block 0)) (fun t => (t.trace, t.mirror)) =
      some ([.wn 0x000027 0x80000001], LevelRegs.unwritten) := by decide
/-- M17. -/
theorem test_delay :
    shows (exec (.delay 392) (block 0)) (fun t => (t.trace, t.now)) = some ([.dl 392], 392) := by decide
/-- M19: the first and the last event pair, and `now`. -/
theorem test_initialize :
    shows (exec .initialise (block 0)) (fun t => (t.trace.length, t.trace.take 2, t.trace.drop 12, t.now)) =
      some (14, [.wn 0x000022 8, .dl 392], [.wn 0x000023 0, .dl 392], 2744) := by decide +kernel
/-- M20. -/
theorem test_read :
    shows (exec (.read 0x21) (block 0)) (fun t => (t.ports.err, t.trace, t.mirror)) =
      some (3, [], LevelRegs.unwritten) := by decide

/-- P2, and P2 with its last command early: the hazards that the caller owes the device. -/
theorem test_hazards_kept :
    respectsHazards (Config.standard 2) 0
      [.wn 0x21 0xF, .dl 392, .ww 0 [0x73338CCD, 0x00008666], .dl 392, .wn 0x20 0xF] = true := by decide +kernel
theorem test_hazards_broken :
    respectsHazards (Config.standard 2) 0
      [.wn 0x21 0xF, .dl 392, .ww 0 [0x73338CCD, 0x00008666], .dl 391, .wn 0x20 0xF] = false := by decide +kernel

/-- R157: an update of a channel less than one FramePeriod after its apply-CIC, and one of another channel. -/
theorem test_hazards_apply_then_update :
    ([2, 1] : List Word).map (fun mask => respectsHazards (Config.standard 0) 0 [.wn 0x27 1, .dl 391, .wn 0x20 mask]) =
      [true, false] := by decide +kernel
/-- R168, I7: the data writes of which it is open what they reach. -/
theorem test_strays :
    ([(0, .data 0 0), (2, .data 0 0), (0, .group 0 [0]), (2, .group 0 [0, 0]), (2, .misalignedGroup 1 [0, 0])] :
      List (Fin 6 × DeviceWrite)).map (fun x => strays (Config.standard x.1) x.2) =
    [false, true, true, false, true] := by decide

/-! ### The step -/

/-- The next step runs the command that `withFetchWord` presents, from reset. -/
theorem test_step_runs_word :
    shows (step (State.reset.withFetchWord 8 0x21)) (fun t => (t.trace, t.mirror.holdMask, t.input)) =
      some ([.wn 0x000021 0], some 0, []) := by decide
/-- X6. -/
theorem test_step_reserved :
    shows (step (State.reset.withFetchWord 8 0x24)) (fun t => (t.ports.err, t.trace)) = some (7, []) := by decide
/-- R135: the bus has passed the schedule position. -/
theorem test_step_late :
    step { State.reset with input := [{ record := .ofCode 0x20, elapsed := 1 }] } = .fault .timingUnderflow := rfl

/-! ### Witnesses: voltages -/

theorem rha_of_pos {q : ℚ} {n : ℤ} (h : 0 < q) (h1 : (n : ℚ) ≤ q + 1 / 2) (h2 : q + 1 / 2 < n + 1) : rha q = n := by
  have : ⌊|q| + 1 / 2⌋ = n := by rw [abs_of_pos h]; exact Int.floor_eq_iff.2 ⟨h1, h2⟩
  rw [rha, this, sign_pos h]; simp

theorem rha_of_neg {q : ℚ} {n : ℤ} (h : q < 0) (h1 : (n : ℚ) ≤ -q + 1 / 2) (h2 : -q + 1 / 2 < n + 1) : rha q = -n := by
  have : ⌊|q| + 1 / 2⌋ = n := by rw [abs_of_neg h]; exact Int.floor_eq_iff.2 ⟨h1, h2⟩
  rw [rha, this, sign_neg h]; simp

/-- A normal number's value from its fields. -/
theorem volts_of {f : Volt} {e m : ℕ} {b : Bool} (he : (f.extractLsb' 52 11).toNat = e)
    (hm : (f.extractLsb' 0 52).toNat = m) (hb : f.getLsbD 63 = b) (h0 : e ≠ 0) :
    volts f = (if b then -1 else 1) * ((1 + (m : ℚ) / 2 ^ 52) * (2 : ℚ) ^ ((e : ℤ) - 1023)) := by
  simp only [volts, he, hm, hb, if_neg h0]
  cases b <;> simp

theorem volts_one : volts one = 1 := by
  rw [volts_of (e := 1023) (m := 0) (b := false) (by decide) (by decide) (by decide) (by decide)]; norm_num
theorem volts_ten : volts ten = 10 := by
  rw [volts_of (e := 1026) (m := 0x4000000000000) (b := false) (by decide) (by decide) (by decide) (by decide)]; norm_num
theorem volts_negTen : volts negTen = -10 := by
  rw [volts_of (e := 1026) (m := 0x4000000000000) (b := true) (by decide) (by decide) (by decide) (by decide)]; norm_num
theorem volts_top : volts top = 5629413634867197 / 2 ^ 49 := by
  rw [volts_of (e := 1026) (m := 0x3FFEBFFFFFFFD) (b := false) (by decide) (by decide) (by decide) (by decide)]; norm_num

theorem units_one : machineUnits one = 36045 := by
  rw [machineUnits, volts_one, rha_of_pos (n := 3277)] <;> norm_num
theorem units_ten : machineUnits ten = 65536 := by
  rw [machineUnits, volts_ten, rha_of_pos (n := 32768)] <;> norm_num
theorem units_negTen : machineUnits negTen = 0 := by
  rw [machineUnits, volts_negTen, rha_of_neg (n := 32768)] <;> norm_num
theorem units_top : machineUnits top = 65535 := by
  rw [machineUnits, volts_top, rha_of_pos (n := 32767)] <;> norm_num

theorem accepted_one : accepted one := ⟨by unfold finite; decide, by rw [units_one]; decide⟩
theorem accepted_negTen : accepted negTen := ⟨by unfold finite; decide, by rw [units_negTen]; decide⟩
theorem accepted_top : accepted top := ⟨by unfold finite; decide, by rw [units_top]; decide⟩
theorem rejected_ten : ¬accepted ten := by rintro ⟨-, -, h⟩; rw [units_ten] at h; exact absurd h (by decide)
theorem rejected_infinity : ¬accepted infinity := by rintro ⟨h, -⟩; exact h (by decide)

/-- A block of width `2^k` with the other value of `VOLT_ARITH` and of `ROUND`. -/
def otherArith (k : Fin 6) : State :=
  State.fresh { Config.standard k with voltArith := .binary64, rounding := .halfEven }

theorem one_converts : ∀ k, voltageToMu (Config.standard k) one = .ok 0x8CCD := by decide +kernel
theorem one_converts_other : ∀ k, voltageToMu (otherArith k).config one = .ok 0x8CCD := by decide +kernel
theorem takes_one (k : Fin 6) : takes (Config.standard k) one := ⟨_, one_converts k⟩
theorem takes_one_other (k : Fin 6) : takes (otherArith k).config one := ⟨_, one_converts_other k⟩
theorem not_takes_ten : ¬takes (Config.standard 2) ten := fun ⟨_, h⟩ =>
  nomatch h.symm.trans (show voltageToMu (Config.standard 2) ten = .error (.rangeError 0) by decide +kernel)
theorem not_takes_ten_other : ¬takes (otherArith 2).config ten := fun ⟨_, h⟩ =>
  nomatch h.symm.trans (show voltageToMu (otherArith 2).config ten = .error (.rangeError 0) by decide +kernel)

/-- Equal voltages convert to equal samples. -/
theorem convertsTo_replicate {c : Config} {f : Volt} {mu : Sample} (h : voltageToMu c f = .ok mu) (n : ℕ) :
    convertsTo c (List.replicate n f) (List.replicate n mu) := by
  induction n with
  | zero => exact .nil
  | succ n ih => exact .cons h ih

theorem takes_replicate {c : Config} {f : Volt} (h : takes c f) (n : ℕ) : ∀ g ∈ List.replicate n f, takes c g :=
  fun _ hg => List.eq_of_mem_replicate hg ▸ h

theorem default_standard (k : Fin 6) : defaultArith (Config.standard k) := ⟨rfl, rfl⟩
theorem onTime_block (k : Fin 6) : onTime (block k) := Nat.le_refl 0

/-! ### Witnesses: for each statement with hypotheses, a state and operands that meet them -/

/-- A block behind the bus. -/
def late : State := { block 2 with busPosition := 1 }

/-- A block whose device is settled: nothing held but channel 0, cfg quiet, every interpolator at rate 1. -/
def settled (k : Fin 6) : State :=
  { block k with device := {
      buffer := []
      levels := { holdMask := some 1, continuousMask := some 0, cfg := some ⟨false, false, false, false⟩,
                  stagedCic := none, leds := none }
      channels := List.replicate 32 { staged := none, applied := none, cic := some ⟨0, 0, 0⟩, settling := some 0 }
      errorCount := none } }

/-- The same with channel 31 at rate 2. -/
def nonUnity : State :=
  { settled 0 with device := { (settled 0).device with
      channels := (settled 0).device.channels.set 31
        { staged := none, applied := none, cic := some ⟨1, 0, 3⟩, settling := some 0 } } }

theorem witness_DecodesByCommandCode :
    ([0x00, 0x20, 0x21, 0x22, 0x23, 0x25, 0x26, 0x27, 0x40, 0x41, 0x42, 0x60, 0x61, 0x62, 0x63, 0x64, 0x80] :
      List (BitVec 8)).map (fun c => (CommandRecord.ofCode c).cmdOp) =
    [0x00, 0x20, 0x21, 0x22, 0x23, 0x25, 0x26, 0x27, 0x40, 0x41, 0x42, 0x60, 0x61, 0x62, 0x63, 0x64, 0x80] := by decide

theorem witness_DecodedCommandsAreWellFormed :
    decode { CommandRecord.ofCode 0x61 with nvolt := 63 } = .ok (.packGroup 63 (List.replicate 32 0)) := by decide

theorem witness_DecodeOfEncodedBits : (Instr.setGroup 31 63 (List.replicate 32 ten)).wellFormed = true := by decide

theorem witness_StepRunsTheDecodedCommand :
    ((block 0).withFetchWord 8 0x80).input = [{ record := tableRecord 8 0x80, elapsed := 0 }] ∧
    decode (tableRecord 8 0x80) = .ok (.read 0) := ⟨rfl, by decide⟩

theorem witness_ReservedCodeFailsWithoutEffect :
    (tableRecord 8 0xFF).cmdOp ∉ ([0x00, 0x20, 0x21, 0x22, 0x23, 0x25, 0x26, 0x27, 0x40, 0x41, 0x42, 0x60, 0x61,
      0x62, 0x63, 0x64, 0x80] : List (BitVec 8)) ∧
    ((block 0).withFetchWord 8 0xFF).input = [{ record := tableRecord 8 0xFF, elapsed := 0 }] := ⟨by decide, rfl⟩

/-- The bus ends exactly at the schedule position. -/
theorem witness_StandardBlockAlwaysCompletes :
    let s : State := { block 5 with now := 7, input := [{ record := .ofCode 0x20, elapsed := 7 }] }
    standardConfig s.config ∧ s.input = [{ record := .ofCode 0x20, elapsed := 7 }] ∧ s.busPosition + 7 ≤ s.now :=
  ⟨rfl, rfl, by decide⟩

theorem witness_StandardBlockFaultsOnlyOnUnderflow :
    standardConfig late.config ∧ (Instr.update 0).wellFormed = true ∧
    exec (.update 0) late = .fault .timingUnderflow := ⟨rfl, rfl, rfl⟩

/-- The rate's two bounds, a voltage that is taken and a full group. -/
theorem witness_LateWritesUnderflow :
    late.now < late.busPosition ∧ 1 ≤ (1 : BitVec 32).toInt ∧ (65536 : BitVec 32).toInt ≤ 65536 ∧
    takes late.config one ∧ alignedFirst late.config 28 ∧
    (List.replicate 4 one).length = (4 : BitVec 6).toNat ∧ (4 : BitVec 6).toNat ≤ 2 ^ late.config.log2Width.val ∧
    (∀ f ∈ List.replicate 4 one, takes late.config f) ∧ late.config.initSeq = .standard :=
  ⟨by decide, by decide, by decide, takes_one 2, rfl, rfl, by decide, takes_replicate (takes_one 2) 4, rfl⟩

/-- The data offset 31 with the two words of a group of 4; offsets 0x24 and 0x28. -/
theorem witness_WritesWithoutRegisterFault :
    (let c : Config := { Config.standard 2 with dataOffset := 31 }
     onTime (State.fresh c) ∧ alignedFirst c 28 ∧ ([] : List Volt).length = (0 : BitVec 6).toNat ∧
       (0 : BitVec 6).toNat ≤ 2 ^ c.log2Width.val ∧ (∀ f ∈ ([] : List Volt), takes c f) ∧
       32 < c.dataOffset.toNat + nwords c) ∧
    (let s := State.fresh { Config.standard 0 with initSeq := .custom [.wn 0x000024 0] }
     onTime s ∧ s.config.initSeq = .custom (.wn 0x000024 0 :: []) ∧ (0x000024 : Address).toNat % 256 = 0x24) ∧
    0x28 ≤ (0x000028 : Address).toNat % 256 := by
  refine ⟨⟨Nat.le_refl 0, rfl, rfl, by decide, by simp, by decide⟩, ⟨Nat.le_refl 0, rfl, rfl⟩, by decide⟩

/-- Both parameters at their bounds. -/
theorem witness_ConstructionChecksItsParameters :
    ¬(1 = 1 ∧ 6 ≤ 5) ∧ ¬(2 = 1 ∧ 0 ≤ 5) ∧ (1 = 1 ∧ 5 ≤ 5) ∧ (1 = 1 ∧ 0 ≤ 5) := by decide

/-- The lowest and the highest sample, a voltage just out of range, and a datum that is not finite; and a voltage
that converts and one that does not with the other arithmetic and rounding. -/
theorem witness_VoltageToMuConverts :
    (defaultArith (block 0).config ∧ accepted negTen ∧ accepted top ∧ ¬accepted ten ∧ ¬accepted infinity) ∧
    voltageToMu (otherArith 2).config one = .ok 0x8CCD ∧ ¬takes (otherArith 2).config ten :=
  ⟨⟨default_standard 0, accepted_negTen, accepted_top, rejected_ten, rejected_infinity⟩, one_converts_other 2,
    not_takes_ten_other⟩

theorem witness_AcceptedVoltageInterval : defaultArith (Config.standard 0) := default_standard 0

theorem witness_VoltageToMuMonotone :
    defaultArith (Config.standard 0) ∧ voltageToMu (Config.standard 0) negTen = .ok 0 ∧
    voltageToMu (Config.standard 0) top = .ok 0xFFFF ∧ volts negTen ≤ volts top :=
  ⟨default_standard 0, by decide +kernel, by decide +kernel, by rw [volts_negTen, volts_top]; norm_num⟩

theorem witness_NominalVoltageWithinHalfUnit :
    defaultArith (Config.standard 0) ∧ voltageToMu (Config.standard 0) top = .ok 0xFFFF :=
  ⟨default_standard 0, by decide +kernel⟩

/-- V21: the tie at half a machine unit, which goes to the even sample 0x8000. -/
theorem witness_HalfEvenRoundsTiesToEven :
    let c : Config := { Config.standard 0 with rounding := .halfEven }
    let f : Volt := 0x3F24000000000000
    c.voltArith = .exact ∧ c.rounding = .halfEven ∧ voltageToMu c f = .ok 0x8000 ∧
    |16384 * volts f / 5 + 32768 - ((0x8000 : Sample).toNat : ℚ)| = 1 / 2 := by
  refine ⟨rfl, rfl, by decide +kernel, ?_⟩
  rw [show (0x8000 : Sample).toNat = 32768 from rfl,
    volts_of (e := 1010) (m := 0x4000000000000) (b := false) (by decide) (by decide) (by decide) (by decide)]
  norm_num

/-- No voltage, 32 accepted voltages, 33 on the count, and the last of 32 rejected; 32 voltages that convert with the
other arithmetic and rounding. -/
theorem witness_PackGroupPacksOrRejects :
    convertsTo (otherArith 2).config (List.replicate 32 one) (List.replicate 32 0x8CCD) ∧
    defaultArith (block 2).config ∧ ([] : List Volt).length = min (0 : BitVec 6).toNat 32 ∧
    (List.replicate 32 one).length = min (32 : BitVec 6).toNat 32 ∧ (∀ f ∈ List.replicate 32 one, accepted f) ∧
    (List.replicate 32 one).length = min (33 : BitVec 6).toNat 32 ∧ 32 < (33 : BitVec 6).toNat ∧
    (List.replicate 31 one ++ [ten])[31]? = some ten ∧ ¬takes (block 2).config ten ∧
    (∀ j < 31, ∀ g, (List.replicate 31 one ++ [ten])[j]? = some g → takes (block 2).config g) := by
  refine ⟨convertsTo_replicate (one_converts_other 2) 32, default_standard 2, rfl, rfl, fun f hf => ?_, rfl, by decide,
    rfl, not_takes_ten, fun j hj g hg => ?_⟩
  · rw [List.eq_of_mem_replicate hf]; exact accepted_one
  · rw [List.getElem?_append_left (by simpa using hj)] at hg
    exact takes_replicate (takes_one 2) 31 g (List.mem_of_getElem? hg)

theorem witness_EncodeInjective : encodeAddress 31 0xFF = encodeAddress 31 0xFF := rfl

/-- `l2w` just above and at its bound, a first channel that passes and one that does not. -/
theorem witness_ValidateChecksAlignment :
    5 < (6 : BitVec 3).toNat ∧ (5 : BitVec 3).toNat ≤ 5 ∧ (0 : Chan).toNat &&& (2 ^ (5 : BitVec 3).toNat - 1) = 0 ∧
    (16 : Chan).toNat &&& (2 ^ (5 : BitVec 3).toNat - 1) ≠ 0 := by decide

theorem witness_AlignedGroupsPartitionChannels :
    5 ≤ 5 ∧ 31 < 32 ∧ validateGroupAlignment 0 5 = .ok () ∧ (0 : Chan).toNat ≤ 31 ∧ 31 < (0 : Chan).toNat + 2 ^ 5 := by
  decide

/-- The rates at and beyond the bounds. -/
theorem witness_CicQuantizeApproximatesRate :
    1 ≤ (1 : BitVec 32).toInt ∧ (65536 : BitVec 32).toInt ≤ 65536 ∧ (0 : BitVec 32).toInt ≤ 0 ∧
    65536 < (65537 : BitVec 32).toInt := by decide

theorem witness_CicResultProperties : 1 ≤ 65536 ∧ 65536 ≤ 65536 ∧ 65536 = 2 ^ 16 ∧ 33791 ≤ 65536 := by decide

theorem witness_CicTablesMatch :
    cicQuantize ((65536 : ℕ) : ℤ) = .ok ⟨63, 10, 48, 65536⟩ ∧ cicQuantize ((1 : ℕ) : ℤ) = .ok ⟨0, 0, 0, 1⟩ := by
  decide +kernel

theorem witness_StagedWordDecodesToAchievedRate : cicQuantize 65536 = .ok ⟨63, 10, 48, 65536⟩ := by decide +kernel

theorem witness_SetChannelWritesSample :
    (defaultArith (block 2).config ∧ accepted negTen ∧ accepted top ∧ onTime (block 2) ∧ ¬takes (block 2).config ten) ∧
    voltageToMu (otherArith 2).config one = .ok 0x8CCD ∧ onTime (otherArith 2) ∧ ¬takes (otherArith 2).config ten :=
  ⟨⟨default_standard 2, accepted_negTen, accepted_top, onTime_block 2, not_takes_ten⟩, one_converts_other 2,
    Nat.le_refl 0, not_takes_ten_other⟩

/-- A group of 32, full, with both arithmetics; in groups of 4, a misaligned first channel, five voltages, and a
rejected last one. -/
theorem witness_SetGroupWritesOrRejects :
    (defaultArith (block 5).config ∧ onTime (block 5) ∧ alignedFirst (block 5).config 0 ∧
      (List.replicate 32 one).length = min (32 : BitVec 6).toNat 32 ∧
      (32 : BitVec 6).toNat ≤ 2 ^ (block 5).config.log2Width.val ∧ (∀ f ∈ List.replicate 32 one, accepted f) ∧
      (block 5).config.dataOffset.toNat + nwords (block 5).config ≤ 32) ∧
    (onTime (otherArith 5) ∧ alignedFirst (otherArith 5).config 0 ∧
      (32 : BitVec 6).toNat ≤ 2 ^ (otherArith 5).config.log2Width.val ∧
      convertsTo (otherArith 5).config (List.replicate 32 one) (List.replicate 32 0x8CCD) ∧
      (otherArith 5).config.dataOffset.toNat + nwords (otherArith 5).config ≤ 32) ∧
    ¬alignedFirst (block 2).config 2 ∧ alignedFirst (block 2).config 28 ∧
    2 ^ (block 2).config.log2Width.val < (5 : BitVec 6).toNat ∧ [one, ten][1]? = some ten ∧
    ¬takes (block 2).config ten ∧ (∀ j < 1, ∀ g, [one, ten][j]? = some g → takes (block 2).config g) := by
  refine ⟨⟨default_standard 5, onTime_block 5, rfl, rfl, by decide, fun f hf => ?_, by decide⟩,
    ⟨Nat.le_refl 0, rfl, by decide, convertsTo_replicate (one_converts_other 5) 32, by decide⟩,
    by unfold alignedFirst; decide, rfl, by decide, rfl, not_takes_ten, fun j hj g hg => ?_⟩
  · rw [List.eq_of_mem_replicate hf]; exact accepted_one
  · obtain rfl : j = 0 := by omega
    cases hg; exact takes_one 2

theorem witness_UpdateAndApplyWriteTheirMask : onTime (block 0) := onTime_block 0
theorem witness_LevelMasksAreWrittenAndMirrored : onTime (block 5) := onTime_block 5
theorem witness_SetLedsWritesAndMirrors : onTime (block 1) := onTime_block 1
theorem witness_SetCfgWritesAndMirrors : onTime (block 2) := onTime_block 2

theorem witness_StageCicWritesMirrorsAndReturns :
    1 ≤ (1 : BitVec 32).toInt ∧ (65536 : BitVec 32).toInt ≤ 65536 ∧ onTime (block 3) ∧ (0 : BitVec 32).toInt ≤ 0 ∧
    65536 < (65537 : BitVec 32).toInt := ⟨by decide, by decide, onTime_block 3, by decide, by decide⟩

/-- The standard sequence, with the device-wide registers in page 0 and in page 31, and a custom one of a single
delay. -/
theorem witness_InitializeEmitsItsSequence :
    ((block 4).config.initSeq = .standard ∧ onTime (block 4)) ∧
    (let s := State.fresh { Config.standard 0 with globalBase := 31 }
     s.config.initSeq = .standard ∧ onTime s) ∧
    (let s := State.fresh { Config.standard 0 with initSeq := .custom [.dl 1] }
     s.config.initSeq = .custom [.dl 1] ∧ ∃ t, exec .initialise s = .next t) :=
  ⟨⟨rfl, onTime_block 4⟩, ⟨rfl, Nat.le_refl 0⟩, rfl, _, rfl⟩

theorem witness_InitializeIsItsFourteenCommands : (block 4).config.initSeq = .standard ∧ onTime (block 4) :=
  ⟨rfl, onTime_block 4⟩

theorem witness_UnitFunctionsAreQueries :
    Instr.encode 31 0xFF ∈ [Instr.voltageToMu one, .packGroup 0 [], .encode 31 0xFF, .validateGroupAlignment 0 0,
      .cicQuantize 1] := by decide

theorem witness_ErrorsLeaveNothingBehind : ∃ t, exec (.read 0xFFFFFF) (block 0) = .next t ∧ t.ports.err ≠ 0 :=
  ⟨_, rfl, by decide⟩

/-- An error with a command waiting after it, and one with none. -/
theorem witness_NextCommandAfterErrorIsUnaffected :
    (∃ t u, step (((block 0).withFetchWord 8 0x21).withFetchWord 8 0x80) = .next t ∧ t.ports.err ≠ 0 ∧
      t.input ≠ [] ∧ step t = .next u) ∧
    ∃ t u, step ((block 0).withFetchWord 8 0x80) = .next t ∧ t.ports.err ≠ 0 ∧ t.input = [] ∧ step t = .next u :=
  ⟨⟨_, _, rfl, by decide, by decide, rfl⟩, _, _, rfl, by decide, by decide, rfl⟩

theorem witness_MirrorIsWriteOnly :
    (∃ t, exec (.setHold 1) (block 0) = .next t) ∧ exec (.setHold 1) late = .fault .timingUnderflow :=
  ⟨⟨_, rfl⟩, rfl⟩

theorem witness_OnlyReadIsUnsupported :
    (∃ t, exec (.read 0) (block 0) = .next t) ∧ ∃ t, exec (.delay 0) (block 0) = .next t := ⟨⟨_, rfl⟩, _, rfl⟩

theorem witness_UnmirroredCommandsKeepMirror :
    (∃ t, exec (.update 1) (block 0) = .next t) ∧ (∃ t, exec (.applyCic 1) (block 0) = .next t) ∧
    shows (exec (.setChannel 31 top) (block 0)) (fun _ => ()) = some () ∧
    shows (exec (.setGroup 0 0 []) (block 5)) (fun _ => ()) = some () :=
  ⟨⟨_, rfl⟩, ⟨_, rfl⟩, by decide +kernel, by decide +kernel⟩

theorem witness_LevelWritesAreIdempotent :
    ∃ t u, exec (.setLeds 0xFF) (block 0) = .next t ∧ exec (.setLeds 0xFF) t = .next u := ⟨_, _, rfl, rfl⟩

/-- A step that writes a register, from a state whose register space, trace and schedule are not empty. -/
def running : State :=
  { block 0 with
    now := 392
    trace := [.wn 0x20 1, .dl 392]
    regSpace := [(0x20, 1)]
    input := [{ record := .ofCode 0x21, elapsed := 392 }] }

theorem witness_StepNeverWithdrawsOrGoesBack : ∃ t, step running = .next t := ⟨_, rfl⟩

theorem witness_StepKeepsRegisterSpaceCanonical : memoryWf running.regSpace ∧ ∃ t, step running = .next t :=
  ⟨by decide, _, rfl⟩

theorem witness_StepKeepsTraceLegal : traceLegal running ∧ ∃ t, step running = .next t := by
  refine ⟨⟨rfl, ?_⟩, _, rfl⟩
  intro e he
  simp only [running, List.mem_cons, List.not_mem_nil, or_false] at he
  rcases he with rfl | rfl
  · exact .inr (.inl (.inl rfl))
  · trivial

theorem witness_StepKeepsMirrorTrackingDevice : mirrorTracksDevice running ∧ ∃ t, step running = .next t :=
  ⟨⟨rfl, rfl⟩, _, rfl⟩

theorem witness_StepKeepsTraceExplainingState : traceExplainsState running ∧ ∃ t, step running = .next t := by
  refine ⟨⟨rfl, fun a => rfl, ?_⟩, _, rfl⟩
  intro e he addr words h
  simp only [running, List.mem_cons, List.not_mem_nil, or_false] at he
  rcases he with rfl | rfl <;> cases h

theorem witness_FrameDelayIsABarrier : 392 ≤ (392 : Duration).toNat := by decide

/-- The rate's bounds; a channel the mask selects and one it does not, with a settling count and without one. -/
theorem witness_SpacedApplyCommitsStagedConfig :
    onTime (settled 0) ∧ 1 ≤ (1 : BitVec 32).toInt ∧ (65536 : BitVec 32).toInt ≤ 65536 ∧
    392 ≤ (392 : Duration).toNat ∧ (settled 0).device.buffer = [] ∧
    (∃ x, (settled 0).device.channels[31]? = some x ∧ x.settling = some 0) ∧
    (1 : Mask).getLsbD 0 = true ∧ (1 : Mask).getLsbD 31 = false ∧
    onTime (block 0) ∧ (block 0).device.buffer = [] ∧
    (block 0).device.channels[31]? = some Channel.unwritten ∧ Channel.unwritten.settling = none :=
  ⟨Nat.le_refl 0, by decide, by decide, by decide, rfl, ⟨_, rfl, rfl⟩, by decide, by decide, onTime_block 0, rfl,
    by decide, rfl⟩

theorem settled_live (k : Fin 6) : outputsLive (settled k).device := ⟨_, rfl, rfl, rfl, rfl⟩

theorem settled_unity (k : Fin 6) (ch : ℕ) (h : ch < 32) :
    unityChannel (settled k).device ch { staged := none, applied := none, cic := some ⟨0, 0, 0⟩, settling := some 0 } :=
  ⟨List.getElem?_replicate.trans (if_pos h), _, rfl, ⟨by decide, by decide⟩, by decide⟩

theorem witness_UnheldSampleReachesOutput :
    defaultArith (settled 0).config ∧ accepted negTen ∧ onTime (settled 0) ∧ 392 ≤ (392 : Duration).toNat ∧
    (settled 0).config.log2Width = 0 ∧ (settled 0).device.buffer = [] ∧
    (settled 0).device.levels.holdMask = some 1 ∧ (1 : Mask).getLsbD (31 : Chan).toNat = false ∧
    outputsLive (settled 0).device ∧ ∃ x, unityChannel (settled 0).device (31 : Chan).toNat x :=
  ⟨⟨rfl, rfl⟩, accepted_negTen, Nat.le_refl 0, by decide, rfl, rfl, rfl, by decide, settled_live 0, _,
    settled_unity 0 31 (by decide)⟩

/-- The smallest grouped width, no voltage supplied; and a full group of 32. -/
theorem witness_GroupWriteStagesEveryChannel :
    (defaultArith (block 1).config ∧ onTime (block 1) ∧ 0 < (block 1).config.log2Width.val ∧
      alignedFirst (block 1).config 30 ∧ ([] : List Volt).length = (0 : BitVec 6).toNat ∧
      (0 : BitVec 6).toNat ≤ 2 ^ (block 1).config.log2Width.val ∧ (∀ f ∈ ([] : List Volt), accepted f) ∧
      (block 1).config.dataOffset.toNat + nwords (block 1).config ≤ 32 ∧ 392 ≤ (392 : Duration).toNat ∧
      (block 1).device.buffer = [] ∧ (block 1).device.channels[31]? = some Channel.unwritten) ∧
    (List.replicate 32 one).length = (32 : BitVec 6).toNat ∧ (∀ f ∈ List.replicate 32 one, accepted f) :=
  ⟨⟨default_standard 1, onTime_block 1, by decide, rfl, rfl, by decide, by simp, by decide, by decide, rfl, by decide⟩,
    rfl, fun f hf => by rw [List.eq_of_mem_replicate hf]; exact accepted_one⟩

/-- Channel 0 is held; the update selects it or does not. -/
theorem witness_HeldGroupAppliesOnUpdate :
    onTime (settled 2) ∧ alignedFirst (settled 2).config 0 ∧
    (List.replicate 4 one).length = (4 : BitVec 6).toNat ∧ (4 : BitVec 6).toNat ≤ 2 ^ (settled 2).config.log2Width.val ∧
    (∀ f ∈ List.replicate 4 one, takes (settled 2).config f) ∧
    (settled 2).config.dataOffset.toNat + nwords (settled 2).config ≤ 32 ∧ 392 ≤ (392 : Duration).toNat ∧
    (settled 2).device.buffer = [] ∧ (settled 2).device.levels.holdMask = some 1 ∧ outputsLive (settled 2).device ∧
    (1 : Mask).getLsbD 0 = true ∧ (0 : Mask).getLsbD 0 = false ∧ ∃ x, unityChannel (settled 2).device 0 x :=
  ⟨Nat.le_refl 0, rfl, rfl, by decide, takes_replicate (takes_one 2) 4, by decide, by decide, rfl, rfl, settled_live 2, by decide, by decide, _, settled_unity 2 0 (by decide)⟩

/-- A sample for one channel and a full group of one; an `UPDATE` and a bare delay have no further hypothesis. -/
theorem witness_NonUnityChannelNeedsContinuous :
    takes nonUnity.config one ∧ alignedFirst nonUnity.config 31 ∧ [one].length = (1 : BitVec 6).toNat ∧
    (1 : BitVec 6).toNat ≤ 2 ^ nonUnity.config.log2Width.val ∧ (∀ f ∈ [one], takes nonUnity.config f) ∧
    nonUnity.config.dataOffset.toNat + nwords nonUnity.config ≤ 32 ∧ onTime nonUnity ∧ 392 ≤ (392 : Duration).toNat ∧
    nonUnity.device.buffer = [] ∧ nonUnity.device.levels.continuousMask = some 0 ∧ (0 : Mask).getLsbD 31 = false ∧
    outputsLive nonUnity.device ∧ (∃ x, nonUnity.device.channels[31]? = some x ∧ x.cic = some ⟨1, 0, 3⟩) ∧
    possible ⟨1, 0, 3⟩ ∧ actualRate ⟨1, 0, 3⟩ ≠ 1 :=
  ⟨takes_one 0, Nat.mod_one _, rfl, by decide, takes_replicate (takes_one 0) 1, by decide, Nat.le_refl 0, by decide, rfl,
    rfl, by decide, settled_live 0, ⟨_, rfl, rfl⟩, ⟨by decide, by decide⟩, by decide⟩

theorem witness_ClearErrorsClearsCounters : onTime (block 0) ∧ 392 ≤ (392 : Duration).toNat :=
  ⟨onTime_block 0, by decide⟩

theorem witness_InitializeBringsDeviceToUnity :
    (block 0).config.initSeq = .standard ∧ onTime (block 0) ∧ (block 0).device.buffer = [] ∧
    (block 0).device.channels[31]? = some Channel.unwritten := ⟨rfl, onTime_block 0, rfl, by decide⟩

end Sys2Proof.Tests
end

section
/-! The mirror is written and never read (R15), and nothing is in it after reset (R27). Each shared
operation commutes with replacing the mirror; so does every command, up to the mirror it leaves. -/

namespace Sys2Proof.Machine

/-! ### The state after construction -/

@[simp] theorem State.fresh_mirror (c : Config) : (State.fresh c).mirror = LevelRegs.unwritten := rfl
@[simp] theorem State.fresh_trace (c : Config) : (State.fresh c).trace = [] := rfl
@[simp] theorem State.fresh_config (c : Config) : (State.fresh c).config = c := rfl

/-! ### State updates under another mirror -/

@[simp] theorem State.withMirror_withMirror (s : State) (m m' : LevelRegs) :
    (s.withMirror m).withMirror m' = s.withMirror m' := rfl

@[simp] theorem State.withMirror_delivered (s : State) (m : LevelRegs) (e : Event) (space : Memory)
    (w : DeviceWrite) : (s.withMirror m).delivered e space w = (s.delivered e space w).withMirror m := rfl

@[simp] theorem State.withMirror_delayed (s : State) (m : LevelRegs) (dur : Duration) :
    (s.withMirror m).delayed dur = (s.delayed dur).withMirror m := rfl

@[simp] theorem State.withMirror_reported (s : State) (m : LevelRegs) (ports : ResultPorts)
    (records : List EventPort) : (s.withMirror m).reported ports records = (s.reported ports records).withMirror m :=
  rfl

/-! ### Shared operations under another mirror -/

/-- An outcome whose next state, if there is one, has the given mirror. -/
def remirror (m : LevelRegs) : Host.Outcome State Fault Refusal → Host.Outcome State Fault Refusal
  | .next t => .next (t.withMirror m)
  | .fault f => .fault f
  | .refused r => .refused r

@[simp] theorem remirror_next (m : LevelRegs) (t : State) : remirror m (.next t) = .next (t.withMirror m) := rfl
@[simp] theorem remirror_fault (m : LevelRegs) (f : Fault) : remirror m (.fault f) = .fault f := rfl

/-- The transport and the device take an event alike under every mirror. -/
theorem issueEvent_withMirror (s : State) (m : LevelRegs) (e : Event) :
    issueEvent (s.withMirror m) e = (issueEvent s e).map (·.withMirror m) := by
  cases e with
  | wn addr word =>
    by_cases late : s.now < s.busPosition
    · simp [issueEvent, late, Except.map]
    · cases hw : narrowWrite s.config addr word <;> simp [issueEvent, late, hw, Except.map]
  | ww addr words =>
    by_cases late : s.now < s.busPosition
    · simp [issueEvent, late, Except.map]
    · cases hw : wideWrite s.config addr words <;> simp [issueEvent, late, hw, Except.map]
  | dl dur => rfl

theorem issueEvents_withMirror (s : State) (m : LevelRegs) (es : List Event) :
    issueEvents (s.withMirror m) es = (issueEvents s es).map (·.withMirror m) := by
  induction es generalizing s with
  | nil => rfl
  | cons e es ih =>
    cases he : issueEvent s e with
    | error f => simp [issueEvents, issueEvent_withMirror, he, Except.map]
    | ok u => simpa [issueEvents, issueEvent_withMirror, he, Except.map] using ih u

theorem complete_withMirror (s : State) (m : LevelRegs) (ports : ResultPorts) (es : List Event) :
    complete (s.withMirror m) ports es = remirror m (complete s ports es) := by
  cases he : issueEvents s es with
  | error f => simp [complete, issueEvents_withMirror, he, Except.map]
  | ok u => simp [complete, issueEvents_withMirror, he, Except.map]

theorem raiseError_withMirror (s : State) (m : LevelRegs) (e : ErrorKind) :
    raiseError (s.withMirror m) e = remirror m (raiseError s e) := rfl

/-- R15: a command run under another mirror has the same outcome but for the mirror of the next state. -/
theorem exec_withMirror (i : Instr) (s : State) (m : LevelRegs) :
    ∃ m', exec i (s.withMirror m) = remirror m' (exec i s) := by
  rcases exec_uniform i s.config with ⟨e, -, hraise⟩ | ⟨mirror, ports, events, -, -, hcomplete⟩
  · refine ⟨m, ?_⟩
    rw [hraise s rfl, hraise (s.withMirror m) rfl, raiseError_withMirror]
  · refine ⟨mirror m, ?_⟩
    calc exec i (s.withMirror m)
        = complete (s.withMirror (mirror m)) (ports s.draws) events := hcomplete (s.withMirror m) rfl
      _ = remirror (mirror m) (complete (s.withMirror (mirror s.mirror)) (ports s.draws) events) := by
          rw [← complete_withMirror, State.withMirror_withMirror]
      _ = remirror (mirror m) (exec i s) := by rw [hcomplete s rfl]

/-! ### The obligations -/

/-- Settles O12: a constructed block has the unwritten mirror and an empty trace, and reset constructs one. -/
theorem resetLeavesMirrorUnwritten : Obligations.ResetLeavesMirrorUnwritten := by
  refine ⟨fun c => ?_, Config.standard 0, rfl⟩
  simp [LevelRegs.unwritten]

/-- Settles O43, by `exec_withMirror`: the two outcomes differ in the next state's mirror alone. -/
theorem mirrorIsWriteOnly : Obligations.MirrorIsWriteOnly := by
  intro i s m
  obtain ⟨m', hexec⟩ := exec_withMirror i s m
  constructor
  · intro t ht
    rw [ht] at hexec
    exact ⟨m', hexec⟩
  · intro f hf
    rw [hf] at hexec
    exact hexec

end Sys2Proof.Machine
end

section
/-! Every event a command emits under the default parameters is one that R39 allows, with the unused bits of
R63 zero: first the events of each kind, then the shared operations, then the commands. -/

namespace Sys2Proof.Machine

open Sys2Proof.Claims

/-! ### The default parameters -/

theorem standardConfig_dataOffset {c : Config} (hc : standardConfig c) : c.dataOffset = 0 := by rw [hc]; rfl
theorem standardConfig_globalBase {c : Config} (hc : standardConfig c) : c.globalBase = 0 := by rw [hc]; rfl
theorem standardConfig_initSeq {c : Config} (hc : standardConfig c) : c.initSeq = .standard := by rw [hc]; rfl

theorem globalAddress_standard {c : Config} (hc : standardConfig c) (offset : BitVec 8) :
    globalAddress c offset = offset.setWidth 24 := by
  apply BitVec.eq_of_toNat_eq
  rw [globalAddress_toNat, standardConfig_globalBase hc, BitVec.toNat_setWidth_of_le (by decide)]
  exact Nat.zero_add _

theorem dataAddress_standard_toNat {c : Config} (hc : standardConfig c) (chan : Chan) :
    (dataAddress c chan).toNat = 256 * chan.toNat := by
  rw [dataAddress_toNat, standardConfig_dataOffset hc]; rfl

/-! ### Unused bits are zero (R63) -/

/-- The bits above a field that a word is made of are zero. -/
theorem setWidth_word_toNat_lt {w : Nat} (field : BitVec w) : (field.setWidth 32 : Word).toNat < 2 ^ w := by
  rw [BitVec.toNat_setWidth]
  exact lt_of_le_of_lt (Nat.mod_le _ _) field.isLt

theorem cfgWord_toNat_lt (v : Cfg) : (cfgWord v).toNat < 2 ^ 4 := by
  obtain ⟨reset, afePowerDown, dacClr, clrErr⟩ := v
  revert reset afePowerDown dacClr clrErr
  decide

/-! ### The words of a group write -/

/-- The voltages that fit a group leave no more than `NWORDS` words: `WIDTH` is 1 or even (R75). -/
theorem halved_le_groupWords {c : Config} {n : Nat} (h : n ≤ groupWidth c) : (n + 1) / 2 ≤ groupWords c := by
  unfold groupWords groupWidth at *
  cases hk : c.log2Width.val with
  | zero => rw [hk] at h; omega
  | succ k => rw [hk, Nat.pow_succ] at h; rw [Nat.pow_succ]; omega

theorem packGroup_length {c : Config} {nvolt : BitVec 6} {volts : List Volt} {words : List Word}
    (h : packGroup c nvolt volts = .ok words) : words.length = (volts.length + 1) / 2 := by
  simp only [packGroup] at h
  split at h
  · cases h
  · split at h
    · cases h
    · rename_i mus hmus
      cases h
      rw [packPairs_length, convertAll_length hmus]

theorem validateGroupAlignment_ok {first : Chan} {l2w : Nat} {u : Unit}
    (h : validateGroupAlignment first l2w = .ok u) : groupAligned first l2w = true := by
  simp only [validateGroupAlignment] at h
  split at h
  · cases h
  · split at h
    · assumption
    · cases h

/-- Everything a group write without error says of its operands and its words (R75, R81, R101). -/
theorem groupWrite_ok {c : Config} {first : Chan} {nvolt : BitVec 6} {volts : List Volt} {words : List Word}
    (h : groupWrite c first nvolt volts = .ok words) :
    groupAligned first c.log2Width.val = true ∧ nvolt.toNat ≤ groupWidth c ∧
      ∃ packed, packGroup c nvolt volts = .ok packed ∧ words = fillGroup c packed := by
  simp only [groupWrite] at h
  split at h
  · cases h
  · rename_i halign
    split at h
    · cases h
    · split at h
      · cases h
      · rename_i hcount _ packed hpacked
        cases h
        exact ⟨validateGroupAlignment_ok halign, Nat.not_lt.1 hcount, packed, hpacked, rfl⟩

/-- A group write of a decoded command carries exactly `NWORDS` words (R31, R75). -/
theorem groupWrite_length {c : Config} {first : Chan} {nvolt : BitVec 6} {volts : List Volt} {words : List Word}
    (hvolts : volts.length = suppliedVolts nvolt) (h : groupWrite c first nvolt volts = .ok words) :
    words.length = groupWords c := by
  obtain ⟨-, hcount, packed, hpacked, rfl⟩ := groupWrite_ok h
  apply fillGroup_length
  rw [packGroup_length hpacked]
  exact halved_le_groupWords (hvolts ▸ le_trans (Nat.min_le_left _ _) hcount)

theorem length_volts (r : CommandRecord) : r.volts.length = suppliedVolts r.nvolt := by simp [CommandRecord.volts]

/-- A decoded command carries the voltages its count names (R51): only the two formats with a list have anything to
check, and both take theirs from `CommandRecord.volts`. -/
theorem decode_wellFormed {r : CommandRecord} {i : Instr} (h : decode r = .ok i) : i.wellFormed = true := by
  unfold decode at h
  split at h <;> cases h <;> simp [Instr.wellFormed, length_volts]

/-! ### Legal events, kind by kind -/

/-- UPDATE, hold, continuous and apply-CIC: all 32 bits are the mask's. -/
theorem legalEvent_mask {c : Config} (hc : standardConfig c) {offset : BitVec 8}
    (ho : offset ∈ [0x20#8, 0x21#8, 0x25#8, 0x27#8]) (mask : Mask) :
    legalEvent c (.wn (globalAddress c offset) mask) := by
  rw [globalAddress_standard hc]
  refine .inr (.inl ?_)
  fin_cases ho <;> decide

theorem legalEvent_cfg {c : Config} (hc : standardConfig c) {word : Word} (hw : word.toNat < 2 ^ 4) :
    legalEvent c (.wn (globalAddress c 0x22) word) := by
  rw [globalAddress_standard hc]
  exact .inr (.inr (.inl ⟨rfl, hw⟩))

theorem legalEvent_leds {c : Config} (hc : standardConfig c) {word : Word} (hw : word.toNat < 2 ^ 8) :
    legalEvent c (.wn (globalAddress c 0x23) word) := by
  rw [globalAddress_standard hc]
  exact .inr (.inr (.inr (.inl ⟨rfl, hw⟩)))

theorem legalEvent_stageCic {c : Config} (hc : standardConfig c) {word : Word} (hw : word.toNat < 2 ^ 16) :
    legalEvent c (.wn (globalAddress c 0x26) word) := by
  rw [globalAddress_standard hc]
  exact .inr (.inr (.inr (.inr ⟨rfl, hw⟩)))

theorem legalEvent_data {c : Config} (hc : standardConfig c) (chan : Chan) (mu : Sample) :
    legalEvent c (.wn (dataAddress c chan) (dataWord mu)) :=
  .inl ⟨chan.toNat, chan.isLt, dataAddress_standard_toNat hc chan, setWidth_word_toNat_lt mu⟩

theorem legalEvent_group {c : Config} (hc : standardConfig c) {first : Chan} {nvolt : BitVec 6}
    {volts : List Volt} {words : List Word} (hvolts : volts.length = suppliedVolts nvolt)
    (h : groupWrite c first nvolt volts = .ok words) : legalEvent c (.ww (dataAddress c first) words) := by
  obtain ⟨halign, -⟩ := groupWrite_ok h
  exact ⟨first.toNat, first.isLt, dataAddress_standard_toNat hc first, (groupAligned_iff _ _).1 halign,
    groupWrite_length hvolts h⟩

theorem legalEvent_spacedWrites {c : Config} {writes : List (BitVec 8 × Word)}
    (h : ∀ p ∈ writes, legalEvent c (.wn (globalAddress c p.1) p.2)) :
    ∀ e ∈ spacedWrites c writes, legalEvent c e := by
  induction writes with
  | nil => simp [spacedWrites]
  | cons p rest ih =>
    rw [List.forall_mem_cons] at h
    simp only [spacedWrites, List.forall_mem_cons]
    exact ⟨h.1, trivial, ih h.2⟩

theorem legalEvent_initEvents {c : Config} (hc : standardConfig c) : ∀ e ∈ initEvents c, legalEvent c e := by
  rw [initEvents, standardConfig_initSeq hc]
  apply legalEvent_spacedWrites
  simp only [initWrites, List.forall_mem_cons, List.not_mem_nil, false_implies, implies_true, and_true]
  exact ⟨legalEvent_cfg hc (by decide), legalEvent_cfg hc (by decide), legalEvent_mask hc (by decide) _,
    legalEvent_mask hc (by decide) _, legalEvent_stageCic hc (by decide), legalEvent_mask hc (by decide) _,
    legalEvent_leds hc (by decide)⟩

/-! ### The shared operations keep the trace legal -/

/-- The invariant does not look at the mirror. -/
theorem traceLegal_withMirror {s : State} (hs : traceLegal s) (m : LevelRegs) : traceLegal (s.withMirror m) := hs

theorem traceLegal_accepted {s : State} (hs : traceLegal s) (p : Presented) (rest : List Presented) :
    traceLegal (s.accepted p rest) := hs

theorem complete_keeps_traceLegal {s t : State} {ports : ResultPorts} {events : List Event}
    (h : complete s ports events = .next t) (hs : traceLegal s) (hevents : ∀ e ∈ events, legalEvent s.config e) :
    traceLegal t := by
  obtain ⟨u, hu, rfl⟩ := complete_next h
  obtain ⟨hconfig, -⟩ := issueEvents_frame hu
  obtain ⟨hstandard, htrace⟩ := hs
  unfold traceLegal
  rw [State.reported_config, State.reported_trace, hconfig, issueEvents_trace hu]
  exact ⟨hstandard, List.forall_mem_append.2 ⟨htrace, hevents⟩⟩

theorem complete_one_keeps_traceLegal {s t : State} {ports : ResultPorts} {e : Event}
    (h : complete s ports [e] = .next t) (hs : traceLegal s) (he : legalEvent s.config e) : traceLegal t :=
  complete_keeps_traceLegal h hs (List.forall_mem_singleton.2 he)

theorem complete_nil_keeps_traceLegal {s t : State} {ports : ResultPorts} (h : complete s ports [] = .next t)
    (hs : traceLegal s) : traceLegal t :=
  complete_keeps_traceLegal h hs (List.forall_mem_nil _)

theorem raiseError_keeps_traceLegal {s t : State} {e : ErrorKind} (h : raiseError s e = .next t)
    (hs : traceLegal s) : traceLegal t := by
  cases h
  exact hs

/-- An error emits nothing, so what a command does with the value it computes decides. -/
theorem orRaise_keeps_traceLegal {α : Type} {s t : State} {r : Except ErrorKind α}
    {go : α → Host.Outcome State Fault Refusal} (h : orRaise s r go = .next t) (hs : traceLegal s)
    (hgo : ∀ v, r = .ok v → go v = .next t → traceLegal t) : traceLegal t := by
  cases r with
  | error e => exact raiseError_keeps_traceLegal h hs
  | ok v => exact hgo v rfl h

/-! ### Every command keeps the trace legal -/

theorem exec_keeps_traceLegal {i : Instr} {s t : State} (hi : i.wellFormed = true) (h : exec i s = .next t)
    (hs : traceLegal s) : traceLegal t := by
  have hc : standardConfig s.config := hs.1
  have hm := traceLegal_withMirror hs
  cases i with
  | setChannel chan volt =>
    exact orRaise_keeps_traceLegal h hs fun mu _ hgo =>
      complete_one_keeps_traceLegal hgo hs (legalEvent_data hc chan mu)
  | setGroup chan nvolt volts =>
    have hvolts : volts.length = suppliedVolts nvolt := by simpa [Instr.wellFormed] using hi
    exact orRaise_keeps_traceLegal h hs fun words hwords hgo =>
      complete_one_keeps_traceLegal hgo hs (legalEvent_group hc hvolts hwords)
  | update mask => exact complete_one_keeps_traceLegal h hs (legalEvent_mask hc (by decide) mask)
  | applyCic mask => exact complete_one_keeps_traceLegal h hs (legalEvent_mask hc (by decide) mask)
  | setHold mask => exact complete_one_keeps_traceLegal h (hm _) (legalEvent_mask hc (by decide) mask)
  | setContinuous mask => exact complete_one_keeps_traceLegal h (hm _) (legalEvent_mask hc (by decide) mask)
  | setCfg reset afePowerDown dacClr clrErr =>
    exact complete_one_keeps_traceLegal h (hm _) (legalEvent_cfg hc (cfgWord_toNat_lt _))
  | setLeds led => exact complete_one_keeps_traceLegal h (hm _) (legalEvent_leds hc (setWidth_word_toNat_lt led))
  | stageCic rate =>
    exact orRaise_keeps_traceLegal h hs fun r _ hgo =>
      complete_one_keeps_traceLegal hgo (hm _) (legalEvent_stageCic hc (setWidth_word_toNat_lt (cicWord r)))
  | initialise => exact complete_keeps_traceLegal h (hm _) (legalEvent_initEvents hc)
  | delay dur => exact complete_one_keeps_traceLegal (e := .dl dur) h hs trivial
  | voltageToMu volt => exact orRaise_keeps_traceLegal h hs fun _ _ hgo => complete_nil_keeps_traceLegal hgo hs
  | packGroup nvolt volts => exact orRaise_keeps_traceLegal h hs fun _ _ hgo => complete_nil_keeps_traceLegal hgo hs
  | encode chan offs => exact complete_nil_keeps_traceLegal h hs
  | validateGroupAlignment chan l2w =>
    exact orRaise_keeps_traceLegal h hs fun _ _ hgo => complete_nil_keeps_traceLegal hgo hs
  | cicQuantize rate => exact orRaise_keeps_traceLegal h hs fun _ _ hgo => complete_nil_keeps_traceLegal hgo hs
  | read addr => exact raiseError_keeps_traceLegal h hs

/-! ### The obligation -/

/-- Settles O50: with nothing presented the state stays, a reserved code emits nothing, and a decoded command
is well formed, so `exec_keeps_traceLegal` applies. Accepting a command touches neither trace nor configuration. -/
theorem stepKeepsTraceLegal : Obligations.StepKeepsTraceLegal := by
  intro s t hs h
  unfold step at h
  split at h
  · cases h
    exact hs
  · rename_i p rest _
    have haccepted := traceLegal_accepted hs p rest
    split at h
    · exact raiseError_keeps_traceLegal h haccepted
    · rename_i i hdecode
      exact exec_keeps_traceLegal (decode_wellFormed hdecode) h haccepted

end Sys2Proof.Machine
end

section
/-! The voltage codec (spec/40_voltage_codec.md): the default conversion is the rule's `machineUnits`, and
packing is the rule's `sampleWords`; then what the two commands answer for a conversion that succeeds and for one
that does not. -/

namespace Sys2Proof.Machine

open Sys2Proof.Claims

/-! ### The rule's voltage and the model's -/

/-- `|val(f)|` by the IEEE 754 formula over the model's two fields (R71). -/
def ieeeMagnitude (f : Volt) : ℚ :=
  if expField f = 0 then (fracField f : ℚ) / 2 ^ 52 * (2 : ℚ) ^ (-1022 : ℤ)
  else (1 + (fracField f : ℚ) / 2 ^ 52) * (2 : ℚ) ^ ((expField f : ℤ) - 1023)

theorem volts_eq_ieeeMagnitude (f : Volt) : volts f = if f.getLsbD 63 then -ieeeMagnitude f else ieeeMagnitude f := rfl

/-- The significand's unit is 52 places below the exponent. -/
theorem unit_eq_scaled (e : ℤ) : (2 : ℚ) ^ (e - 1075) = (2 : ℚ) ^ (e - 1023) / 2 ^ 52 := by
  rw [← zpow_natCast (2 : ℚ) 52, ← zpow_sub₀ two_ne_zero]
  congr 1
  push_cast
  ring

/-- The integer significand holds the 52 fraction bits, and the hidden bit above them for a normal number. -/
theorem significand_value (f : Volt) :
    (significand f : ℚ) * (2 : ℚ) ^ ((unitExp f : Int) - 1075) = ieeeMagnitude f := by
  rw [unit_eq_scaled]
  by_cases hexp : expField f = 0
  · simp only [significand, unitExp, ieeeMagnitude, hexp, if_true, Nat.zero_max, Nat.cast_one]
    rw [← mul_div_assoc, mul_div_right_comm]
    rfl
  · have hunit : unitExp f = expField f := max_eq_left (Nat.one_le_iff_ne_zero.2 hexp)
    simp only [significand, ieeeMagnitude, if_neg hexp, hunit, Nat.cast_add, Nat.cast_pow, Nat.cast_ofNat]
    ring

/-- The model's exact value of a datum is the rule's (R71). -/
theorem ratioValue_valueOf (f : Volt) : ratioValue (valueOf f) = volts f := by
  rw [valueOf_value, significand_value, volts_eq_ieeeMagnitude]
  split
  · exact neg_one_mul _
  · exact one_mul _

theorem isFinite_iff (f : Volt) : isFinite f = true ↔ finite f := by
  rw [isFinite, bne_iff_ne, finite, ne_eq, ne_eq, expField, ← BitVec.toNat_inj]
  rfl

/-! ### The default conversion -/

/-- The sample of an accepted voltage (R70). -/
def machineSample (f : Volt) : Sample := BitVec.ofNat 16 (machineUnits f).toNat

theorem machineSample_toNat {f : Volt} (h : accepted f) : (machineSample f).toNat = (machineUnits f).toNat := by
  obtain ⟨-, hlow, hhigh⟩ := h
  rw [machineSample, BitVec.toNat_ofNat, Nat.mod_eq_of_lt (by omega)]

/-- The default conversion in the rule's terms (R70). -/
theorem voltageToMu_eq_machineUnits {c : Config} (hc : defaultArith c) (f : Volt) :
    voltageToMu c f =
      if isFinite f then
        if machineUnits f < 0 ∨ 65535 < machineUnits f then .error (.rangeError 0) else .ok (machineSample f)
      else .error (.rangeError 0) := by
  rw [voltageToMu_default hc.1 hc.2, ratioValue_valueOf]
  rfl

theorem voltageToMu_of_accepted {c : Config} (hc : defaultArith c) {f : Volt} (h : accepted f) :
    voltageToMu c f = .ok (machineSample f) := by
  obtain ⟨hfinite, hlow, hhigh⟩ := h
  rw [voltageToMu_eq_machineUnits hc, if_pos ((isFinite_iff f).2 hfinite), if_neg (by omega)]

theorem voltageToMu_of_not_accepted {c : Config} (hc : defaultArith c) {f : Volt} (h : ¬accepted f) :
    voltageToMu c f = .error (.rangeError 0) := by
  rw [voltageToMu_eq_machineUnits hc]
  by_cases hfinite : finite f
  · have hrange : ¬(0 ≤ machineUnits f ∧ machineUnits f ≤ 65535) := fun hr => h ⟨hfinite, hr⟩
    rw [if_pos ((isFinite_iff f).2 hfinite), if_pos (by omega)]
  · rw [if_neg (mt (isFinite_iff f).1 hfinite)]

/-- Under every arithmetic and rounding the one error of a conversion is RangeError (R70). -/
theorem voltageToMu_of_not_takes {c : Config} {f : Volt} (h : ¬takes c f) :
    voltageToMu c f = .error (.rangeError 0) := by
  cases hv : voltageToMu c f with
  | error e => rw [voltageToMu_error hv]
  | ok mu => exact absurd ⟨mu, hv⟩ h

/-! ### Packing -/

@[simp] theorem length_sampleWords (mus : List Sample) (count : ℕ) : (sampleWords mus count).length = count := by
  simp [sampleWords, slotWords]

/-- The model's pairs are the rule's GroupWords (R56, R74). -/
theorem packPairs_eq_sampleWords (mus : List Sample) : packPairs mus = sampleWords mus ((mus.length + 1) / 2) := by
  apply List.ext_getElem?
  intro j
  by_cases hj : j < (mus.length + 1) / 2
  · rw [packPairs_getElem? mus j hj]
    simp only [sampleWords, slotWords, List.getElem?_map, List.getElem?_range hj, Option.map_some]
    rw [← groupWord_toNat, BitVec.ofNat_toNat, BitVec.setWidth_eq]
  · rw [List.getElem?_eq_none (by rw [packPairs_length]; omega),
      List.getElem?_eq_none (by rw [length_sampleWords]; omega)]

/-- Accepted voltages convert, each to its sample (R70, R74). -/
theorem convertsTo_machineSample {c : Config} (hc : defaultArith c) {fs : List Volt} (h : ∀ f ∈ fs, accepted f) :
    convertsTo c fs (fs.map machineSample) :=
  List.forall₂_map_right_iff.2 (List.forall₂_same.2 fun f hf => voltageToMu_of_accepted hc (h f hf))

/-- A slot's machine units are its sample's, 0 where there is none. -/
theorem slot_eq_sample {fs : List Volt} (h : ∀ f ∈ fs, accepted f) (k : ℕ) :
    ((fs.map machineSample).getD k 0).toNat = slot fs k := by
  rw [List.getD_eq_getElem?_getD, List.getElem?_map, slot]
  cases hk : fs[k]? with
  | none => rfl
  | some f => exact machineSample_toNat (h f (List.mem_of_getElem? hk))

theorem sampleWords_machineSample {fs : List Volt} (h : ∀ f ∈ fs, accepted f) (count : ℕ) :
    sampleWords (fs.map machineSample) count = Claims.groupWords fs count := by
  rw [sampleWords, Claims.groupWords, funext (slot_eq_sample h)]

/-- `PACK_GROUP` of voltages that convert (R74). -/
theorem packGroup_of_convertsTo {c : Config} {n : BitVec 6} {fs : List Volt} {mus : List Sample} (hn : n.toNat ≤ 32)
    (h : convertsTo c fs mus) : packGroup c n fs = .ok (sampleWords mus ((fs.length + 1) / 2)) := by
  rw [packGroup, if_neg (Nat.not_lt.2 hn), convertAll_ok h, h.length_eq]
  simp only [packPairs_eq_sampleWords]

/-- `PACK_GROUP` with a count above 32 (R74, D8). -/
theorem packGroup_of_count {c : Config} {n : BitVec 6} (fs : List Volt) (hn : 32 < n.toNat) :
    packGroup c n fs = .error .preconditionError := if_pos hn

/-- `PACK_GROUP` with a voltage that does not convert, the lowest at `k` (R74, R137). -/
theorem packGroup_of_not_takes {c : Config} {n : BitVec 6} {fs : List Volt} {k : ℕ} {f : Volt} (hn : n.toNat ≤ 32)
    (hk : fs[k]? = some f) (hf : ¬takes c f) (hj : ∀ j < k, ∀ g, fs[j]? = some g → takes c g) :
    packGroup c n fs = .error (.rangeError (BitVec.ofNat 6 k)) := by
  rw [packGroup, if_neg (Nat.not_lt.2 hn), convertAll_rejects hk hf hj, Nat.zero_add]

theorem length_wordsPort {words : List Word} (h : words.length ≤ 16) (draw : Nat) :
    (wordsPort words draw).length = 16 := by
  rw [wordsPort, List.length_append, length_freeWords]
  omega

/-- The produced entries of `res_words` are the words. -/
theorem take_wordsPort {words : List Word} {count : ℕ} (h : words.length = count) (draw : Nat) :
    (wordsPort words draw).take count = words := List.take_left' h

/-! ### The two commands -/

/-- Reporting results with no event changes nothing else (R52, R138). -/
theorem onlyReports_reported (s : State) (ports : ResultPorts) : onlyReports s (s.reported ports []) :=
  ⟨rfl, rfl, rfl, rfl, rfl, rfl, fun _ => rfl, rfl, rfl⟩

/-- Everything a command in error does (R138). -/
theorem raiseError_reports (s : State) (e : ErrorKind) :
    ∃ t, raiseError s e = .next t ∧ failed t (errorCode e) (errorInfo e) ∧ onlyReports s t :=
  ⟨_, rfl, ⟨rfl, rfl⟩, onlyReports_reported s _⟩

theorem exec_voltageToMu (f : Volt) (s : State) :
    exec (.voltageToMu f) s =
      orRaise s (voltageToMu s.config f) fun mu => complete s { okPorts s.draws with resMu := mu } [] := rfl

theorem exec_packGroup (n : BitVec 6) (fs : List Volt) (s : State) :
    exec (.packGroup n fs) s =
      orRaise s (packGroup s.config n fs) fun words =>
        complete s { okPorts s.draws with
          resNwords := BitVec.ofNat 5 words.length, resWords := wordsPort words s.draws } [] := rfl

/-- `VOLTAGE_TO_MU` of a voltage that converts. -/
theorem exec_voltageToMu_ok {s : State} {f : Volt} {mu : Sample} (h : voltageToMu s.config f = .ok mu) :
    ∃ t, exec (.voltageToMu f) s = .next t ∧ succeeded t ∧ onlyReports s t ∧ t.ports.resMu = mu := by
  rw [exec_voltageToMu, h, orRaise_ok, complete_nil]
  exact ⟨_, rfl, ⟨rfl, rfl⟩, onlyReports_reported s _, rfl⟩

/-- `VOLTAGE_TO_MU` of a voltage that does not convert. -/
theorem exec_voltageToMu_error {s : State} {f : Volt} (h : voltageToMu s.config f = .error (.rangeError 0)) :
    ∃ t, exec (.voltageToMu f) s = .next t ∧ failed t 1 0 ∧ onlyReports s t := by
  rw [exec_voltageToMu, h]
  exact raiseError_reports s (.rangeError 0)

/-- `PACK_GROUP` of at most 32 voltages that convert: `ceil(n / 2)` words fit the 16 entries of the port. -/
theorem exec_packGroup_ok {s : State} {n : BitVec 6} {fs : List Volt} {mus : List Sample} (hn : n.toNat ≤ 32)
    (hfs : fs.length = n.toNat) (h : convertsTo s.config fs mus) :
    ∃ t, exec (.packGroup n fs) s = .next t ∧ succeeded t ∧ onlyReports s t ∧
      t.ports.resNwords.toNat = (n.toNat + 1) / 2 ∧ t.ports.resWords.length = 16 ∧
      t.ports.resWords.take ((n.toNat + 1) / 2) = sampleWords mus ((n.toNat + 1) / 2) := by
  have hcount : (n.toNat + 1) / 2 ≤ 16 := by omega
  have hlen := length_sampleWords mus ((n.toNat + 1) / 2)
  rw [exec_packGroup, packGroup_of_convertsTo hn h, hfs, orRaise_ok, complete_nil]
  refine ⟨_, rfl, ⟨rfl, rfl⟩, onlyReports_reported s _, ?_, ?_, ?_⟩
  · rw [State.reported_ports, hlen, BitVec.toNat_ofNat, Nat.mod_eq_of_lt (by omega)]
  · exact length_wordsPort (hlen.trans_le hcount) _
  · exact take_wordsPort hlen _

/-- `PACK_GROUP` that raises. -/
theorem exec_packGroup_error {s : State} {n : BitVec 6} {fs : List Volt} {e : ErrorKind}
    (h : packGroup s.config n fs = .error e) :
    ∃ t, exec (.packGroup n fs) s = .next t ∧ failed t (errorCode e) (errorInfo e) ∧ onlyReports s t := by
  rw [exec_packGroup, h]
  exact raiseError_reports s e

/-! ### The obligations -/

/-- Settles O15: the default conversion is `machineUnits` where accepted, and each conversion decides its command. -/
theorem voltageToMuConverts : Obligations.VoltageToMuConverts := by
  have hsample {f : Volt} (h : accepted f) : ((machineSample f).toNat : ℤ) = machineUnits f := by
    rw [machineSample_toNat h, Int.toNat_of_nonneg h.2.1]
  refine ⟨fun _ => rfl, fun c f hc => ⟨fun h => ?_, voltageToMu_of_not_accepted hc⟩,
    fun s f hc => ⟨fun h => ?_, fun h => exec_voltageToMu_error (voltageToMu_of_not_accepted hc h)⟩,
    fun s f => ⟨fun mu => exec_voltageToMu_ok, fun h => exec_voltageToMu_error (voltageToMu_of_not_takes h)⟩⟩
  · exact ⟨machineSample f, voltageToMu_of_accepted hc h, hsample h⟩
  · obtain ⟨t, hexec, hok, hframe, hmu⟩ := exec_voltageToMu_ok (voltageToMu_of_accepted hc h)
    exact ⟨t, hexec, hok, hframe, hmu ▸ hsample h⟩

/-- Settles O20: the four outcomes of `packGroup`, each carried to the ports by the command. -/
theorem packGroupPacksOrRejects : Obligations.PackGroupPacksOrRejects := by
  refine ⟨fun _ _ => rfl, fun s n fs hlen => ⟨fun mus hn h => ?_, fun hc hn h => ?_, fun hn => ?_,
    fun hn k f hk hf hj => ?_⟩⟩
  · exact exec_packGroup_ok hn (hlen.trans (min_eq_left hn)) h
  · rw [← sampleWords_machineSample h]
    exact exec_packGroup_ok hn (hlen.trans (min_eq_left hn)) (convertsTo_machineSample hc h)
  · exact exec_packGroup_error (packGroup_of_count fs hn)
  · exact exec_packGroup_error (packGroup_of_not_takes hn hk hf hj)

end Sys2Proof.Machine
end

section
/-! The address encoder (spec/41_address_encoder.md): what each of the unit's two functions answers, what its command
makes of that answer, and the groups of channels that the alignment check lets through. -/

namespace Sys2Proof.Machine

open Sys2Proof.Claims

/-! ### The alignment check (R81) -/

/-- The check read as the rule writes it, a test of the low bits. -/
theorem groupAligned_iff_lowBits (first : Chan) (l2w : ℕ) :
    groupAligned first l2w = true ↔ first.toNat &&& (2 ^ l2w - 1) = 0 := by
  rw [groupAligned_iff, Nat.and_two_pow_sub_one_eq_mod]

theorem validateGroupAlignment_of_wide (first : Chan) {l2w : ℕ} (h : 5 < l2w) :
    validateGroupAlignment first l2w = .error .preconditionError := if_pos h

theorem validateGroupAlignment_of_aligned {first : Chan} {l2w : ℕ} (hw : l2w ≤ 5) (h : groupAligned first l2w = true) :
    validateGroupAlignment first l2w = .ok () := by
  rw [validateGroupAlignment, if_neg hw.not_gt, if_pos h]

theorem validateGroupAlignment_of_misaligned {first : Chan} {l2w : ℕ} (hw : l2w ≤ 5)
    (h : ¬groupAligned first l2w = true) : validateGroupAlignment first l2w = .error .alignmentError := by
  rw [validateGroupAlignment, if_neg hw.not_gt, if_neg h]

/-- The first channels that pass are the multiples of the width (R82). -/
theorem validateGroupAlignment_eq_ok_iff (first : Chan) {l2w : ℕ} (hw : l2w ≤ 5) :
    validateGroupAlignment first l2w = .ok () ↔ 2 ^ l2w ∣ first.toNat := by
  rw [Nat.dvd_iff_mod_eq_zero, ← groupAligned_iff]
  exact ⟨validateGroupAlignment_ok, validateGroupAlignment_of_aligned hw⟩

/-! ### The two commands -/

theorem exec_encode (chan : Chan) (offs : BitVec 8) (s : State) :
    exec (.encode chan offs) s = .next (s.reported { okPorts s.draws with resAddr := encodeAddress chan offs } []) :=
  rfl

theorem exec_validateGroupAlignment (chan : Chan) (l2w : BitVec 3) (s : State) :
    exec (.validateGroupAlignment chan l2w) s =
      orRaise s (validateGroupAlignment chan l2w.toNat) fun _ => complete s (okPorts s.draws) [] := rfl

/-- `VALIDATE_GROUP_ALIGNMENT` of a group that passes. -/
theorem exec_validateGroupAlignment_ok {chan : Chan} {l2w : BitVec 3} (s : State)
    (h : validateGroupAlignment chan l2w.toNat = .ok ()) :
    ∃ t, exec (.validateGroupAlignment chan l2w) s = .next t ∧ succeeded t ∧ onlyReports s t := by
  rw [exec_validateGroupAlignment, h, orRaise_ok, complete_nil]
  exact ⟨_, rfl, ⟨rfl, rfl⟩, onlyReports_reported s _⟩

/-- `VALIDATE_GROUP_ALIGNMENT` that raises. -/
theorem exec_validateGroupAlignment_error {chan : Chan} {l2w : BitVec 3} {e : ErrorKind} (s : State)
    (h : validateGroupAlignment chan l2w.toNat = .error e) :
    ∃ t, exec (.validateGroupAlignment chan l2w) s = .next t ∧ failed t (errorCode e) (errorInfo e) ∧
      onlyReports s t := by
  rw [exec_validateGroupAlignment, h]
  exact raiseError_reports s e

/-! ### The groups (R82) -/

/-- The first channel of the group of `2 ^ l2w` channels that holds `channel`. -/
def groupStart (l2w channel : ℕ) : Chan := BitVec.ofNat 5 (channel / 2 ^ l2w * 2 ^ l2w)

theorem groupStart_toNat (l2w : ℕ) {channel : ℕ} (h : channel < 32) :
    (groupStart l2w channel).toNat = channel / 2 ^ l2w * 2 ^ l2w := by
  rw [groupStart, BitVec.toNat_ofNat, Nat.mod_eq_of_lt ((Nat.div_mul_le_self _ _).trans_lt h)]

/-- A group of a width that divides 32 ends within the 32 channels. -/
theorem groupStart_add_le {l2w channel : ℕ} (hw : l2w ≤ 5) (h : channel < 32) :
    (groupStart l2w channel).toNat + 2 ^ l2w ≤ 32 := by
  have hdvd : 2 ^ l2w ∣ 32 := Nat.pow_dvd_pow 2 hw
  have hlt : channel / 2 ^ l2w < 32 / 2 ^ l2w := Nat.div_lt_div_of_lt_of_dvd hdvd h
  calc (groupStart l2w channel).toNat + 2 ^ l2w
      = (channel / 2 ^ l2w + 1) * 2 ^ l2w := by rw [groupStart_toNat l2w h, Nat.succ_mul]
    _ ≤ 32 / 2 ^ l2w * 2 ^ l2w := Nat.mul_le_mul_right _ hlt
    _ = 32 := Nat.div_mul_cancel hdvd

/-- The groups are disjoint: only one multiple of the width starts a group that holds the channel. -/
theorem eq_groupStart_of_covers {l2w channel : ℕ} {other : Chan} (h : channel < 32) (hdvd : 2 ^ l2w ∣ other.toNat)
    (hle : other.toNat ≤ channel) (hlt : channel < other.toNat + 2 ^ l2w) : other = groupStart l2w channel := by
  apply BitVec.eq_of_toNat_eq
  rw [groupStart_toNat l2w h]
  obtain ⟨k, hk⟩ := hdvd
  have hdiv : channel / 2 ^ l2w = k :=
    Nat.div_eq_of_lt_le (by rwa [Nat.mul_comm, ← hk]) (by rwa [Nat.succ_mul, Nat.mul_comm, ← hk])
  rw [hdiv, hk, Nat.mul_comm]

/-- The NWORDS column of R82's table. -/
theorem groupWords_table (c : Config) :
    ([1, 1, 2, 4, 8, 16] : List ℕ)[c.log2Width.val]? = some (Machine.groupWords c) := by
  unfold Machine.groupWords groupWidth
  generalize c.log2Width = k
  revert k
  decide

/-! ### The obligations -/

/-- Settles O23: the three answers of the check, each carried to the ports by the command. -/
theorem validateChecksAlignment : Obligations.ValidateChecksAlignment := by
  refine ⟨fun _ _ => rfl, fun s chan l2w => ⟨fun hwide => ?_, fun hw hlow => ?_, fun hw hlow => ?_⟩⟩
  · exact exec_validateGroupAlignment_error s (validateGroupAlignment_of_wide chan hwide)
  · have haligned := (groupAligned_iff_lowBits chan l2w.toNat).2 hlow
    exact exec_validateGroupAlignment_ok s (validateGroupAlignment_of_aligned hw haligned)
  · have hmisaligned := mt (groupAligned_iff_lowBits chan l2w.toNat).1 hlow
    exact exec_validateGroupAlignment_error s (validateGroupAlignment_of_misaligned hw hmisaligned)

/-- Settles O24: the group that holds a channel is the one that starts at its `groupStart`. -/
theorem alignedGroupsPartitionChannels : Obligations.AlignedGroupsPartitionChannels := by
  refine ⟨fun l2w hw => ⟨fun first => validateGroupAlignment_eq_ok_iff first hw, fun channel hchannel => ?_⟩,
    groupWords_table⟩
  have hstart := groupStart_toNat l2w hchannel
  refine ⟨groupStart l2w channel, ?_, ?_, ?_, groupStart_add_le hw hchannel, fun other hok hle hlt => ?_⟩
  · exact (validateGroupAlignment_eq_ok_iff _ hw).2 (hstart ▸ Nat.dvd_mul_left _ _)
  · exact hstart ▸ Nat.div_mul_le_self _ _
  · exact hstart ▸ Nat.lt_div_mul_add (Nat.two_pow_pos l2w)
  · exact eq_groupStart_of_covers hchannel ((validateGroupAlignment_eq_ok_iff other hw).1 hok) hle hlt

/-- Settles O21: the command reports `encodeAddress`, whose number is `encodeAddress_toNat`. -/
theorem encodeComposesAddress : Obligations.EncodeComposesAddress := by
  refine ⟨fun _ _ => rfl, fun s chan offs => ?_⟩
  exact ⟨_, exec_encode chan offs s, ⟨rfl, rfl⟩, onlyReports_reported s _, rfl, encodeAddress_toNat chan offs⟩

end Sys2Proof.Machine
end

section
/-! The CIC stager (spec/42_cic_stager.md): the halvings of step 2 and the gain of step 4 are each unique, and every
property of the quantized rate follows from them; then what the command makes of the quantizer's answer. -/

namespace Sys2Proof.Machine

open Sys2Proof.Claims

/-! ### The halvings of step 2 (R90, R91) -/

/-- The halvings stop in the band of rates that R91 gives for their count. -/
theorem cicShift_iff_band {rate e m : ℕ} :
    cicShift rate e m ↔ m = rate / 2 ^ e ∧ rate < 65 * 2 ^ e ∧ ∀ j < e, 65 * 2 ^ j ≤ rate := by
  have hstop : rate / 2 ^ e ≤ 64 ↔ rate < 65 * 2 ^ e := by
    rw [← Nat.lt_succ_iff, Nat.div_lt_iff_lt_mul (Nat.two_pow_pos e)]
  have hgo : ∀ j, 64 < rate / 2 ^ j ↔ 65 * 2 ^ j ≤ rate := fun j => Nat.le_div_iff_mul_le (Nat.two_pow_pos j)
  simp only [cicShift, hgo, ← hstop]
  exact and_congr_right fun hm => by rw [hm]

theorem cicShift_mantissa_le {rate e m : ℕ} (h : cicShift rate e m) : m ≤ 64 := h.2.1

theorem cicShift_exponent_unique {rate e e' m m' : ℕ} (h : cicShift rate e m) (h' : cicShift rate e' m') : e = e' := by
  obtain ⟨rfl, hle, hlt⟩ := h
  obtain ⟨rfl, hle', hlt'⟩ := h'
  exact le_antisymm (not_lt.1 fun hc => hle'.not_gt (hlt e' hc)) (not_lt.1 fun hc => hle.not_gt (hlt' e hc))

theorem cicShift_unique {rate e e' m m' : ℕ} (h : cicShift rate e m) (h' : cicShift rate e' m') : e = e' ∧ m = m' := by
  obtain rfl := cicShift_exponent_unique h h'
  exact ⟨rfl, h.1.trans h'.1.symm⟩

theorem cicShift_zero {rate : ℕ} (h : rate ≤ 64) : cicShift rate 0 rate :=
  ⟨(Nat.div_one rate).symm, h, fun _ hj => absurd hj (Nat.not_lt_zero _)⟩

/-- One band (R91). -/
theorem cicShift_succ {rate k : ℕ} (hlow : 65 * 2 ^ k ≤ rate) (hhigh : rate < 65 * 2 ^ (k + 1)) :
    cicShift rate (k + 1) (rate / 2 ^ (k + 1)) :=
  cicShift_iff_band.2 ⟨rfl, hhigh, fun _ hj =>
    (Nat.mul_le_mul_left 65 (Nat.pow_le_pow_right Nat.two_pos (Nat.lt_succ_iff.1 hj))).trans hlow⟩

theorem cicShift_exponent_eq_zero_iff {rate e m : ℕ} (h : cicShift rate e m) : e = 0 ↔ rate ≤ 64 := by
  constructor
  · rintro rfl
    obtain ⟨-, hhigh, -⟩ := cicShift_iff_band.1 h
    omega
  · exact fun hle => cicShift_exponent_unique h (cicShift_zero hle)

theorem cicShift_exponent_eq_succ_iff {rate e m k : ℕ} (h : cicShift rate e m) :
    e = k + 1 ↔ 65 * 2 ^ k ≤ rate ∧ rate < 65 * 2 ^ (k + 1) := by
  constructor
  · rintro rfl
    obtain ⟨-, hhigh, hlow⟩ := cicShift_iff_band.1 h
    exact ⟨hlow k k.lt_succ_self, hhigh⟩
  · exact fun ⟨hlow, hhigh⟩ => cicShift_exponent_unique h (cicShift_succ hlow hhigh)

/-- A power of two loses no bit, and is halved down to 64 and no further (R92 (d), (h)). -/
theorem cicShift_two_pow (k : ℕ) : cicShift (2 ^ k) (k - 6) (2 ^ min k 6) := by
  refine ⟨?_, ?_, fun j hj => ?_⟩
  · rw [Nat.pow_div (k.sub_le 6) Nat.two_pos]
    congr 1
    omega
  · exact Nat.pow_le_pow_right Nat.two_pos (min_le_right k 6)
  · rw [Nat.pow_div (by omega) Nat.two_pos]
    exact Nat.pow_lt_pow_right one_lt_two (by omega : 6 < k - j)

/-! ### The bits that the halvings drop (R92 (a), (b), (f)) -/

theorem cicShift_achieved_le {rate e m : ℕ} (h : cicShift rate e m) : m * 2 ^ e ≤ rate := by
  obtain ⟨rfl, -, -⟩ := h
  exact Nat.div_mul_le_self _ _

theorem cicShift_lt_achieved_add {rate e m : ℕ} (h : cicShift rate e m) : rate < m * 2 ^ e + 2 ^ e := by
  obtain ⟨rfl, -, -⟩ := h
  exact Nat.lt_div_mul_add (Nat.two_pow_pos e)

/-- After a halving the working mantissa is at least 32, so what is dropped is less than one part in 32. -/
theorem cicShift_exponent_zero_or_le {rate e m : ℕ} (h : cicShift rate e m) : e = 0 ∨ 32 * 2 ^ e ≤ m * 2 ^ e := by
  cases e with
  | zero => exact .inl rfl
  | succ k =>
    obtain ⟨hlow, -⟩ := (cicShift_exponent_eq_succ_iff h).1 rfl
    obtain ⟨rfl, -, -⟩ := h
    refine .inr (Nat.mul_le_mul_right _ ((Nat.le_div_iff_mul_le (Nat.two_pow_pos _)).2 ?_))
    rw [Nat.pow_succ]
    omega

/-- The loss is greatest at ten halvings of a rate that leaves mantissa 32. -/
theorem cicShift_loss {rate e m : ℕ} (h : cicShift rate e m) (hpos : 1 ≤ m) (he : e ≤ 10) :
    rate < 2 * (m * 2 ^ e) ∧ 32 * rate < 33 * (m * 2 ^ e) ∧ 32768 * rate ≤ 33791 * (m * 2 ^ e) := by
  have hlt := cicShift_lt_achieved_add h
  have hunit : 2 ^ e ≤ 1024 := Nat.pow_le_pow_right (n := 2) Nat.two_pos he
  rcases cicShift_exponent_zero_or_le h with rfl | hle
  · rw [Nat.pow_zero] at hlt ⊢
    omega
  · omega

/-- The rate whose ratio is the worst (R92 (f)). -/
theorem cicShift_worst {e m : ℕ} (h : cicShift 33791 e m) : m * 2 ^ e = 32768 := by
  obtain rfl : e = 10 := (cicShift_exponent_eq_succ_iff (k := 9) h).2 (by decide)
  obtain ⟨rfl, -, -⟩ := h
  rfl

/-! ### The gain of steps 3 and 4 (R90, R91) -/

theorem cicGain_unique {m g g' : ℕ} (h : cicGain m g) (h' : cicGain m g') : g = g' := by
  obtain ⟨hle, hlt⟩ := h
  obtain ⟨hle', hlt'⟩ := h'
  exact le_antisymm (not_lt.1 fun hc => hle'.not_gt (hlt g' hc)) (not_lt.1 fun hc => hle.not_gt (hlt' g hc))

/-- The gain of a power of two is unity (R92 (d)). -/
theorem cicGain_two_pow (k : ℕ) : cicGain (2 ^ k) (3 * k) := by
  rw [cicGain, ← Nat.pow_mul, Nat.mul_comm k]
  exact ⟨le_rfl, fun _ hj => Nat.pow_lt_pow_right one_lt_two hj⟩

/-- The least exponent is less than a doubling too large (R92 (e)). -/
theorem cicGain_lt_two_mul {m g : ℕ} (h : cicGain m g) (hpos : 1 ≤ m) : 2 ^ g < 2 * m ^ 3 := by
  cases g with
  | zero =>
    have := Nat.one_le_pow 3 m hpos
    omega
  | succ j =>
    have := h.2 j j.lt_succ_self
    rw [Nat.pow_succ]
    omega

/-- The gain over all halvings lies in (1/2, 1] (R92 (e)). -/
theorem cicGain_overall {m g : ℕ} (h : cicGain m g) (hpos : 1 ≤ m) (n : ℕ) :
    m ^ 3 * 2 ^ n ≤ 2 ^ (g + n) ∧ 2 ^ (g + n) < 2 * (m ^ 3 * 2 ^ n) := by
  rw [Nat.pow_add, ← Nat.mul_assoc]
  exact ⟨Nat.mul_le_mul_right _ h.1, Nat.mul_lt_mul_of_pos_right (cicGain_lt_two_mul h hpos) (Nat.two_pow_pos n)⟩

/-- A power of two is achieved exactly, at unity gain (R92 (d), (h)). -/
theorem quantized_two_pow {k e m g : ℕ} (hshift : cicShift (2 ^ k) e m) (hgain : cicGain m g) :
    m * 2 ^ e = 2 ^ k ∧ g + 3 * e = 3 * k ∧ m = if k ≤ 6 then 2 ^ k else 64 := by
  obtain ⟨rfl, rfl⟩ := cicShift_unique hshift (cicShift_two_pow k)
  obtain rfl := cicGain_unique hgain (cicGain_two_pow (min k 6))
  refine ⟨?_, by omega, ?_⟩
  · rw [← Nat.pow_add]
    congr 1
    omega
  · split
    · rw [min_eq_left ‹_›]
    · rw [min_eq_right (by omega)]
      rfl

/-- Every entry of the table is the gain of its mantissa (R91). -/
theorem cicGain_gainTable (i : Fin gainTable.length) : cicGain (i + 1) gainTable[i] := by
  revert i
  unfold cicGain
  decide

theorem gainTable_eq_of_cicGain {m g : ℕ} (h : cicGain m g) (hpos : 1 ≤ m) (hle : m ≤ 64) :
    gainTable[m - 1]? = some g := by
  have hlt : m - 1 < gainTable.length := (Nat.sub_lt_iff_lt_add' hpos).2 (Nat.lt_succ_of_le hle)
  have hentry := cicGain_gainTable ⟨m - 1, hlt⟩
  rw [Nat.sub_add_cancel hpos] at hentry
  rw [List.getElem?_eq_getElem hlt, cicGain_unique h hentry]
  rfl

/-! ### The quantizer and its command -/

/-- The quantizer's answer for a rate in range, with the widths of its parts (R93). -/
theorem cicQuantize_spec {rate : ℕ} (h1 : 1 ≤ rate) (h2 : rate ≤ 65536) :
    ∃ m e g, cicQuantize (rate : ℤ) =
        .ok { rateMantissa := m - 1, rateExponent := e, gainExponent := g + 3 * e, achieved := m * 2 ^ e } ∧
      cicShift rate e m ∧ cicGain m g ∧ 1 ≤ m ∧ e ≤ 10 ∧ g ≤ 18 := by
  obtain ⟨m, e, g, hok, hm, hpos, hle, hhalve, he, hreach, hleast, hg⟩ := cicQuantize_ok h1 h2
  exact ⟨m, e, g, hok, ⟨hm, hle, hhalve⟩, ⟨hreach, hleast⟩, hpos, he, hg⟩

theorem exec_cicQuantize (rate : BitVec 32) (s : State) :
    exec (.cicQuantize rate) s = orRaise s (cicQuantize rate.toInt) fun r =>
      complete s { okPorts s.draws with resCic := cicWord r, resRate := cicRate r } [] := rfl

/-- `CIC_QUANTIZE` of a rate that quantizes. -/
theorem exec_cicQuantize_ok {rate : BitVec 32} {r : CicResult} (s : State) (h : cicQuantize rate.toInt = .ok r) :
    ∃ t, exec (.cicQuantize rate) s = .next t ∧ succeeded t ∧ onlyReports s t ∧
      t.ports.resCic = cicWord r ∧ t.ports.resRate = cicRate r := by
  rw [exec_cicQuantize, h, orRaise_ok, complete_nil]
  exact ⟨_, rfl, ⟨rfl, rfl⟩, onlyReports_reported s _, rfl, rfl⟩

/-- `CIC_QUANTIZE` that raises. -/
theorem exec_cicQuantize_error {rate : BitVec 32} {e : ErrorKind} (s : State)
    (h : cicQuantize rate.toInt = .error e) :
    ∃ t, exec (.cicQuantize rate) s = .next t ∧ failed t (errorCode e) (errorInfo e) ∧ onlyReports s t := by
  rw [exec_cicQuantize, h]
  exact raiseError_reports s e

/-- The achieved rate fits its port (R53, D33). -/
theorem cicRate_toNat {r : CicResult} (h : r.achieved ≤ 65536) : (cicRate r).toNat = r.achieved := by
  rw [cicRate, BitVec.toNat_ofNat, Nat.mod_eq_of_lt (by omega)]

/-! ### The obligations -/

/-- Settles O25: the parts of the quantizer's answer fit their fields and the 17-bit port. -/
theorem cicQuantizeApproximatesRate : Obligations.CicQuantizeApproximatesRate := by
  refine ⟨fun _ => rfl, fun s rate => ⟨fun h1 h2 => ?_, fun hout => ?_⟩⟩
  · have hnat : rate.toInt = (rate.toNat : ℤ) := by
      rw [BitVec.toInt_eq_toNat_cond] at h1 ⊢
      split at h1 <;> omega
    have hle : rate.toNat ≤ 65536 := by omega
    obtain ⟨m, e, g, hok, hshift, hgain, -, he, hg⟩ := cicQuantize_spec (by omega) hle
    obtain ⟨t, hexec, hsucc, hframe, hword, hrate⟩ := exec_cicQuantize_ok s (hnat ▸ hok)
    have hm := cicShift_mantissa_le hshift
    refine ⟨t, m, e, g, hexec, hsucc, hframe, hshift, hgain, ?_, ?_⟩
    · rw [hword, cicWord_toNat] <;> dsimp only <;> omega
    · rw [hrate, cicRate_toNat ((cicShift_achieved_le hshift).trans hle)]
  · exact exec_cicQuantize_error s (cicQuantize_range hout)

/-- Settles O26: each property is one of the laws of `cicShift` and `cicGain`. -/
theorem cicResultProperties : Obligations.CicResultProperties := by
  intro rate h1 h2
  obtain ⟨m, e, g, hok, hshift, hgain, hpos, he, hg⟩ := cicQuantize_spec h1 h2
  have hle := cicShift_achieved_le hshift
  have hloss := (Nat.sub_lt_iff_lt_add' hle).2 (cicShift_lt_achieved_add hshift)
  obtain ⟨hhalf, hratio, hworst⟩ := cicShift_loss hshift hpos he
  obtain ⟨hgain_le, hgain_lt⟩ := cicGain_overall hgain hpos (3 * e)
  have hmax := cicShift_mantissa_le hshift
  refine ⟨_, hok, ?_⟩
  dsimp only
  rw [Nat.sub_add_cancel hpos]
  refine ⟨hle, hhalf, by omega, ?_, hgain_le, hgain_lt, ?_, hloss, hratio, hworst, ?_, he, by omega, by omega⟩
  · rintro k - rfl
    exact quantized_two_pow hshift hgain
  · rw [Nat.shiftLeft_eq, Nat.shiftRight_eq_div_pow, ← hshift.1]
  · rintro rfl
    exact cicShift_worst hshift

/-- Settles O27: the bands are those of `cicShift`, the table that of `cicGain`. -/
theorem cicTablesMatch : Obligations.CicTablesMatch := by
  intro rate r h1 h2 hr
  obtain ⟨m, e, g, hok, hshift, hgain, hpos, -, -⟩ := cicQuantize_spec h1 h2
  obtain rfl := Except.ok.inj (hok.symm.trans hr)
  refine ⟨cicShift_exponent_eq_zero_iff hshift, fun e' he' => ?_, g, ?_, rfl⟩
  · obtain ⟨k, rfl⟩ := Nat.exists_eq_add_of_le' he'
    exact cicShift_exponent_eq_succ_iff hshift
  · exact gainTable_eq_of_cicGain hgain hpos (cicShift_mantissa_le hshift)

end Sys2Proof.Machine
end

section
/-! The device commands (spec/43_device_ops.md): where each narrow write goes and what the device reads from it, in
the statements' terms; what a command whose one event is a narrow write does; then the commands one by one. -/

namespace Sys2Proof.Machine

open Sys2Proof.Claims

/-! ### Addresses and words as the rules write them -/

theorem dataAddress_eq_dataAt (c : Config) (channel : Chan) : dataAddress c channel = dataAt c channel := by
  rw [dataAt, ← dataAddress_toNat, BitVec.ofNat_toNat, BitVec.setWidth_eq]

theorem globalAddress_eq_globalAt (c : Config) (offset : BitVec 8) :
    globalAddress c offset = globalAt c offset.toNat := by
  rw [globalAt, ← globalAddress_toNat, BitVec.ofNat_toNat, BitVec.setWidth_eq]

theorem ledWord_eq_ofNat (led : BitVec 8) : ledWord led = BitVec.ofNat 32 led.toNat := (BitVec.ofNat_toNat 32 led).symm

/-- The four bits of the cfg word stand side by side, so `|` of them is their sum (R58). -/
theorem cfgWord_eq_sum (reset afePowerDown dacClr clrErr : Bool) :
    cfgWord ⟨reset, afePowerDown, dacClr, clrErr⟩ =
      BitVec.ofNat 32 (reset.toNat + 2 * afePowerDown.toNat + 4 * dacClr.toNat + 8 * clrErr.toNat) := by
  revert reset afePowerDown dacClr clrErr
  decide

/-- The data word of an accepted voltage is its machine units (R55, R70). -/
theorem dataWord_machineSample {f : Volt} (h : accepted f) :
    dataWord (machineSample f) = BitVec.ofInt 32 (machineUnits f) := by
  have ⟨_, hnonneg, _⟩ := h
  calc dataWord (machineSample f)
      = BitVec.ofNat 32 (machineSample f).toNat := (BitVec.ofNat_toNat 32 _).symm
    _ = BitVec.ofInt 32 (machineUnits f).toNat := by rw [machineSample_toNat h, BitVec.ofInt_natCast]
    _ = BitVec.ofInt 32 (machineUnits f) := by rw [Int.toNat_of_nonneg hnonneg]

/-! ### What the device reads from the words that the block composes -/

theorem narrowWrite_ledWord (c : Config) (led : BitVec 8) :
    narrowWrite c (globalAddress c 0x23) (ledWord led) = some (.leds led) := by
  rw [narrowWrite_leds, ledWord, setWidth_led]

theorem narrowWrite_cfgWord (c : Config) (value : Cfg) :
    narrowWrite c (globalAddress c 0x22) (cfgWord value) = some (.cfg value) := by
  rw [narrowWrite_cfg, cfgFields_cfgWord]

theorem narrowWrite_configWord (c : Config) (word : BitVec 16) :
    narrowWrite c (globalAddress c 0x26) (word.setWidth 32) = some (.stageCic (configOf word)) := by
  rw [narrowWrite_stageCic, setWidth_half]
  rfl

/-! ### A command whose one event is a narrow write -/

/-- On time, to an address with a register: the mirror and the ports are the command's own, the rest is the write's
(R30, R66, R157). -/
theorem complete_writesOne {s : State} {ports : ResultPorts} {addr : Address} {word : Word} {w : DeviceWrite}
    (mirror : LevelRegs) (hports : ports.err = 0 ∧ ports.errInfo = 0) (hb : onTime s)
    (hw : narrowWrite s.config addr word = some w) :
    ∃ t, complete (s.withMirror mirror) ports [.wn addr word] = .next t ∧ t.ports = ports ∧ t.mirror = mirror ∧
      writesOne s t addr word w := by
  refine ⟨_, complete_wn hb hw, rfl, rfl, rfl, ⟨_, _, rfl⟩, ?_, fun a ha => ?_, rfl, rfl, rfl, rfl, rfl, hports⟩
  · exact (readWord_writeWord ..).trans (if_pos rfl)
  · exact (readWord_writeWord ..).trans (if_neg ha.symm)

/-- The same to a device-wide register (R39). -/
theorem complete_writesOne_global {s : State} {ports : ResultPorts} {offset : BitVec 8} {word : Word} {w : DeviceWrite}
    (mirror : LevelRegs) (hports : ports.err = 0 ∧ ports.errInfo = 0) (hb : onTime s)
    (hw : narrowWrite s.config (globalAddress s.config offset) word = some w) :
    ∃ t, complete (s.withMirror mirror) ports [.wn (globalAddress s.config offset) word] = .next t ∧
      t.ports = ports ∧ t.mirror = mirror ∧ writesOne s t (globalAt s.config offset.toNat) word w :=
  globalAddress_eq_globalAt s.config offset ▸ complete_writesOne mirror hports hb hw

/-! ### `SET_CHANNEL` (R100) -/

theorem exec_setChannel (chan : Chan) (f : Volt) (s : State) :
    exec (.setChannel chan f) s = orRaise s (voltageToMu s.config f) fun mu =>
      complete s (okPorts s.draws) [.wn (dataAddress s.config chan) (dataWord mu)] := rfl

/-- `SET_CHANNEL` of a voltage that converts. -/
theorem exec_setChannel_ok {s : State} {f : Volt} {mu : Sample} (chan : Chan) (h : voltageToMu s.config f = .ok mu)
    (hb : onTime s) :
    ∃ t, exec (.setChannel chan f) s = .next t ∧ t.mirror = s.mirror ∧
      writesOne s t (dataAt s.config chan) (dataWord mu) (.data chan (dataWord mu)) := by
  obtain ⟨t, hexec, -, hmirror, hwrite⟩ :=
    complete_writesOne s.mirror (ports := okPorts s.draws) ⟨rfl, rfl⟩ hb (narrowWrite_data s.config chan (dataWord mu))
  rw [exec_setChannel, h, orRaise_ok]
  exact ⟨t, hexec, hmirror, dataAddress_eq_dataAt s.config chan ▸ hwrite⟩

/-- `SET_CHANNEL` of a voltage that does not convert. -/
theorem exec_setChannel_error {s : State} {f : Volt} {e : ErrorKind} (chan : Chan)
    (h : voltageToMu s.config f = .error e) :
    ∃ t, exec (.setChannel chan f) s = .next t ∧ failed t (errorCode e) (errorInfo e) ∧ onlyReports s t := by
  rw [exec_setChannel, h]
  exact raiseError_reports s e

/-! ### `STAGE_CIC` (R107) -/

theorem exec_stageCic (rate : BitVec 32) (s : State) :
    exec (.stageCic rate) s = orRaise s (cicQuantize rate.toInt) fun r =>
      complete (s.withMirror { s.mirror with stagedCic := some (configOf (cicWord r)) })
        { okPorts s.draws with resCic := cicWord r, resRate := cicRate r }
        [.wn (globalAddress s.config 0x26) ((cicWord r).setWidth 32)] := rfl

/-- `STAGE_CIC` of a rate that quantizes. -/
theorem exec_stageCic_ok {s : State} {rate : BitVec 32} {r : CicResult} (h : cicQuantize rate.toInt = .ok r)
    (hb : onTime s) :
    ∃ t, exec (.stageCic rate) s = .next t ∧ t.ports.resCic = cicWord r ∧ t.ports.resRate = cicRate r ∧
      t.mirror = { s.mirror with stagedCic := some (configOf (cicWord r)) } ∧
      writesOne s t (globalAt s.config 0x26) ((cicWord r).setWidth 32) (.stageCic (configOf (cicWord r))) := by
  obtain ⟨t, hexec, hports, hmirror, hwrite⟩ :=
    complete_writesOne_global { s.mirror with stagedCic := some (configOf (cicWord r)) }
      (ports := { okPorts s.draws with resCic := cicWord r, resRate := cicRate r }) ⟨rfl, rfl⟩ hb
      (narrowWrite_configWord s.config (cicWord r))
  rw [exec_stageCic, h, orRaise_ok]
  exact ⟨t, hexec, by rw [hports], by rw [hports], hmirror, hwrite⟩

/-- `STAGE_CIC` of a rate that does not quantize. -/
theorem exec_stageCic_error {rate : BitVec 32} {e : ErrorKind} (s : State) (h : cicQuantize rate.toInt = .error e) :
    ∃ t, exec (.stageCic rate) s = .next t ∧ failed t (errorCode e) (errorInfo e) ∧ onlyReports s t := by
  rw [exec_stageCic, h]
  exact raiseError_reports s e

/-- The word and the achieved rate of a `rate` operand in range, by the conditions of steps 2 to 7 (R90). -/
theorem cicQuantize_operand {rate : BitVec 32} (h1 : 1 ≤ rate.toInt) (h2 : rate.toInt ≤ 65536) :
    ∃ r m e g, cicQuantize rate.toInt = .ok r ∧ cicShift rate.toNat e m ∧ cicGain m g ∧
      (cicWord r).toNat = (m - 1) + 64 * e + 1024 * (g + 3 * e) ∧ (cicRate r).toNat = m * 2 ^ e := by
  have hnat : rate.toInt = (rate.toNat : ℤ) :=
    BitVec.toInt_eq_toNat_of_lt (BitVec.toInt_pos_iff.1 (by omega))
  have hle : rate.toNat ≤ 65536 := by omega
  obtain ⟨m, e, g, hok, hshift, hgain, -, he, hg⟩ := cicQuantize_spec (by omega) hle
  have hm := cicShift_mantissa_le hshift
  refine ⟨_, m, e, g, hnat ▸ hok, hshift, hgain, ?_, cicRate_toNat ((cicShift_achieved_le hshift).trans hle)⟩
  rw [cicWord_toNat] <;> dsimp only <;> omega

/-! ### The bit-field writes, the delay and the read (R105, R106, R109, R111) -/

theorem exec_setLeds (led : BitVec 8) (s : State) :
    exec (.setLeds led) s = complete (s.withMirror { s.mirror with leds := some led }) (okPorts s.draws)
      [.wn (globalAddress s.config 0x23) (ledWord led)] := rfl

theorem exec_setCfg (reset afePowerDown dacClr clrErr : Bool) (s : State) :
    exec (.setCfg reset afePowerDown dacClr clrErr) s =
      complete (s.withMirror { s.mirror with cfg := some ⟨reset, afePowerDown, dacClr, clrErr⟩ }) (okPorts s.draws)
        [.wn (globalAddress s.config 0x22) (cfgWord ⟨reset, afePowerDown, dacClr, clrErr⟩)] := rfl

theorem exec_delay (dur : Duration) (s : State) :
    exec (.delay dur) s =
      .next ((s.delayed dur).reported (okPorts s.draws) (eventRecords s.draws 0 [.dl dur])) := rfl

theorem exec_read (addr : Address) (s : State) : exec (.read addr) s = raiseError s .unsupportedOperation := rfl

/-! ### The obligations -/

/-- Settles O29: the conversion decides the command, and under the default arithmetic its sample is the rule's. -/
theorem setChannelWritesSample : Obligations.SetChannelWritesSample := by
  refine ⟨fun _ _ => rfl, fun s chan f => ⟨fun mu h hb => exec_setChannel_ok chan h hb, fun hc h hb => ?_,
    fun h => exec_setChannel_error chan (voltageToMu_of_not_takes h)⟩⟩
  rw [← dataWord_machineSample h]
  exact exec_setChannel_ok chan (voltageToMu_of_accepted hc h) hb

/-- Settles O35: the quantizer's word goes to the register, the mirror and the port. -/
theorem stageCicWritesMirrorsAndReturns : Obligations.StageCicWritesMirrorsAndReturns := by
  refine ⟨fun _ => rfl, fun s rate => ⟨fun h1 h2 hb => ?_, fun h => exec_stageCic_error s (cicQuantize_range h)⟩⟩
  obtain ⟨r, m, e, g, hok, hshift, hgain, hword, hrate⟩ := cicQuantize_operand h1 h2
  obtain ⟨t, hexec, hresCic, hresRate, hmirror, hwrite⟩ := exec_stageCic_ok hok hb
  exact ⟨t, m, e, g, cicWord r, hexec, hshift, hgain, hword, hresCic, hresRate ▸ hrate, hmirror, hwrite⟩

/-- Settles O33: one narrow write of the LED word. -/
theorem setLedsWritesAndMirrors : Obligations.SetLedsWritesAndMirrors := by
  refine ⟨fun _ => rfl, fun s led hb => ?_⟩
  obtain ⟨t, hexec, -, hmirror, hwrite⟩ :=
    complete_writesOne_global { s.mirror with leds := some led } (ports := okPorts s.draws) ⟨rfl, rfl⟩ hb
      (narrowWrite_ledWord s.config led)
  exact ⟨t, (exec_setLeds led s).trans hexec, hmirror, ledWord_eq_ofNat led ▸ hwrite⟩

/-- Settles O34: one narrow write of the cfg word. -/
theorem setCfgWritesAndMirrors : Obligations.SetCfgWritesAndMirrors := by
  refine ⟨fun _ _ _ _ => rfl, fun s reset afePowerDown dacClr clrErr hb => ?_⟩
  obtain ⟨t, hexec, -, hmirror, hwrite⟩ :=
    complete_writesOne_global { s.mirror with cfg := some ⟨reset, afePowerDown, dacClr, clrErr⟩ }
      (ports := okPorts s.draws) ⟨rfl, rfl⟩ hb (narrowWrite_cfgWord s.config ⟨reset, afePowerDown, dacClr, clrErr⟩)
  exact ⟨t, (exec_setCfg ..).trans hexec, hmirror, cfgWord_eq_sum reset afePowerDown dacClr clrErr ▸ hwrite⟩

/-- Settles O36: the delay is issued whatever the bus's position, and one of 0 passes no frame boundary. -/
theorem delayAdvancesSchedule : Obligations.DelayAdvancesSchedule := by
  refine ⟨fun _ => rfl, fun s dur => ⟨_, exec_delay dur s, ⟨rfl, rfl⟩, rfl, rfl, ⟨_, rfl, rfl, rfl⟩, rfl, rfl, rfl, rfl,
    fun _ => rfl, ?_⟩⟩
  rintro rfl
  exact congrArg (elapseFrames s.config s.draws s.device) (framesCrossed_zero s.now)

/-- Settles O38: ERROR ENTRY with UnsupportedOperation, whatever the address. -/
theorem readIsUnsupported : Obligations.ReadIsUnsupported :=
  ⟨fun _ => rfl, fun s addr => exec_read addr s ▸ raiseError_reports s .unsupportedOperation⟩

end Sys2Proof.Machine
end

section
/-! Errors (spec/60_exceptions.md): a command in error is one that ERROR ENTRY ends, in every state of its
configuration; and what such a command leaves, its ports and its draw of free values, decides nothing of what the
next command does to the block (R138, R139). -/

namespace Sys2Proof.Machine

open Sys2Proof.Claims

/-! ### What a step does, by what is presented -/

theorem step_idle {s : State} (h : s.input = []) : step s = .next s := by simp only [step, h]

/-- A reserved code (R60). -/
theorem step_reserved {s : State} {p : Presented} {rest : List Presented} {r : DecodeError} (h : s.input = p :: rest)
    (hp : decode p.record = .error r) : step s = raiseError (s.accepted p rest) .illegalCommand := by
  simp only [step, h, hp, illegalCommand]

theorem step_decoded {s : State} {p : Presented} {rest : List Presented} {i : Instr} (h : s.input = p :: rest)
    (hp : decode p.record = .ok i) : step s = exec i (s.accepted p rest) := by
  simp only [step, h, hp]

/-! ### What a command that reports an error has done -/

/-- A command that completes reports what its ports say. -/
theorem complete_ports {s t : State} {ports : ResultPorts} {events : List Event}
    (h : complete s ports events = .next t) : t.ports = ports := by
  obtain ⟨u, -, rfl⟩ := complete_next h
  rfl

/-- A command that reports an error was ended by ERROR ENTRY, and would be in every state of the same configuration. -/
theorem exec_error {i : Instr} {s t : State} (h : exec i s = .next t) (herr : t.ports.err ≠ 0) :
    ∃ e, t = s.reported (errorPorts e s.draws) [] ∧ ∀ u : State, u.config = s.config → exec i u = raiseError u e := by
  rcases exec_uniform i s.config with ⟨e, -, hraise⟩ | ⟨mirror, ports, events, -, hports, hcomplete⟩
  · rw [hraise s rfl] at h
    cases h
    exact ⟨e, rfl, hraise⟩
  · rw [hcomplete s rfl] at h
    rw [complete_ports h] at herr
    exact absurd (hports s.draws).1 herr

/-- A step that reports an error has accepted a command and ended it by ERROR ENTRY: a reserved code or a command
in error. -/
theorem step_error {s t : State} (h : step s = .next t) (hinput : s.input ≠ []) (herr : t.ports.err ≠ 0) :
    ∃ p rest e, t = (s.accepted p rest).reported (errorPorts e s.draws) [] := by
  cases hs : s.input with
  | nil => exact absurd hs hinput
  | cons p rest =>
    cases hp : decode p.record with
    | error r =>
      rw [step_reserved hs hp] at h
      cases h
      exact ⟨p, rest, .illegalCommand, rfl⟩
    | ok i =>
      rw [step_decoded hs hp] at h
      obtain ⟨e, ht, -⟩ := exec_error h herr
      exact ⟨p, rest, e, ht⟩

/-! ### States that differ in ports, device and draws alone -/

/-- `t` is `s` but for what the block does not read: the ports, the device and the draws of free values. -/
def sameBlock (s t : State) : Prop :=
  ∃ ports eventPort device draws,
    t = { s with ports := ports, eventPort := eventPort, device := device, draws := draws }

theorem sameBlock_frame {s t : State} (h : sameBlock s t) :
    t.config = s.config ∧ t.mirror = s.mirror ∧ t.trace = s.trace ∧ t.input = s.input ∧ t.now = s.now ∧
      t.busPosition = s.busPosition ∧ t.regSpace = s.regSpace := by
  obtain ⟨ports, eventPort, device, draws, rfl⟩ := h
  exact ⟨rfl, rfl, rfl, rfl, rfl, rfl, rfl⟩

theorem sameBlock_withMirror {s t : State} (h : sameBlock s t) (m : LevelRegs) :
    sameBlock (s.withMirror m) (t.withMirror m) := by
  obtain ⟨ports, eventPort, device, draws, rfl⟩ := h
  exact ⟨ports, eventPort, device, draws, rfl⟩

theorem sameBlock_accepted {s t : State} (h : sameBlock s t) (p : Presented) (rest : List Presented) :
    sameBlock (s.accepted p rest) (t.accepted p rest) := by
  obtain ⟨ports, eventPort, device, draws, rfl⟩ := h
  exact ⟨ports, eventPort, device, draws, rfl⟩

theorem sameBlock_reported {s t : State} (h : sameBlock s t) (ports ports' : ResultPorts)
    (records records' : List EventPort) : sameBlock (s.reported ports records) (t.reported ports' records') := by
  obtain ⟨_, _, device, draws, rfl⟩ := h
  exact ⟨ports', records', device, draws + 1, rfl⟩

/-! ### The shared operations treat them alike -/

/-- Whether an event is taken hangs on the configuration, the schedule and the bus (R135, I3), what it does to the
trace, the schedule and the register space on nothing else. -/
theorem issueEvent_sameBlock {s t u : State} {e : Event} (hst : sameBlock s t) (h : issueEvent s e = .ok u) :
    ∃ v, issueEvent t e = .ok v ∧ sameBlock u v := by
  obtain ⟨ports, eventPort, device, draws, rfl⟩ := hst
  rcases issueEvent_ok h with ⟨addr, word, w, rfl, hb, hw, rfl⟩ | ⟨addr, words, w, rfl, hb, hw, rfl⟩ | ⟨dur, rfl, rfl⟩
  · exact ⟨_, issueEvent_wn hb hw, ports, eventPort, _, draws, rfl⟩
  · exact ⟨_, issueEvent_ww hb hw, ports, eventPort, _, draws, rfl⟩
  · exact ⟨_, rfl, ports, eventPort, _, _, rfl⟩

theorem issueEvents_sameBlock {s t u : State} {es : List Event} (hst : sameBlock s t) (h : issueEvents s es = .ok u) :
    ∃ v, issueEvents t es = .ok v ∧ sameBlock u v := by
  induction es generalizing s t with
  | nil =>
    cases h
    exact ⟨t, rfl, hst⟩
  | cons e es ih =>
    simp only [issueEvents] at h
    split at h
    · cases h
    · rename_i s' he
      obtain ⟨t', he', hst'⟩ := issueEvent_sameBlock hst he
      simpa only [issueEvents, he'] using ih hst' h

theorem complete_sameBlock {s t u : State} {ports : ResultPorts} {es : List Event} (hst : sameBlock s t)
    (h : complete s ports es = .next u) (ports' : ResultPorts) :
    ∃ v, complete t ports' es = .next v ∧ sameBlock u v := by
  obtain ⟨u', hu', rfl⟩ := complete_next h
  obtain ⟨v', hv', huv⟩ := issueEvents_sameBlock hst hu'
  exact ⟨_, complete_of_issue hv', sameBlock_reported huv _ _ _ _⟩

theorem raiseError_sameBlock {s t u : State} {e : ErrorKind} (hst : sameBlock s t) (h : raiseError s e = .next u) :
    ∃ v, raiseError t e = .next v ∧ sameBlock u v ∧
      u.ports.err = v.ports.err ∧ u.ports.errInfo = v.ports.errInfo := by
  cases h
  exact ⟨_, rfl, sameBlock_reported hst _ _ _ _, rfl, rfl⟩

/-! ### So do every command and every step -/

theorem exec_sameBlock {i : Instr} {s t u : State} (hst : sameBlock s t) (h : exec i s = .next u) :
    ∃ v, exec i t = .next v ∧ sameBlock u v ∧
      u.ports.err = v.ports.err ∧ u.ports.errInfo = v.ports.errInfo := by
  obtain ⟨hconfig, hmirror, -⟩ := sameBlock_frame hst
  rcases exec_uniform i s.config with ⟨e, -, hraise⟩ | ⟨mirror, ports, events, -, hports, hcomplete⟩
  · rw [hraise s rfl] at h
    rw [hraise t hconfig]
    exact raiseError_sameBlock hst h
  · rw [hcomplete s rfl] at h
    rw [hcomplete t hconfig, hmirror]
    obtain ⟨v, hv, huv⟩ := complete_sameBlock (sameBlock_withMirror hst _) h (ports t.draws)
    obtain ⟨herr, hinfo⟩ := hports s.draws
    obtain ⟨herr', hinfo'⟩ := hports t.draws
    refine ⟨v, hv, huv, ?_⟩
    rw [complete_ports h, complete_ports hv, herr, hinfo, herr', hinfo']
    exact ⟨rfl, rfl⟩

/-- With nothing presented the ports stay what they were, so only a step that accepts a command reports alike. -/
theorem step_sameBlock {s t u : State} (hst : sameBlock s t) (h : step s = .next u) :
    ∃ v, step t = .next v ∧ sameBlock u v ∧
      (s.input ≠ [] → u.ports.err = v.ports.err ∧ u.ports.errInfo = v.ports.errInfo) := by
  obtain ⟨-, -, -, hinput, -⟩ := sameBlock_frame hst
  cases hs : s.input with
  | nil =>
    rw [step_idle hs] at h
    cases h
    exact ⟨t, step_idle (hinput.trans hs), hst, fun hne => absurd rfl hne⟩
  | cons p rest =>
    have haccepted := sameBlock_accepted hst p rest
    cases hp : decode p.record with
    | error r =>
      rw [step_reserved hs hp] at h
      rw [step_reserved (hinput.trans hs) hp]
      obtain ⟨v, hv, huv, hreport⟩ := raiseError_sameBlock haccepted h
      exact ⟨v, hv, huv, fun _ => hreport⟩
    | ok i =>
      rw [step_decoded hs hp] at h
      rw [step_decoded (hinput.trans hs) hp]
      obtain ⟨v, hv, huv, hreport⟩ := exec_sameBlock haccepted h
      exact ⟨v, hv, huv, fun _ => hreport⟩

/-! ### The obligations -/

/-- Settles O41: ERROR ENTRY only reports. -/
theorem errorsLeaveNothingBehind : Obligations.ErrorsLeaveNothingBehind := by
  intro i s t h herr
  obtain ⟨e, rfl, -⟩ := exec_error h herr
  exact onlyReports_reported s _

/-- Settles O42: the failed command's state and the state without it are the same block, so `step_sameBlock`
applies; and they have one configuration, so the command is ended again by the same error. -/
theorem nextCommandAfterErrorIsUnaffected : Obligations.NextCommandAfterErrorIsUnaffected := by
  constructor
  · intro s t u hstep hinput herr hnext
    obtain ⟨p, rest, e, rfl⟩ := step_error hstep hinput herr
    have hsame : sameBlock ((s.accepted p rest).reported (errorPorts e s.draws) []) (s.accepted p rest) :=
      ⟨s.ports, s.eventPort, s.device, s.draws, rfl⟩
    obtain ⟨v, hv, huv, hreport⟩ := step_sameBlock hsame hnext
    obtain ⟨-, hmirror, htrace, hrest, hnow, -, hspace⟩ := sameBlock_frame huv
    exact ⟨v, hv, hmirror.symm, htrace.symm, hnow.symm, hspace.symm, hrest.symm, hreport⟩
  · intro i s t h herr
    obtain ⟨e, rfl, hagain⟩ := exec_error h herr
    exact ⟨_, hagain _ rfl, rfl, rfl⟩

end Sys2Proof.Machine
end

section
/-! The decoder (spec/30_encoding.md section 1): which codes it takes and what it reads from the ports; and the record
as one number, from which every port is read back. -/

namespace Sys2Proof

/-! ### The record as one number -/

/-- The bits above a pushed field, from any place above it on. -/
theorem pushField_div_of_le {w n : ℕ} (field : BitVec w) (rest : ℕ) (h : w ≤ n) :
    pushField field rest / 2 ^ n = rest / 2 ^ (n - w) := by
  rw [← pushField_div_add field rest, Nat.add_sub_cancel' h]

/-- Every port is read back from its own bits (log entry 9). -/
theorem ofBits_toBits {r : CommandRecord} (h : r.wellFormed = true) : CommandRecord.ofBits r.toBits = r := by
  have hlen : r.volt.length = 32 := by simpa [CommandRecord.wellFormed] using h
  have hvolt : unpackVolts 32 (packVolts r.volt) = r.volt := hlen ▸ unpackVolts_packVolts r.volt
  simp [CommandRecord.ofBits, CommandRecord.toBits, pushField_div_of_le, hvolt, -Nat.reducePow]

/-! ### The ports of an encoded command -/

/-- A voltage list within the 32 ports is read back, as long as it is. -/
theorem range_map_voltPorts {vs : List Volt} (h : vs.length ≤ 32) :
    (List.range vs.length).map (fun k => (voltPorts vs).getD k 0) = vs := by
  apply List.ext_getElem (by simp)
  intro k hk hk'
  rw [List.getElem_map, List.getElem_range, voltPorts_getD h hk', List.getD_eq_getElem _ _ hk']

/-- The four cfg bits are read back from their port (R51). -/
theorem cfgPort_getLsbD (a b c d : Bool) :
    (cfgPort a b c d).getLsbD 0 = a ∧ (cfgPort a b c d).getLsbD 1 = b ∧ (cfgPort a b c d).getLsbD 2 = c ∧
      (cfgPort a b c d).getLsbD 3 = d := by
  revert a b c d
  decide

/-- The encoder's record has every operand on the port that the decoder reads it from. -/
theorem decode_encode {i : Instr} (h : i.wellFormed = true) : decode (encode i) = .ok i := by
  have hvolts {n : BitVec 6} {vs : List Volt} (hlen : (vs.length == suppliedVolts n) = true) :
      (List.range (suppliedVolts n)).map (fun k => (voltPorts vs).getD k 0) = vs := by
    rw [beq_iff_eq] at hlen
    rw [← hlen]
    exact range_map_voltPorts (hlen ▸ suppliedVolts_le n)
  cases i with
  | setGroup chan n vs => exact congrArg (fun l => Except.ok (Instr.setGroup chan n l)) (hvolts h)
  | packGroup n vs => exact congrArg (fun l => Except.ok (Instr.packGroup n l)) (hvolts h)
  | setCfg a b c d =>
    obtain ⟨ha, hb, hc, hd⟩ := cfgPort_getLsbD a b c d
    change Except.ok (Instr.setCfg ((cfgPort a b c d).getLsbD 0) ((cfgPort a b c d).getLsbD 1)
      ((cfgPort a b c d).getLsbD 2) ((cfgPort a b c d).getLsbD 3)) = _
    rw [ha, hb, hc, hd]
  | _ => rfl

/-- The encoder's record has the 32 voltage ports of R51. -/
theorem encode_wellFormed (i : Instr) : (encode i).wellFormed = true := by
  cases i <;> simp [encode, CommandRecord.wellFormed, CommandRecord.ofCode]

/-! ### The codes -/

/-- The seventeen codes of R52. -/
def commandCodes : List (BitVec 8) :=
  [0x00, 0x20, 0x21, 0x22, 0x23, 0x25, 0x26, 0x27, 0x40, 0x41, 0x42, 0x60, 0x61, 0x62, 0x63, 0x64, 0x80]

/-- A code of the table is its own command's. -/
theorem decode_of_listed {r : CommandRecord} (h : r.cmdOp ∈ commandCodes) :
    ∃ i, decode r = .ok i ∧ opcode i = r.cmdOp := by
  obtain ⟨code, chan, offs, l2w, mask, led, cfgbits, rate, addr, dur, nvolt, volt⟩ := r
  fin_cases h <;> exact ⟨_, rfl, rfl⟩

/-- Any other code is refused by name (R60). -/
theorem decode_of_reserved {r : CommandRecord} (h : r.cmdOp ∉ commandCodes) :
    decode r = .error (.illegalCommand r.cmdOp) := by
  unfold decode
  split
  case h_18 => rfl
  all_goals
    rename_i hcode
    exact absurd (hcode ▸ by decide) h

/-! ### The obligations -/

/-- Settles O5: the bits give the record back, and the record the command. -/
theorem decodeOfEncodedBits : Obligations.DecodeOfEncodedBits := by
  intro i h
  rw [ofBits_toBits (encode_wellFormed i), decode_encode h]

/-- Settles O2: a listed code decodes to its command, and a reserved one does not decode. -/
theorem decoderRefusesExactlyReservedCodes : Obligations.DecoderRefusesExactlyReservedCodes := by
  intro r
  by_cases h : r.cmdOp ∈ commandCodes
  · obtain ⟨i, hdecode, hcode⟩ := decode_of_listed h
    refine ⟨.inr ⟨i, hdecode, hcode⟩, fun ⟨e, he⟩ => ?_, fun hreserved => absurd h hreserved⟩
    rw [hdecode] at he
    cases he
  · have hdecode := decode_of_reserved h
    exact ⟨.inl hdecode, fun _ => h, fun _ => ⟨_, hdecode⟩⟩

/-- Settles O4. -/
theorem decodedCommandsAreWellFormed : Obligations.DecodedCommandsAreWellFormed :=
  fun _ _ h => Machine.decode_wellFormed h

/-- Settles O1: each code selects its arm of the decoder. -/
theorem decodesByCommandCode : Obligations.DecodesByCommandCode := by
  rintro ⟨code, chan, offs, l2w, mask, led, cfgbits, rate, addr, dur, nvolt, volt⟩
  dsimp only
  refine ⟨?_, ?_, ?_, ?_, ?_, ?_, ?_, ?_, ?_, ?_, ?_, ?_, ?_, ?_, ?_, ?_, ?_⟩ <;> rintro rfl <;> rfl

/-- Settles O3: eighteen evaluations of the decoder. -/
theorem tableWordsDecode : Obligations.TableWordsDecode := by
  unfold Obligations.TableWordsDecode
  decide

end Sys2Proof
end

section
/-! What a command does, in one equation: the events it emits and the mirror it leaves are functions of the command
and the configuration, and the rest is issuing those events. Then what an issued event list has done to the schedule,
the register space and the device's level registers, and the invariants that follow. -/

namespace Sys2Proof.Machine

open Sys2Proof.Claims

/-! ### The events and the mirror of a command -/

/-- The events that a command emits, or the error that it raises (R138). -/
def commandEvents (c : Config) : Instr → Except ErrorKind (List Event)
  | .setChannel chan volt => (voltageToMu c volt).map fun mu => [.wn (dataAddress c chan) (dataWord mu)]
  | .update mask => .ok [.wn (globalAddress c 0x20) mask]
  | .setHold mask => .ok [.wn (globalAddress c 0x21) mask]
  | .setCfg reset afePowerDown dacClr clrErr =>
    .ok [.wn (globalAddress c 0x22) (cfgWord ⟨reset, afePowerDown, dacClr, clrErr⟩)]
  | .setLeds led => .ok [.wn (globalAddress c 0x23) (ledWord led)]
  | .setContinuous mask => .ok [.wn (globalAddress c 0x25) mask]
  | .stageCic rate => (cicQuantize rate.toInt).map fun r => [.wn (globalAddress c 0x26) ((cicWord r).setWidth 32)]
  | .applyCic mask => .ok [.wn (globalAddress c 0x27) mask]
  | .setGroup chan nvolt volts => (groupWrite c chan nvolt volts).map fun words => [.ww (dataAddress c chan) words]
  | .initialise => .ok (initEvents c)
  | .delay dur => .ok [.dl dur]
  | .voltageToMu volt => (voltageToMu c volt).map fun _ => []
  | .packGroup nvolt volts => (packGroup c nvolt volts).map fun _ => []
  | .encode _ _ => .ok []
  | .validateGroupAlignment chan l2w => (validateGroupAlignment chan l2w.toNat).map fun _ => []
  | .cicQuantize rate => (cicQuantize rate.toInt).map fun _ => []
  | .read _ => .error .unsupportedOperation

/-- The mirror that a command without error leaves, from the mirror before it (R14, R16, R28). -/
def commandMirror : Instr → LevelRegs → LevelRegs
  | .setHold mask, m => { m with holdMask := some mask }
  | .setCfg reset afePowerDown dacClr clrErr, m => { m with cfg := some ⟨reset, afePowerDown, dacClr, clrErr⟩ }
  | .setLeds led, m => { m with leds := some led }
  | .setContinuous mask, m => { m with continuousMask := some mask }
  | .stageCic rate, m =>
    match cicQuantize rate.toInt with
    | .ok r => { m with stagedCic := some (configOf (cicWord r)) }
    | .error _ => m
  | .initialise, _ => initMirror
  | .setChannel _ _, m => m
  | .update _, m => m
  | .applyCic _, m => m
  | .setGroup _ _ _, m => m
  | .delay _, m => m
  | .voltageToMu _, m => m
  | .packGroup _ _, m => m
  | .encode _ _, m => m
  | .validateGroupAlignment _ _, m => m
  | .cicQuantize _, m => m
  | .read _, m => m

theorem map_eq_ok {ε α β : Type} {r : Except ε α} {f : α → β} {v : β} (h : r.map f = .ok v) :
    ∃ a, r = .ok a ∧ f a = v := by
  cases r with
  | error e => cases h
  | ok a => exact ⟨a, rfl, Except.ok.inj h⟩

theorem orRaise_map {α β : Type} (s : State) (r : Except ErrorKind α) (f : α → β)
    (go : β → Host.Outcome State Fault Refusal) : orRaise s (r.map f) go = orRaise s r fun v => go (f v) := by
  cases r <;> rfl

/-- A command is its events and its mirror: it raises, or completes with ports that report no error. -/
theorem exec_eq (i : Instr) (s : State) :
    ∃ ports : ResultPorts, ports.err = 0 ∧ ports.errInfo = 0 ∧
      exec i s = orRaise s (commandEvents s.config i) fun events =>
        complete (s.withMirror (commandMirror i s.mirror)) ports events := by
  cases i with
  | setChannel chan volt => exact ⟨okPorts s.draws, rfl, rfl, (orRaise_map ..).symm⟩
  | setGroup chan nvolt volts => exact ⟨okPorts s.draws, rfl, rfl, (orRaise_map ..).symm⟩
  | validateGroupAlignment chan l2w => exact ⟨okPorts s.draws, rfl, rfl, (orRaise_map ..).symm⟩
  | stageCic rate =>
    rw [exec_stageCic, commandEvents, commandMirror]
    cases cicQuantize rate.toInt with
    | error e => exact ⟨okPorts s.draws, rfl, rfl, rfl⟩
    | ok r => exact ⟨{ okPorts s.draws with resCic := cicWord r, resRate := cicRate r }, rfl, rfl, rfl⟩
  | voltageToMu volt =>
    rw [exec_voltageToMu, commandEvents]
    cases voltageToMu s.config volt with
    | error e => exact ⟨okPorts s.draws, rfl, rfl, rfl⟩
    | ok mu => exact ⟨{ okPorts s.draws with resMu := mu }, rfl, rfl, rfl⟩
  | packGroup nvolt volts =>
    rw [exec_packGroup, commandEvents]
    cases packGroup s.config nvolt volts with
    | error e => exact ⟨okPorts s.draws, rfl, rfl, rfl⟩
    | ok words =>
      exact ⟨{ okPorts s.draws with
        resNwords := BitVec.ofNat 5 words.length, resWords := wordsPort words s.draws }, rfl, rfl, rfl⟩
  | cicQuantize rate =>
    rw [exec_cicQuantize, commandEvents]
    cases cicQuantize rate.toInt with
    | error e => exact ⟨okPorts s.draws, rfl, rfl, rfl⟩
    | ok r => exact ⟨{ okPorts s.draws with resCic := cicWord r, resRate := cicRate r }, rfl, rfl, rfl⟩
  | encode chan offs => exact ⟨{ okPorts s.draws with resAddr := encodeAddress chan offs }, rfl, rfl, rfl⟩
  | _ => exact ⟨okPorts s.draws, rfl, rfl, rfl⟩

/-- Everything a command can do, if it answers a next state. -/
theorem exec_next {i : Instr} {s t : State} (h : exec i s = .next t) :
    (∃ e, commandEvents s.config i = .error e ∧ t = s.reported (errorPorts e s.draws) []) ∨
    ∃ events ports u, commandEvents s.config i = .ok events ∧ ports.err = 0 ∧ ports.errInfo = 0 ∧
      issueEvents (s.withMirror (commandMirror i s.mirror)) events = .ok u ∧
      t = u.reported ports (eventRecords s.draws 0 events) := by
  obtain ⟨ports, herr, hinfo, hexec⟩ := exec_eq i s
  rw [hexec] at h
  cases hevents : commandEvents s.config i with
  | error e =>
    rw [hevents, orRaise_error] at h
    cases h
    exact .inl ⟨e, rfl, rfl⟩
  | ok events =>
    rw [hevents, orRaise_ok] at h
    obtain ⟨u, hu, rfl⟩ := complete_next h
    exact .inr ⟨events, ports, u, rfl, herr, hinfo, hu, rfl⟩

/-! ### Properties that every event keeps -/

/-- Everything a step can do, if it answers a next state. -/
theorem step_next {s t : State} (h : step s = .next t) :
    (s.input = [] ∧ t = s) ∨
    ∃ p rest, s.input = p :: rest ∧
      ((∃ e, t = (s.accepted p rest).reported (errorPorts e s.draws) []) ∨
        ∃ i, decode p.record = .ok i ∧ exec i (s.accepted p rest) = .next t) := by
  cases hinput : s.input with
  | nil =>
    rw [step_idle hinput] at h
    cases h
    exact .inl ⟨rfl, rfl⟩
  | cons p rest =>
    refine .inr ⟨p, rest, rfl, ?_⟩
    cases hp : decode p.record with
    | error r =>
      rw [step_reserved hinput hp] at h
      cases h
      exact .inl ⟨_, rfl⟩
    | ok i =>
      rw [step_decoded hinput hp] at h
      exact .inr ⟨i, rfl, h⟩

/-- A property that accepting a command, writing the mirror, issuing an event and reporting all keep is kept by every
step. -/
theorem step_induct {P : State → Prop} (haccept : ∀ s p rest, P s → P (s.accepted p rest))
    (hmirror : ∀ s m, P s → P (s.withMirror m)) (hissue : ∀ s e t, P s → issueEvent s e = .ok t → P t)
    (hreport : ∀ s ports records, P s → P (s.reported ports records)) {s t : State} (hs : P s)
    (h : step s = .next t) : P t := by
  rcases step_next h with ⟨-, rfl⟩ | ⟨p, rest, -, ⟨e, rfl⟩ | ⟨i, -, hexec⟩⟩
  · exact hs
  · exact hreport _ _ _ (haccept s p rest hs)
  · have haccepted := haccept s p rest hs
    rcases exec_next hexec with ⟨e, -, rfl⟩ | ⟨events, ports, u, -, -, -, hu, rfl⟩
    · exact hreport _ _ _ haccepted
    · exact hreport _ _ _ (issueEvents_induct hissue events _ u (hmirror _ _ haccepted) hu)

/-! ### What an event list has done -/

theorem totalDelay_append (es es' : List Event) : totalDelay (es ++ es') = totalDelay es + totalDelay es' := by
  induction es with
  | nil => exact (Nat.zero_add _).symm
  | cons e es ih => cases e <;> simp only [List.cons_append, totalDelay, ih, Nat.add_assoc]

theorem lastWord_append (a : ℕ) (before : Option Word) (es es' : List Event) :
    lastWord a before (es ++ es') = lastWord a (lastWord a before es) es' := by
  induction es generalizing before with
  | nil => rfl
  | cons e es ih => cases e <;> exact ih _

/-- A burst that the device takes lies in the data window of its page (R17). -/
theorem wideWrite_bound {c : Config} {addr : Address} {words : List Word} {w : DeviceWrite}
    (h : wideWrite c addr words = some w) : addr.toNat + words.length ≤ 2 ^ 24 := by
  simp only [wideWrite] at h
  split at h
  · rename_i hfits
    obtain ⟨hoffset, hpage, -, hwindow⟩ := hfits
    have hlow : addr.toNat % 256 = c.dataOffset.toNat := by
      have := congrArg BitVec.toNat hoffset
      have hd := c.dataOffset.isLt
      rw [BitVec.extractLsb'_toNat, BitVec.toNat_setWidth, Nat.shiftRight_zero] at this
      omega
    rw [BitVec.extractLsb'_toNat, Nat.shiftRight_eq_div_pow] at hpage
    have := addr.isLt
    simp only [nchan] at hpage
    omega
  · cases h

/-- `t` is `s` after the events: the trace has grown by them, the schedule by their delays, and each address holds the
last word they write to it; no burst of theirs leaves the address space. -/
structure Emitted (s : State) (es : List Event) (t : State) : Prop where
  config : t.config = s.config
  input : t.input = s.input
  busPosition : t.busPosition = s.busPosition
  trace : t.trace = s.trace ++ es
  now : t.now = s.now + totalDelay es
  regSpace : ∀ a, readWord t.regSpace a = lastWord a (readWord s.regSpace a) es
  bursts : ∀ addr words, .ww addr words ∈ es → addr.toNat + words.length ≤ 2 ^ 24

theorem Emitted.nil (s : State) : Emitted s [] s :=
  ⟨rfl, rfl, rfl, (List.append_nil _).symm, rfl, fun _ => rfl, by simp⟩

theorem Emitted.append {s t u : State} {es es' : List Event} (h : Emitted s es t) (h' : Emitted t es' u) :
    Emitted s (es ++ es') u where
  config := h'.config.trans h.config
  input := h'.input.trans h.input
  busPosition := h'.busPosition.trans h.busPosition
  trace := by rw [h'.trace, h.trace, List.append_assoc]
  now := by rw [h'.now, h.now, totalDelay_append, Nat.add_assoc]
  regSpace a := by rw [h'.regSpace, h.regSpace, lastWord_append]
  bursts addr words hmem := (List.mem_append.1 hmem).elim (h.bursts addr words) (h'.bursts addr words)

theorem issueEvent_emitted {s t : State} {e : Event} (h : issueEvent s e = .ok t) : Emitted s [e] t := by
  rcases issueEvent_ok h with ⟨addr, word, w, rfl, -, -, rfl⟩ | ⟨addr, words, w, rfl, -, hw, rfl⟩ | ⟨dur, rfl, rfl⟩
  · exact ⟨rfl, rfl, rfl, rfl, rfl, fun a => readWord_writeWord .., by simp⟩
  · refine ⟨rfl, rfl, rfl, rfl, rfl, fun a => readWord_writeWords _ _ _ _ (wideWrite_bound hw), fun _ _ hmem => ?_⟩
    cases List.mem_singleton.1 hmem
    exact wideWrite_bound hw
  · exact ⟨rfl, rfl, rfl, rfl, rfl, fun a => rfl, by simp⟩

theorem issueEvents_emitted {es : List Event} {s t : State} (h : issueEvents s es = .ok t) : Emitted s es t := by
  induction es generalizing s with
  | nil =>
    cases h
    exact .nil _
  | cons e es ih =>
    simp only [issueEvents] at h
    split at h
    · cases h
    · rename_i s' he
      exact (issueEvent_emitted he).append (ih h)

/-! ### The device's level registers after an event list -/

/-- What the device's level registers become once the delivered writes take effect. -/
def pendingLevels (d : Device) : LevelRegs := landLevels d.buffer d.levels

/-- Each register write of the list lands on the level registers, in order (R40); a delay changes nothing of what they
become. -/
theorem issueEvents_pendingLevels {es : List Event} {s t : State} (h : issueEvents s es = .ok t) :
    pendingLevels t.device = landLevels (issuedWrites s.config s.now es) (pendingLevels s.device) := by
  induction es generalizing s with
  | nil =>
    cases h
    rfl
  | cons e es ih =>
    simp only [issueEvents] at h
    split at h
    · cases h
    · rename_i s' he
      rw [ih h]
      rcases issueEvent_ok he with
        ⟨addr, word, w, rfl, -, hw, rfl⟩ | ⟨addr, words, w, rfl, -, hw, rfl⟩ | ⟨dur, rfl, rfl⟩
      · simp [issuedWrites, hw, pendingLevels, landLevels]
      · simp [issuedWrites, hw, pendingLevels, landLevels]
      · rw [State.delayed_device, pendingLevels, elapseFrames_settled]
        rfl

/-- A wide write never reaches a level register. -/
theorem landLevel_wideWrite {c : Config} {addr : Address} {words : List Word} {w : DeviceWrite} (regs : LevelRegs)
    (h : wideWrite c addr words = some w) : landLevel regs w = regs := by
  simp only [wideWrite] at h
  split at h
  · split at h <;> cases h <;> rfl
  · cases h

/-- One narrow write lands as the device reads it. -/
theorem landLevels_wn {c : Config} {addr : Address} {word : Word} {w : DeviceWrite} (now : ℕ) (regs : LevelRegs)
    (h : narrowWrite c addr word = some w) :
    landLevels (issuedWrites c now [.wn addr word]) regs = landLevel regs w := by
  simp only [issuedWrites, h, landLevels]

theorem landLevels_ww (c : Config) (now : ℕ) (addr : Address) (words : List Word) (regs : LevelRegs) :
    landLevels (issuedWrites c now [.ww addr words]) regs = regs := by
  cases h : wideWrite c addr words with
  | none => simp only [issuedWrites, h, landLevels]
  | some w => simp only [issuedWrites, h, landLevels, landLevel_wideWrite regs h]

/-- The delays of the sequence part its writes and land nothing. -/
theorem landLevels_spacedWrites {c : Config} {writes : List (BitVec 8 × Word)} {ws : List DeviceWrite}
    (h : List.Forall₂ (fun p w => narrowWrite c (globalAddress c p.1) p.2 = some w) writes ws) (now : ℕ)
    (regs : LevelRegs) : landLevels (issuedWrites c now (spacedWrites c writes)) regs = ws.foldl landLevel regs := by
  induction h generalizing now regs with
  | nil => rfl
  | cons hw _ ih =>
    simp only [spacedWrites, issuedWrites, hw, frameDelay, landLevels, List.foldl_cons]
    exact ih _ _

/-- The seven writes of the standard sequence as the device reads them (R110). -/
def initDeviceWrites : List DeviceWrite :=
  [.cfg ⟨false, false, false, true⟩, .cfg ⟨false, false, false, false⟩, .continuous 0, .hold 0, .stageCic ⟨0, 0, 0⟩,
   .applyCic 0xFFFFFFFF, .leds 0]

theorem initWrites_read (c : Config) :
    List.Forall₂ (fun p w => narrowWrite c (globalAddress c p.1) p.2 = some w) initWrites initDeviceWrites := by
  refine .cons (narrowWrite_cfg c _) (.cons (narrowWrite_cfg c _) (.cons (narrowWrite_continuous c _)
    (.cons (narrowWrite_hold c _) (.cons (narrowWrite_stageCic c _) (.cons (narrowWrite_applyCic c _)
    (.cons (narrowWrite_leds c _) .nil))))))

/-- With the standard sequence every command writes to the mirror what its events write to the device's level
registers (R14, R28). -/
theorem commandMirror_eq_landLevels {c : Config} {i : Instr} {events : List Event} (hc : c.initSeq = .standard)
    (h : commandEvents c i = .ok events) (now : ℕ) (m : LevelRegs) :
    commandMirror i m = landLevels (issuedWrites c now events) m := by
  cases i with
  | setChannel chan volt =>
    obtain ⟨mu, -, rfl⟩ := map_eq_ok h
    exact (landLevels_wn now m (narrowWrite_data c chan _)).symm
  | setGroup chan nvolt volts =>
    obtain ⟨words, -, rfl⟩ := map_eq_ok h
    exact (landLevels_ww c now _ _ m).symm
  | stageCic rate =>
    obtain ⟨r, hr, rfl⟩ := map_eq_ok h
    rw [landLevels_wn now m (narrowWrite_configWord c _), commandMirror, hr]
    rfl
  | initialise =>
    cases h
    rw [initEvents, hc]
    exact (landLevels_spacedWrites (initWrites_read c) now m).symm
  | update mask => cases h; exact (landLevels_wn now m (narrowWrite_update c mask)).symm
  | applyCic mask => cases h; exact (landLevels_wn now m (narrowWrite_applyCic c mask)).symm
  | setHold mask => cases h; exact (landLevels_wn now m (narrowWrite_hold c mask)).symm
  | setContinuous mask => cases h; exact (landLevels_wn now m (narrowWrite_continuous c mask)).symm
  | setLeds led => cases h; exact (landLevels_wn now m (narrowWrite_ledWord c led)).symm
  | setCfg a b c' d => cases h; exact (landLevels_wn now m (narrowWrite_cfgWord c _)).symm
  | delay dur => cases h; rfl
  | encode chan offs => cases h; rfl
  | voltageToMu volt => obtain ⟨_, -, rfl⟩ := map_eq_ok h; rfl
  | packGroup nvolt volts => obtain ⟨_, -, rfl⟩ := map_eq_ok h; rfl
  | validateGroupAlignment chan l2w => obtain ⟨_, -, rfl⟩ := map_eq_ok h; rfl
  | cicQuantize rate => obtain ⟨_, -, rfl⟩ := map_eq_ok h; rfl
  | read addr => cases h

/-! ### The obligations: what every step keeps -/

theorem exec_keeps_mirrorTracksDevice {i : Instr} {s t : State} (hs : mirrorTracksDevice s)
    (h : exec i s = .next t) : mirrorTracksDevice t := by
  obtain ⟨hconfig, hmirror⟩ := hs
  rcases exec_next h with ⟨e, -, rfl⟩ | ⟨events, ports, u, hevents, -, -, hu, rfl⟩
  · exact ⟨hconfig, hmirror⟩
  · obtain ⟨hconfig', hmirror', -⟩ := issueEvents_frame hu
    refine ⟨hconfig'.symm ▸ hconfig, ?_⟩
    calc u.mirror
        = commandMirror i s.mirror := hmirror'
      _ = landLevels (issuedWrites s.config s.now events) (pendingLevels s.device) := by
          rw [commandMirror_eq_landLevels hconfig hevents s.now, hmirror, pendingLevels]
      _ = pendingLevels u.device := (issueEvents_pendingLevels hu).symm

/-- Settles O51: the mirror that a command leaves is what its events make of the device's level registers. -/
theorem stepKeepsMirrorTrackingDevice : Obligations.StepKeepsMirrorTrackingDevice := by
  intro s t hs h
  rcases step_next h with ⟨-, rfl⟩ | ⟨p, rest, -, ⟨e, rfl⟩ | ⟨i, -, hexec⟩⟩
  · exact hs
  · exact hs
  · have haccepted : mirrorTracksDevice (s.accepted p rest) := hs
    exact exec_keeps_mirrorTracksDevice haccepted hexec

theorem Emitted.keeps_traceExplainsState {s t : State} {es : List Event} (h : Emitted s es t)
    (hs : traceExplainsState s) : traceExplainsState t := by
  obtain ⟨hnow, hspace, hbursts⟩ := hs
  refine ⟨?_, fun a => ?_, ?_⟩
  · rw [h.now, h.trace, totalDelay_append, hnow]
  · rw [h.regSpace, h.trace, lastWord_append, hspace]
  · rw [h.trace, List.forall_mem_append]
    refine ⟨hbursts, ?_⟩
    rintro e he addr words rfl
    exact h.bursts addr words he

/-- Settles O52: the trace, the schedule and the register space move with the events alone. -/
theorem stepKeepsTraceExplainingState : Obligations.StepKeepsTraceExplainingState := by
  intro s t hs h
  exact step_induct (fun _ _ _ hs => hs) (fun _ _ hs => hs)
    (fun _ _ _ hs he => (issueEvent_emitted he).keeps_traceExplainsState hs) (fun _ _ _ hs => hs) hs h

end Sys2Proof.Machine
end

section
/-! Where a command ends: an event that reaches a register is taken by a block on time (R135, I3), so a command whose
events all do completes, having emitted exactly those events; a late write and a write without a register fault. Then
the group writes, the commands with one narrow write, and INITIALIZE. -/

namespace Sys2Proof.Machine

open Sys2Proof.Claims

/-! ### Events that reach a register -/

/-- The device has a register for the event (R38, I3). -/
def reachesRegister (c : Config) : Event → Prop
  | .wn addr word => ∃ w, narrowWrite c addr word = some w
  | .ww addr words => ∃ w, wideWrite c addr words = some w
  | .dl _ => True

/-- Where every event reaches a register the one fault is the transport's, and the schedule was behind the bus from
the start: it only moves forward. -/
theorem issueEvents_underflow {es : List Event} {s : State} {f : Fault} (hes : ∀ e ∈ es, reachesRegister s.config e)
    (h : issueEvents s es = .error f) : f = .timingUnderflow ∧ s.now < s.busPosition := by
  induction es generalizing s with
  | nil => cases h
  | cons e es ih =>
    rw [List.forall_mem_cons] at hes
    obtain ⟨he, hes⟩ := hes
    simp only [issueEvents] at h
    split at h
    · rename_i f' hf
      cases h
      rcases issueEvent_error hf with hlate | ⟨addr, word, rfl, hnone, -⟩ | ⟨addr, words, rfl, hnone, -⟩
      · exact hlate
      · obtain ⟨w, hw⟩ := he
        rw [hnone] at hw
        cases hw
      · obtain ⟨w, hw⟩ := he
        rw [hnone] at hw
        cases hw
    · rename_i s' hs'
      have hemitted := issueEvent_emitted hs'
      obtain ⟨hf, hlate⟩ := ih (hemitted.config.symm ▸ hes) h
      rw [hemitted.now, hemitted.busPosition] at hlate
      exact ⟨hf, by omega⟩

theorem issueEvents_onTime {es : List Event} {s : State} (hes : ∀ e ∈ es, reachesRegister s.config e)
    (hb : onTime s) : ∃ t, issueEvents s es = .ok t := by
  cases h : issueEvents s es with
  | error f => exact absurd (issueEvents_underflow hes h).2 (Nat.not_lt.2 hb)
  | ok t => exact ⟨t, rfl⟩

theorem reachesRegister_spacedWrites {c : Config} {writes : List (BitVec 8 × Word)} {ws : List DeviceWrite}
    (h : List.Forall₂ (fun p w => narrowWrite c (globalAddress c p.1) p.2 = some w) writes ws) :
    ∀ e ∈ spacedWrites c writes, reachesRegister c e := by
  induction h with
  | nil => exact fun _ h => nomatch h
  | cons hw _ ih => exact List.forall_mem_cons.2 ⟨⟨_, hw⟩, List.forall_mem_cons.2 ⟨trivial, ih⟩⟩

theorem reachesRegister_initEvents {c : Config} (hc : c.initSeq = .standard) :
    ∀ e ∈ initEvents c, reachesRegister c e := by
  rw [initEvents, hc]
  exact reachesRegister_spacedWrites (initWrites_read c)

theorem groupWords_le (c : Config) : groupWords c ≤ 16 := by
  unfold groupWords groupWidth
  generalize c.log2Width = k
  revert k
  decide

/-- With the default parameters every event of a well-formed command reaches a register (R39). -/
theorem commandEvents_reach {c : Config} {i : Instr} {events : List Event} (hc : standardConfig c)
    (hi : i.wellFormed = true) (h : commandEvents c i = .ok events) : ∀ e ∈ events, reachesRegister c e := by
  have hone {e : Event} (he : reachesRegister c e) : ∀ e' ∈ [e], reachesRegister c e' := List.forall_mem_singleton.2 he
  cases i with
  | setChannel chan volt =>
    obtain ⟨mu, -, rfl⟩ := map_eq_ok h
    exact hone ⟨_, narrowWrite_data c chan _⟩
  | setGroup chan nvolt volts =>
    obtain ⟨words, hwords, rfl⟩ := map_eq_ok h
    have hlen : words.length = groupWords c := groupWrite_length (by simpa [Instr.wellFormed] using hi) hwords
    have hwindow : c.dataOffset.toNat + words.length ≤ 32 := by
      have hle := groupWords_le c
      rw [hlen, standardConfig_dataOffset hc]
      exact (Nat.zero_add _).trans_le (hle.trans (by decide))
    exact hone ⟨_, wideWrite_group c chan words (groupWrite_ok hwords).1 hlen hwindow⟩
  | stageCic rate =>
    obtain ⟨r, -, rfl⟩ := map_eq_ok h
    exact hone ⟨_, narrowWrite_configWord c _⟩
  | initialise =>
    cases h
    exact reachesRegister_initEvents (standardConfig_initSeq hc)
  | update mask => cases h; exact hone ⟨_, narrowWrite_update c mask⟩
  | applyCic mask => cases h; exact hone ⟨_, narrowWrite_applyCic c mask⟩
  | setHold mask => cases h; exact hone ⟨_, narrowWrite_hold c mask⟩
  | setContinuous mask => cases h; exact hone ⟨_, narrowWrite_continuous c mask⟩
  | setLeds led => cases h; exact hone ⟨_, narrowWrite_leds c _⟩
  | setCfg a b c' d => cases h; exact hone ⟨_, narrowWrite_cfg c _⟩
  | delay dur => cases h; exact hone trivial
  | encode chan offs => cases h; exact fun _ h => nomatch h
  | voltageToMu volt => obtain ⟨_, -, rfl⟩ := map_eq_ok h; exact fun _ h => nomatch h
  | packGroup nvolt volts => obtain ⟨_, -, rfl⟩ := map_eq_ok h; exact fun _ h => nomatch h
  | validateGroupAlignment chan l2w => obtain ⟨_, -, rfl⟩ := map_eq_ok h; exact fun _ h => nomatch h
  | cicQuantize rate => obtain ⟨_, -, rfl⟩ := map_eq_ok h; exact fun _ h => nomatch h
  | read addr => cases h

/-! ### Commands that complete -/

theorem Emitted.reported {s t : State} {m : LevelRegs} {es : List Event} (h : Emitted (s.withMirror m) es t)
    (ports : ResultPorts) (records : List EventPort) : Emitted s es (t.reported ports records) :=
  ⟨h.config, h.input, h.busPosition, h.trace, h.now, h.regSpace, h.bursts⟩

/-- The event port carries the events in order (R66). -/
theorem eventRecords_carry (draw index : Nat) (es : List Event) :
    List.Forall₂ carries (eventRecords draw index es) es := by
  induction es generalizing index with
  | nil => exact .nil
  | cons e es ih =>
    refine .cons ?_ (ih _)
    cases e with
    | wn addr word => exact ⟨rfl, rfl, rfl, rfl⟩
    | ww addr words => exact ⟨rfl, rfl, rfl, List.take_left⟩
    | dl dur => exact ⟨rfl, rfl⟩

/-- A command without error has emitted its events and written its mirror. -/
theorem exec_emitted {i : Instr} {s t : State} {events : List Event} (hevents : commandEvents s.config i = .ok events)
    (h : exec i s = .next t) :
    succeeded t ∧ t.mirror = commandMirror i s.mirror ∧ Emitted s events t ∧
      List.Forall₂ carries t.eventPort events := by
  rcases exec_next h with ⟨e, herror, -⟩ | ⟨events', ports, u, hok, herr, hinfo, hu, rfl⟩
  · rw [herror] at hevents
    cases hevents
  · obtain rfl := Except.ok.inj (hok.symm.trans hevents)
    obtain ⟨-, hmirror, -⟩ := issueEvents_frame hu
    exact ⟨⟨herr, hinfo⟩, hmirror, (issueEvents_emitted hu).reported _ _, eventRecords_carry ..⟩

/-- On time, a command whose events reach their registers completes. -/
theorem exec_completes {i : Instr} {s : State} {events : List Event} (hevents : commandEvents s.config i = .ok events)
    (hreach : ∀ e ∈ events, reachesRegister s.config e) (hb : onTime s) : ∃ t, exec i s = .next t := by
  obtain ⟨ports, -, -, hexec⟩ := exec_eq i s
  obtain ⟨u, hu⟩ := issueEvents_onTime (s := s.withMirror (commandMirror i s.mirror)) hreach hb
  rw [hexec, hevents, orRaise_ok]
  exact ⟨_, complete_of_issue hu⟩

/-- Commands of one event each, one after the other, emit those events in order. -/
theorem execAll_completes {c : Config} {is : List Instr} {es : List Event}
    (h : List.Forall₂ (fun i e => commandEvents c i = .ok [e]) is es) (hreach : ∀ e ∈ es, reachesRegister c e)
    {s : State} (hc : s.config = c) (hb : onTime s) :
    ∃ t, execAll is s = .next t ∧ Emitted s es t ∧ t.mirror = is.foldl (fun m i => commandMirror i m) s.mirror := by
  induction h generalizing s with
  | nil => exact ⟨s, rfl, .nil s, rfl⟩
  | cons hevents _ ih =>
    subst hc
    rw [List.forall_mem_cons] at hreach
    obtain ⟨hfirst, hreach⟩ := hreach
    obtain ⟨t, hexec⟩ := exec_completes hevents (List.forall_mem_singleton.2 hfirst) hb
    obtain ⟨-, hmirror, hemitted, -⟩ := exec_emitted hevents hexec
    have hb' : onTime t := by
      unfold onTime at hb ⊢
      rw [hemitted.now, hemitted.busPosition]
      omega
    obtain ⟨u, hrun, hrest, hmirror'⟩ := ih hreach hemitted.config hb'
    refine ⟨u, ?_, hemitted.append hrest, ?_⟩
    · simp only [execAll, hexec, hrun]
    · rw [hmirror', hmirror, List.foldl_cons]

/-! ### Commands that fault -/

/-- A command whose first event is a late write (R164). -/
theorem exec_late {i : Instr} {s : State} {e : Event} {es : List Event} (hlate : s.now < s.busPosition)
    (hevents : commandEvents s.config i = .ok (e :: es)) (hwrite : ∀ dur, e ≠ .dl dur) :
    exec i s = .fault .timingUnderflow := by
  obtain ⟨ports, -, -, hexec⟩ := exec_eq i s
  rw [hexec, hevents, orRaise_ok]
  cases e with
  | wn addr word => exact complete_wn_late hlate
  | ww addr words => simp [complete, issueEvents, issueEvent, hlate]
  | dl dur => exact absurd rfl (hwrite dur)

/-- A command whose first event is a write, on time, that reaches no register (I3). -/
theorem exec_noRegister {i : Instr} {s : State} {e : Event} {es : List Event} {addr : Address} (hb : onTime s)
    (hevents : commandEvents s.config i = .ok (e :: es))
    (hnone : (∃ word, e = .wn addr word ∧ narrowWrite s.config addr word = none) ∨
      ∃ words, e = .ww addr words ∧ wideWrite s.config addr words = none) :
    exec i s = .fault (.noRegister addr) := by
  obtain ⟨ports, -, -, hexec⟩ := exec_eq i s
  have hnow : ¬s.now < s.busPosition := Nat.not_lt.2 hb
  rw [hexec, hevents, orRaise_ok]
  rcases hnone with ⟨word, rfl, hnone⟩ | ⟨words, rfl, hnone⟩ <;> simp [complete, issueEvents, issueEvent, hnow, hnone]

/-! ### Group writes -/

theorem convertsTo_of_takes {c : Config} {fs : List Volt} (h : ∀ f ∈ fs, takes c f) : ∃ mus, convertsTo c fs mus := by
  induction fs with
  | nil => exact ⟨[], .nil⟩
  | cons f fs ih =>
    rw [List.forall_mem_cons] at h
    obtain ⟨mu, hmu⟩ := h.1
    obtain ⟨mus, hmus⟩ := ih h.2
    exact ⟨mu :: mus, .cons hmu hmus⟩

theorem groupWidth_le (c : Config) : 2 ^ c.log2Width.val ≤ 32 :=
  Nat.pow_le_pow_right (j := 5) (by decide) (Nat.le_of_lt_succ c.log2Width.isLt)

/-- Words without samples are zero words (R75). -/
theorem sampleWords_append_zero {mus : List Sample} {k : ℕ} (h : mus.length ≤ 2 * k) (m : ℕ) :
    sampleWords mus k ++ List.replicate m 0 = sampleWords mus (k + m) := by
  have hzero : (List.range m).map (fun j => BitVec.ofNat 32 ((mus.getD (2 * (k + j)) 0).toNat +
      65536 * (mus.getD (2 * (k + j) + 1) 0).toNat)) = List.replicate m 0 := by
    rw [List.eq_replicate_iff]
    refine ⟨by simp, fun w hw => ?_⟩
    obtain ⟨j, -, rfl⟩ := List.mem_map.1 hw
    rw [List.getD_eq_default _ _ (by omega), List.getD_eq_default _ _ (by omega)]
    rfl
  rw [sampleWords, sampleWords, slotWords, slotWords, List.range_add, List.map_append, List.map_map]
  exact congrArg _ hzero.symm

/-- The words of a group write without error (R101). -/
theorem groupWrite_of_convertsTo {c : Config} {chan : Chan} {n : BitVec 6} {fs : List Volt} {mus : List Sample}
    (ha : alignedFirst c chan) (hlen : fs.length = n.toNat) (hn : n.toNat ≤ 2 ^ c.log2Width.val)
    (h : convertsTo c fs mus) : groupWrite c chan n fs = .ok (sampleWords mus (nwords c)) := by
  have hle : (fs.length + 1) / 2 ≤ nwords c := halved_le_groupWords (hlen.trans_le hn)
  have hfill : fillGroup c (sampleWords mus ((fs.length + 1) / 2)) = sampleWords mus (nwords c) := by
    rw [fillGroup, length_sampleWords, sampleWords_append_zero (by rw [← h.length_eq]; omega)]
    exact congrArg _ (Nat.add_sub_cancel' hle)
  rw [groupWrite, validateGroupAlignment_of_aligned (Nat.le_of_lt_succ c.log2Width.isLt) ((groupAligned_iff _ _).2 ha)]
  simp only [if_neg (Nat.not_lt.2 hn), packGroup_of_convertsTo (hn.trans (groupWidth_le c)) h, hfill]

theorem groupWrite_of_misaligned {c : Config} {chan : Chan} (n : BitVec 6) (fs : List Volt)
    (ha : ¬alignedFirst c chan) : groupWrite c chan n fs = .error .alignmentError := by
  rw [groupWrite,
    validateGroupAlignment_of_misaligned (Nat.le_of_lt_succ c.log2Width.isLt) (mt (groupAligned_iff _ _).1 ha)]

theorem groupWrite_of_aligned {c : Config} {chan : Chan} (n : BitVec 6) (fs : List Volt) (ha : alignedFirst c chan) :
    groupWrite c chan n fs =
      if groupWidth c < n.toNat then .error .preconditionError else (packGroup c n fs).map (fillGroup c) := by
  rw [groupWrite, validateGroupAlignment_of_aligned (Nat.le_of_lt_succ c.log2Width.isLt) ((groupAligned_iff _ _).2 ha)]
  cases packGroup c n fs <;> rfl

theorem exec_setGroup (chan : Chan) (n : BitVec 6) (fs : List Volt) (s : State) :
    exec (.setGroup chan n fs) s = orRaise s (groupWrite s.config chan n fs) fun words =>
      complete s (okPorts s.draws) [.ww (dataAddress s.config chan) words] := rfl

/-- `SET_GROUP` whose words fit the data window. -/
theorem exec_setGroup_ok {s : State} {chan : Chan} {n : BitVec 6} {fs : List Volt} {mus : List Sample} (hb : onTime s)
    (ha : alignedFirst s.config chan) (hlen : fs.length = n.toNat) (hn : n.toNat ≤ 2 ^ s.config.log2Width.val)
    (h : convertsTo s.config fs mus) (hwindow : s.config.dataOffset.toNat + nwords s.config ≤ 32) :
    ∃ t, exec (.setGroup chan n fs) s = .next t ∧ writesGroup s t chan (sampleWords mus (nwords s.config)) := by
  have hcount : (sampleWords mus (nwords s.config)).length = nwords s.config := length_sampleWords ..
  generalize hwords : sampleWords mus (nwords s.config) = words at *
  have hwide := wideWrite_group s.config chan words ((groupAligned_iff _ _).2 ha) hcount (hcount.symm ▸ hwindow)
  have hread := fun a => readWord_writeWords s.regSpace (dataAddress s.config chan) words a (wideWrite_bound hwide)
  rw [exec_setGroup, groupWrite_of_convertsTo ha hlen hn h, hwords, orRaise_ok, complete_ww hb hwide]
  rw [dataAddress_eq_dataAt] at hread ⊢
  refine ⟨_, rfl, ⟨rfl, rfl⟩, rfl, rfl, ⟨_, rfl, rfl, rfl, rfl, List.take_left⟩, fun j hj => ?_, fun a ha => ?_,
    rfl, rfl, rfl, rfl, rfl⟩
  · exact (hread _).trans (by rw [if_pos (by omega), Nat.add_sub_cancel_left])
  · exact (hread a).trans (if_neg (by omega))

/-- `SET_GROUP` that raises. -/
theorem exec_setGroup_error {s : State} {chan : Chan} {n : BitVec 6} {fs : List Volt} {e : ErrorKind}
    (h : groupWrite s.config chan n fs = .error e) :
    ∃ t, exec (.setGroup chan n fs) s = .next t ∧ failed t (errorCode e) (errorInfo e) ∧ onlyReports s t := by
  rw [exec_setGroup, h]
  exact raiseError_reports s e

end Sys2Proof.Machine
end

section
/-! The statements about steps and commands that follow from what a command emits: what a step keeps, where commands
end, and what each writes. -/

namespace Sys2Proof.Machine

open Sys2Proof.Claims

/-! ### Steps -/

/-- Settles O6. -/
theorem stepRunsTheDecodedCommand : Obligations.StepRunsTheDecodedCommand :=
  fun _ _ _ _ hinput hdecode => step_decoded hinput hdecode

/-- Settles O7: the decoder refuses the code, and ERROR ENTRY reports it from the state that has accepted the record. -/
theorem reservedCodeFailsWithoutEffect : Obligations.ReservedCodeFailsWithoutEffect := by
  intro s p rest hinput hcode
  have hdecode := decode_of_reserved hcode
  refine ⟨hdecode, ?_⟩
  rw [step_reserved hinput hdecode]
  exact raiseError_reports (s.accepted p rest) .illegalCommand

/-- Settles O8: a reserved code and a command in error are reported, and every other command's events reach their
registers on time. -/
theorem standardBlockAlwaysCompletes : Obligations.StandardBlockAlwaysCompletes := by
  intro s p rest hc hinput hb
  cases hp : decode p.record with
  | error r => exact ⟨_, step_reserved hinput hp, rfl⟩
  | ok i =>
    rw [step_decoded hinput hp]
    cases hevents : commandEvents (s.accepted p rest).config i with
    | error e =>
      obtain ⟨ports, -, -, hexec⟩ := exec_eq i (s.accepted p rest)
      rw [hexec, hevents, orRaise_error]
      exact ⟨_, rfl, rfl⟩
    | ok events =>
      obtain ⟨t, ht⟩ := exec_completes hevents (commandEvents_reach hc (decode_wellFormed hp) hevents) hb
      obtain ⟨-, -, hemitted, -⟩ := exec_emitted hevents ht
      exact ⟨t, ht, hemitted.input⟩

/-- Settles O9: every event of a well-formed command reaches its register. -/
theorem standardBlockFaultsOnlyOnUnderflow : Obligations.StandardBlockFaultsOnlyOnUnderflow := by
  intro s i hc hi
  obtain ⟨ports, -, -, hexec⟩ := exec_eq i s
  rw [hexec]
  cases hevents : commandEvents s.config i with
  | error e => exact ⟨fun _ h => (nomatch h), fun _ h => (nomatch h)⟩
  | ok events =>
    rw [orRaise_ok, complete]
    cases hissue : issueEvents (s.withMirror (commandMirror i s.mirror)) events with
    | ok u => exact ⟨fun _ h => (nomatch h), fun _ h => (nomatch h)⟩
    | error f =>
      refine ⟨fun _ h => (nomatch h), fun f' hf => ?_⟩
      cases hf
      exact issueEvents_underflow (s := s.withMirror (commandMirror i s.mirror)) (commandEvents_reach hc hi hevents)
        hissue

/-- Settles O47: events only add to the trace and to the schedule position. -/
theorem stepNeverWithdrawsOrGoesBack : Obligations.StepNeverWithdrawsOrGoesBack := by
  intro s t h
  refine step_induct (P := fun u => u.config = s.config ∧ s.trace <+: u.trace ∧ s.now ≤ u.now ∧
    s.busPosition ≤ u.busPosition) (fun u p rest hu => ?_) (fun _ _ hu => hu) (fun u e v hu he => ?_)
    (fun _ _ _ hu => hu) ⟨rfl, ⟨[], List.append_nil _⟩, le_rfl, le_rfl⟩ h
  · obtain ⟨hconfig, htrace, hnow, hbus⟩ := hu
    exact ⟨hconfig, htrace, hnow, hbus.trans (Nat.le_add_right _ _)⟩
  · obtain ⟨hconfig, htrace, hnow, hbus⟩ := hu
    have hemitted := issueEvent_emitted he
    refine ⟨hemitted.config.trans hconfig, ?_, ?_, hbus.trans hemitted.busPosition.ge⟩
    · exact htrace.trans ⟨[e], hemitted.trace.symm⟩
    · rw [hemitted.now]
      exact hnow.trans (Nat.le_add_right _ _)

/-- Settles O48: only writes touch the register space, and each keeps its form. -/
theorem stepKeepsRegisterSpaceCanonical : Obligations.StepKeepsRegisterSpaceCanonical := by
  intro s t hs h
  refine step_induct (P := fun u => memoryWf u.regSpace) (fun _ _ _ hu => hu) (fun _ _ hu => hu)
    (fun u e v hu he => ?_) (fun _ _ _ hu => hu) hs h
  rcases issueEvent_ok he with ⟨addr, word, w, -, -, -, rfl⟩ | ⟨addr, words, w, -, -, -, rfl⟩ | ⟨dur, -, rfl⟩
  · exact writeWord_wf hu addr.isLt
  · exact writeWords_wf hu
  · exact hu

/-! ### Reset and construction -/

/-- Settles O13. -/
theorem resetLeavesDeviceUnwritten : Obligations.ResetLeavesDeviceUnwritten := by
  refine ⟨rfl, rfl, rfl, fun x hx => ?_, rfl, fun _ => rfl⟩
  rw [List.eq_of_mem_replicate (a := Channel.unwritten) hx]
  exact ⟨rfl, rfl, rfl, rfl⟩

/-- Settles O14: the two parameters decide the construction, and a reset of the block keeps what is not the block's. -/
theorem constructionChecksItsParameters : Obligations.ConstructionChecksItsParameters := by
  refine ⟨fun log2Width refPeriod => ⟨fun hbad => ?_, fun hgood => ?_⟩,
    fun _ => ⟨rfl, rfl, rfl, rfl, rfl, rfl, rfl, rfl, rfl⟩⟩
  · exact dif_neg fun h => hbad ⟨h.1, Nat.le_of_lt_succ h.2⟩
  · exact ⟨_, dif_pos ⟨hgood.1, Nat.lt_succ_of_le hgood.2⟩, rfl, rfl, rfl, rfl, rfl⟩

/-- Settles O49: nothing has been written, emitted or delayed at reset. -/
theorem resetMeetsInvariants : Obligations.ResetMeetsInvariants :=
  ⟨⟨.nil, fun _ h => nomatch h⟩, ⟨rfl, fun _ h => nomatch h⟩, ⟨rfl, rfl⟩, rfl, fun _ => rfl, fun _ h => nomatch h⟩

/-! ### What no command does -/

/-- A command that emits nothing and leaves the mirror only reports (R52). -/
theorem exec_onlyReports {i : Instr} {s : State}
    (hevents : ∀ events, commandEvents s.config i = .ok events → events = [])
    (hmirror : commandMirror i s.mirror = s.mirror) : ∃ t, exec i s = .next t ∧ onlyReports s t := by
  obtain ⟨ports, -, -, hexec⟩ := exec_eq i s
  rw [hexec, hmirror]
  cases h : commandEvents s.config i with
  | error e => exact ⟨_, rfl, onlyReports_reported s _⟩
  | ok events =>
    rw [hevents events h]
    exact ⟨_, rfl, onlyReports_reported s _⟩

/-- Settles O40: none of the five emits an event or writes the mirror. -/
theorem unitFunctionsAreQueries : Obligations.UnitFunctionsAreQueries := by
  intro s f n fs chan offs l2w rate i hi
  simp only [List.mem_cons, List.not_mem_nil, or_false] at hi
  rcases hi with rfl | rfl | rfl | rfl | rfl <;> refine exec_onlyReports (fun events h => ?_) rfl
  · obtain ⟨_, -, rfl⟩ := map_eq_ok h; rfl
  · obtain ⟨_, -, rfl⟩ := map_eq_ok h; rfl
  · cases h; rfl
  · obtain ⟨_, -, rfl⟩ := map_eq_ok h; rfl
  · obtain ⟨_, -, rfl⟩ := map_eq_ok h; rfl

/-- A command leaves the mirror, or what `commandMirror` makes of it. -/
theorem exec_mirror {i : Instr} {s t : State} (h : exec i s = .next t) :
    t.mirror = s.mirror ∨ t.mirror = commandMirror i s.mirror := by
  rcases exec_next h with ⟨e, -, rfl⟩ | ⟨events, ports, u, -, -, -, hu, rfl⟩
  · exact .inl rfl
  · obtain ⟨-, hmirror, -⟩ := issueEvents_frame hu
    exact .inr hmirror

/-- Settles O44: the mirror of these commands is the one before. -/
theorem unmirroredCommandsKeepMirror : Obligations.UnmirroredCommandsKeepMirror := by
  intro s t mask chan f n fs i hi h
  simp only [List.mem_cons, List.not_mem_nil, or_false] at hi
  rcases hi with rfl | rfl | rfl | rfl <;> exact (exec_mirror h).elim id id

/-- Code 3 is UnsupportedOperation's alone (R130). -/
theorem errorCode_eq_three_iff (e : ErrorKind) : errorCode e = 3 ↔ e = .unsupportedOperation := by
  cases e <;> simp [errorCode]

/-- Settles O46: only `READ` raises that error, and a command without error reports 0. -/
theorem onlyReadIsUnsupported : Obligations.OnlyReadIsUnsupported := by
  intro i s t h
  rcases exec_uniform i s.config with ⟨e, hread, hraise⟩ | ⟨mirror, ports, events, hnot, hports, hcomplete⟩
  · rw [hraise s rfl] at h
    cases h
    exact (errorCode_eq_three_iff e).trans hread
  · rw [hcomplete s rfl] at h
    rw [complete_ports h, (hports s.draws).1]
    exact ⟨fun h => absurd h (by decide), fun ⟨addr, hi⟩ => absurd hi (hnot addr)⟩

/-! ### Level writes (R37) -/

/-- The commands that write a level register. -/
def isLevelWrite : Instr → Prop
  | .setHold _ => True
  | .setContinuous _ => True
  | .setLeds _ => True
  | .setCfg _ _ _ _ => True
  | .stageCic _ => True
  | _ => False

/-- A level write is one narrow write, of the value that it mirrors. -/
theorem levelWrite_events {c : Config} {i : Instr} {events : List Event} (hi : isLevelWrite i)
    (h : commandEvents c i = .ok events) :
    ∃ addr word w, events = [.wn addr word] ∧ narrowWrite c addr word = some w ∧
      ∀ m, commandMirror i m = landLevel m w := by
  cases i with
  | setHold mask => cases h; exact ⟨_, _, _, rfl, narrowWrite_hold c mask, fun _ => rfl⟩
  | setContinuous mask => cases h; exact ⟨_, _, _, rfl, narrowWrite_continuous c mask, fun _ => rfl⟩
  | setLeds led => cases h; exact ⟨_, _, _, rfl, narrowWrite_ledWord c led, fun _ => rfl⟩
  | setCfg a b c' d => cases h; exact ⟨_, _, _, rfl, narrowWrite_cfgWord c _, fun _ => rfl⟩
  | stageCic rate =>
    obtain ⟨r, hr, rfl⟩ := map_eq_ok h
    exact ⟨_, _, _, rfl, narrowWrite_configWord c _, fun m => by rw [commandMirror, hr]; rfl⟩
  | _ => exact hi.elim

/-- Each write replaces its whole register (R166). -/
theorem landLevel_idem (regs : LevelRegs) (w : DeviceWrite) : landLevel (landLevel regs w) w = landLevel regs w := by
  cases w <;> rfl

/-- The same write twice leaves the word that one leaves. -/
theorem lastWord_wn_idem (a : ℕ) (before : Option Word) (addr : Address) (word : Word) :
    lastWord a (lastWord a before [.wn addr word]) [.wn addr word] = lastWord a before [.wn addr word] := by
  simp only [lastWord]
  split <;> rfl

/-- What a command without error makes of the device's level registers. -/
theorem exec_pendingLevels {i : Instr} {s t : State} {events : List Event}
    (hevents : commandEvents s.config i = .ok events) (h : exec i s = .next t) :
    pendingLevels t.device = landLevels (issuedWrites s.config s.now events) (pendingLevels s.device) := by
  rcases exec_next h with ⟨e, herror, -⟩ | ⟨events', ports, u, hok, -, -, hu, rfl⟩
  · rw [herror] at hevents
    cases hevents
  · obtain rfl := Except.ok.inj (hok.symm.trans hevents)
    exact (issueEvents_pendingLevels hu :)

/-- A command in error leaves everything but its reports. -/
theorem onlyReports_of_error {i : Instr} {s t : State} {e : ErrorKind} (herror : commandEvents s.config i = .error e)
    (h : exec i s = .next t) : onlyReports s t := by
  rcases exec_next h with ⟨e', -, rfl⟩ | ⟨events, ports, u, hok, -⟩
  · exact onlyReports_reported s _
  · rw [herror] at hok
    cases hok

theorem levelWrite_idem {i : Instr} {s t u : State} (hi : isLevelWrite i) (h : exec i s = .next t)
    (h' : exec i t = .next u) :
    u.mirror = t.mirror ∧ (∀ x, readWord u.regSpace x = readWord t.regSpace x) ∧
      pendingLevels u.device = pendingLevels t.device := by
  cases hevents : commandEvents s.config i with
  | error e =>
    obtain ⟨hconfig, -⟩ := onlyReports_of_error hevents h
    obtain ⟨-, hmirror, -, -, -, -, hspace, hdevice, -⟩ := onlyReports_of_error (hconfig.symm ▸ hevents) h'
    exact ⟨hmirror, hspace, congrArg pendingLevels hdevice⟩
  | ok events =>
    obtain ⟨addr, word, w, rfl, hw, hwrites⟩ := levelWrite_events hi hevents
    obtain ⟨-, hmirror, hemitted, -⟩ := exec_emitted hevents h
    have hevents' : commandEvents t.config i = .ok [.wn addr word] := hemitted.config.symm ▸ hevents
    have hw' : narrowWrite t.config addr word = some w := hemitted.config.symm ▸ hw
    obtain ⟨-, hmirror', hemitted', -⟩ := exec_emitted hevents' h'
    refine ⟨?_, fun a => ?_, ?_⟩
    · rw [hmirror', hmirror, hwrites, hwrites, landLevel_idem]
    · rw [hemitted'.regSpace, hemitted.regSpace, lastWord_wn_idem]
    · rw [exec_pendingLevels hevents' h', exec_pendingLevels hevents h, landLevels_wn _ _ hw', landLevels_wn _ _ hw,
        landLevel_idem]

/-- Settles O45: each of the five commands is one level write. -/
theorem levelWritesAreIdempotent : Obligations.LevelWritesAreIdempotent := by
  intro s t u mask led a b c d rate i hi h h'
  have hlevel : isLevelWrite i := by
    simp only [List.mem_cons, List.not_mem_nil, or_false] at hi
    rcases hi with rfl | rfl | rfl | rfl | rfl <;> trivial
  exact levelWrite_idem hlevel h h'

/-! ### Masks (R102 to R104, R108) -/

/-- Settles O31: one narrow write of the mask. -/
theorem updateAndApplyWriteTheirMask : Obligations.UpdateAndApplyWriteTheirMask := by
  intro s mask hb
  have hports : (okPorts s.draws).err = 0 ∧ (okPorts s.draws).errInfo = 0 := ⟨rfl, rfl⟩
  obtain ⟨t, hexec, -, hmirror, hwrite⟩ :=
    complete_writesOne_global s.mirror hports hb (narrowWrite_update s.config mask)
  obtain ⟨t', hexec', -, hmirror', hwrite'⟩ :=
    complete_writesOne_global s.mirror hports hb (narrowWrite_applyCic s.config mask)
  exact ⟨⟨t, hexec, hmirror, hwrite⟩, t', hexec', hmirror', hwrite'⟩

/-- Settles O32: one narrow write of the mask, and the mirror's own field of it. -/
theorem levelMasksAreWrittenAndMirrored : Obligations.LevelMasksAreWrittenAndMirrored := by
  intro s mask hb
  have hports : (okPorts s.draws).err = 0 ∧ (okPorts s.draws).errInfo = 0 := ⟨rfl, rfl⟩
  obtain ⟨t, hexec, -, hmirror, hwrite⟩ :=
    complete_writesOne_global { s.mirror with holdMask := some mask } hports hb (narrowWrite_hold s.config mask)
  obtain ⟨t', hexec', -, hmirror', hwrite'⟩ :=
    complete_writesOne_global { s.mirror with continuousMask := some mask } hports hb
      (narrowWrite_continuous s.config mask)
  exact ⟨⟨t, hexec, hmirror, hwrite⟩, t', hexec', hmirror', hwrite'⟩

/-! ### Group writes (R101) and faults (R164, I3) -/

/-- Settles O30: the words of a group write without error, and the three errors in the order of their tests. -/
theorem setGroupWritesOrRejects : Obligations.SetGroupWritesOrRejects := by
  refine ⟨fun _ _ _ => rfl, fun s chan n fs hlen => ?_⟩
  have hwidth := groupWidth_le s.config
  have hcount (hn : n.toNat ≤ 2 ^ s.config.log2Width.val) : fs.length = n.toNat := by omega
  refine ⟨fun mus hb ha hn h hwindow => exec_setGroup_ok hb ha (hcount hn) hn h hwindow,
    fun hc hb ha hn h hwindow => ?_, fun ha => ?_, fun ha hn => ?_, fun ha hn k f hk hf hj => ?_⟩
  · rw [← sampleWords_machineSample h]
    exact exec_setGroup_ok hb ha (hcount hn) hn (convertsTo_machineSample hc h) hwindow
  · exact exec_setGroup_error (groupWrite_of_misaligned n fs ha)
  · have herror : groupWrite s.config chan n fs = .error .preconditionError := by
      rw [groupWrite_of_aligned n fs ha, if_pos hn]
    exact exec_setGroup_error herror
  · have herror : groupWrite s.config chan n fs = .error (.rangeError (BitVec.ofNat 6 k)) := by
      rw [groupWrite_of_aligned n fs ha, if_neg (Nat.not_lt.2 hn),
        packGroup_of_not_takes (hn.trans hwidth) hk hf hj]
      rfl
    exact exec_setGroup_error herror

/-- The events of a group write without error. -/
theorem commandEvents_setGroup {c : Config} {chan : Chan} {n : BitVec 6} {fs : List Volt} (ha : alignedFirst c chan)
    (hlen : fs.length = n.toNat) (hn : n.toNat ≤ 2 ^ c.log2Width.val) (h : ∀ f ∈ fs, takes c f) :
    ∃ words, words.length = nwords c ∧
      commandEvents c (.setGroup chan n fs) = .ok [.ww (dataAddress c chan) words] := by
  obtain ⟨mus, hmus⟩ := convertsTo_of_takes h
  exact ⟨_, length_sampleWords _ _, congrArg (Except.map _) (groupWrite_of_convertsTo ha hlen hn hmus)⟩

/-- Settles O10: each command's first event is a write. -/
theorem lateWritesUnderflow : Obligations.LateWritesUnderflow := by
  intro s mask led a b c d hlate
  refine ⟨exec_late hlate rfl nofun, exec_late hlate rfl nofun, exec_late hlate rfl nofun, exec_late hlate rfl nofun,
    exec_late hlate rfl nofun, exec_late hlate rfl nofun, fun rate h1 h2 => ?_, fun chan f hf => ?_,
    fun chan n fs ha hlen hn h => ?_, fun hinit => ?_⟩
  · obtain ⟨r, -, -, -, hr, -⟩ := cicQuantize_operand h1 h2
    exact exec_late hlate (congrArg (Except.map _) hr) nofun
  · obtain ⟨mu, hmu⟩ := hf
    exact exec_late hlate (congrArg (Except.map _) hmu) nofun
  · obtain ⟨words, -, hevents⟩ := commandEvents_setGroup ha hlen hn h
    exact exec_late hlate hevents nofun
  · have hevents : commandEvents s.config .initialise = .ok (spacedWrites s.config initWrites) := by
      rw [commandEvents, initEvents, hinit]
    exact exec_late hlate hevents nofun

/-- Offset 0x24 and the offsets from 0x28 on have no register on any page (R61). -/
theorem narrowWrite_unmapped {c : Config} {addr : Address} (word : Word)
    (h : addr.toNat % 256 = 0x24 ∨ 0x28 ≤ addr.toNat % 256) : narrowWrite c addr word = none := by
  have hoffset : (addr.extractLsb' 0 8).toNat = addr.toNat % 256 := by
    rw [BitVec.extractLsb'_toNat, Nat.shiftRight_zero]
  have hdata : addr.extractLsb' 0 8 ≠ c.dataOffset.setWidth 8 := offset_ne_data c (by omega)
  simp only [narrowWrite, if_neg hdata]
  split
  · split
    case h_8 => rfl
    all_goals
      rename_i heq
      rw [heq] at hoffset
      simp at hoffset
      omega
  · rfl

/-- Settles O11: a group whose words leave the data window, and an offset without a register. -/
theorem writesWithoutRegisterFault : Obligations.WritesWithoutRegisterFault := by
  refine ⟨fun s chan n fs hb ha hlen hn h hwindow => ?_, fun s addr word events hb hinit hoffset => ?_⟩
  · obtain ⟨words, hcount, hevents⟩ := commandEvents_setGroup ha hlen hn h
    have hnone : wideWrite s.config (dataAddress s.config chan) words = none :=
      if_neg fun ⟨_, _, _, hfits⟩ => by omega
    rw [← dataAddress_eq_dataAt]
    exact exec_noRegister hb hevents (.inr ⟨words, rfl, hnone⟩)
  · have hevents : commandEvents s.config .initialise = .ok (.wn addr word :: events) := by
      rw [commandEvents, initEvents, hinit]
    exact exec_noRegister hb hevents (.inl ⟨word, rfl, narrowWrite_unmapped word hoffset⟩)

/-! ### `INITIALIZE` (R65, R110) -/

theorem globalAt_toNat (c : Config) {offset : ℕ} (h : offset < 256) :
    (globalAt c offset).toNat = 256 * c.globalBase.toNat + offset := by
  have hbase := c.globalBase.isLt
  rw [globalAt, BitVec.toNat_ofNat, Nat.mod_eq_of_lt (by omega)]

/-- The standard sequence is the rule's fourteen events. -/
theorem initEvents_eq_initTrace {c : Config} (hc : c.initSeq = .standard) : initEvents c = initTrace c := by
  rw [initEvents, hc]
  simp only [spacedWrites, initWrites, globalAddress_eq_globalAt]
  rfl

/-- The standard sequence starts on time, so it completes. -/
theorem exec_initialise {s : State} (hc : s.config.initSeq = .standard) (hb : onTime s) :
    ∃ t, exec .initialise s = .next t ∧ succeeded t ∧ t.mirror = initialised ∧ Emitted s (initTrace s.config) t ∧
      List.Forall₂ carries t.eventPort (initTrace s.config) := by
  have hevents : commandEvents s.config .initialise = .ok (initTrace s.config) :=
    congrArg Except.ok (initEvents_eq_initTrace hc)
  have hreach : ∀ e ∈ initTrace s.config, reachesRegister s.config e :=
    initEvents_eq_initTrace hc ▸ reachesRegister_initEvents hc
  obtain ⟨t, hexec⟩ := exec_completes hevents hreach hb
  exact ⟨t, hexec, exec_emitted hevents hexec⟩

theorem totalDelay_initTrace (c : Config) : totalDelay (initTrace c) = 2744 := by
  simp [initTrace, totalDelay]

/-- The registers of the sequence are six addresses of one page: the level registers end at 0, apply-CIC at the full
mask. -/
theorem lastWord_initTrace_written (c : Config) (before : Option Word) :
    (∀ offset ∈ [0x21, 0x22, 0x23, 0x25, 0x26], lastWord (globalAt c offset).toNat before (initTrace c) = some 0) ∧
      lastWord (globalAt c 0x27).toNat before (initTrace c) = some 0xFFFFFFFF := by
  simp [initTrace, lastWord, globalAt_toNat]

/-- The sequence writes to no other address. -/
theorem lastWord_initTrace_other {c : Config} {a : ℕ} (before : Option Word)
    (h : ∀ offset ∈ [0x21, 0x22, 0x23, 0x25, 0x26, 0x27], a ≠ (globalAt c offset).toNat) :
    lastWord a before (initTrace c) = before := by
  simp only [List.forall_mem_cons, ne_comm (a := a)] at h
  obtain ⟨h21, h22, h23, h25, h26, h27, -⟩ := h
  simp only [initTrace, lastWord, if_neg h21, if_neg h22, if_neg h23, if_neg h25, if_neg h26, if_neg h27]

/-- Settles O37: a completed command has emitted its events; the standard ones write to six addresses. -/
theorem initializeEmitsItsSequence : Obligations.InitializeEmitsItsSequence := by
  refine ⟨rfl, fun s t events hc h => ?_, fun s hc hb => ?_⟩
  · have hevents : commandEvents s.config .initialise = .ok events := by rw [commandEvents, initEvents, hc]
    obtain ⟨hsucc, hmirror, hemitted, hcarries⟩ := exec_emitted hevents h
    exact ⟨hemitted.trace, hmirror, hsucc, hcarries⟩
  · obtain ⟨t, hexec, hsucc, hmirror, hemitted, hcarries⟩ := exec_initialise hc hb
    refine ⟨t, hexec, hsucc, hemitted.trace, hmirror, ?_, hcarries.length_eq, hcarries, hemitted.config, hemitted.input,
      hemitted.busPosition, fun offset hoffset => ?_, ?_, fun a ha => ?_⟩
    · rw [hemitted.now, totalDelay_initTrace]
    · exact (hemitted.regSpace _).trans ((lastWord_initTrace_written s.config _).1 offset hoffset)
    · exact (hemitted.regSpace _).trans (lastWord_initTrace_written s.config _).2
    · exact (hemitted.regSpace a).trans (lastWord_initTrace_other _ ha)

/-- Rate 1 has the zero config word (R92 (d)). -/
theorem cicQuantize_one : cicQuantize (1 : BitVec 32).toInt = .ok ⟨0, 0, 0, 1⟩ := by decide

/-- The fourteen commands emit the fourteen events (R65, R110). -/
theorem initCommands_events (c : Config) :
    List.Forall₂ (fun i e => commandEvents c i = .ok [e]) initCommands (spacedWrites c initWrites) := by
  have hstage : commandEvents c (.stageCic 1) = .ok [.wn (globalAddress c 0x26) 0] := by
    rw [commandEvents, cicQuantize_one]
    rfl
  exact .cons rfl (.cons rfl (.cons rfl (.cons rfl (.cons rfl (.cons rfl (.cons rfl (.cons rfl (.cons hstage
    (.cons rfl (.cons rfl (.cons rfl (.cons rfl (.cons rfl .nil)))))))))))))

theorem initCommands_mirror (m : LevelRegs) : initCommands.foldl (fun m i => commandMirror i m) m = initialised := by
  simp only [initCommands, List.foldl_cons, List.foldl_nil, commandMirror, cicQuantize_one]
  rfl

/-- Settles O39: both emit the same events from the same state, and those decide schedule and register space. -/
theorem initializeIsItsFourteenCommands : Obligations.InitializeIsItsFourteenCommands := by
  intro s hc hb
  have hevents : spacedWrites s.config initWrites = initTrace s.config := by
    rw [← initEvents_eq_initTrace hc, initEvents, hc]
  obtain ⟨t, hexec, -, hmirror, ht, -⟩ := exec_initialise hc hb
  obtain ⟨u, hrun, hu, hmirror'⟩ := execAll_completes (initCommands_events s.config)
    (reachesRegister_spacedWrites (initWrites_read s.config)) rfl hb
  rw [hevents] at hu
  refine ⟨t, u, hexec, hrun, ?_, ?_, ?_, fun a => ?_⟩
  · rw [hmirror, hmirror', initCommands_mirror]
  · rw [ht.trace, hu.trace]
  · rw [ht.now, hu.now]
  · rw [ht.regSpace, hu.regSpace]

end Sys2Proof.Machine
end

section
/-! The two roundings over the rationals: half away from zero is odd, nearest and monotone, and its bounds are open at
the ties (R72); half to even is nearest, with its ties even (D4). Then the statements about the codec, the address
encoder and the config word. -/

namespace Sys2Proof.Machine

open Sys2Proof.Claims

/-! ### Half away from zero (R72) -/

theorem rha_neg (q : ℚ) : rha (-q) = -rha q := by
  rw [rha, rha, Left.sign_neg, abs_neg, SignType.coe_neg, neg_mul]

theorem rha_of_nonneg {q : ℚ} (h : 0 ≤ q) : rha q = ⌊q + 1 / 2⌋ := by
  rcases h.eq_or_lt with rfl | hpos
  · norm_num [rha]
  · rw [rha, sign_pos hpos, abs_of_pos hpos, SignType.coe_one, one_mul]

theorem rha_nonneg {q : ℚ} (h : 0 ≤ q) : 0 ≤ rha q := by
  rw [rha_of_nonneg h, Int.floor_nonneg]
  linarith

theorem rha_nonpos {q : ℚ} (h : q ≤ 0) : rha q ≤ 0 := by
  have := rha_nonneg (neg_nonneg.2 h)
  rw [rha_neg] at this
  omega

theorem rha_le_iff (q : ℚ) (n : ℕ) : rha q ≤ n ↔ q < n + 1 / 2 := by
  rcases le_total 0 q with h | h
  · rw [rha_of_nonneg h, Int.floor_le_iff, Int.cast_natCast]
    constructor <;> intro <;> linarith
  · have hn : (0 : ℚ) ≤ n := n.cast_nonneg
    exact iff_of_true ((rha_nonpos h).trans (Int.natCast_nonneg n)) (by linarith)

theorem neg_le_rha_iff (q : ℚ) (n : ℕ) : -(n : ℤ) ≤ rha q ↔ -(n + 1 / 2) < q := by
  rw [neg_le, ← rha_neg, rha_le_iff, neg_lt]

theorem abs_sub_rha_le (q : ℚ) : |q - rha q| ≤ 1 / 2 := by
  wlog h : 0 ≤ q generalizing q
  · have hneg := this (-q) (by linarith)
    rwa [rha_neg, Int.cast_neg, neg_sub_neg, abs_sub_comm] at hneg
  · rw [rha_of_nonneg h, abs_le]
    have hlow := Int.floor_le (q + 1 / 2)
    have hhigh := Int.lt_floor_add_one (q + 1 / 2)
    constructor <;> linarith

theorem rha_mono {p q : ℚ} (h : p ≤ q) : rha p ≤ rha q := by
  rcases le_total 0 p with hp | hp
  · rw [rha_of_nonneg hp, rha_of_nonneg (hp.trans h)]
    exact Int.floor_le_floor (by linarith)
  · rcases le_total 0 q with hq | hq
    · exact (rha_nonpos hp).trans (rha_nonneg hq)
    · have hneg : rha (-q) ≤ rha (-p) := by
        rw [rha_of_nonneg (neg_nonneg.2 hq), rha_of_nonneg (neg_nonneg.2 hp)]
        exact Int.floor_le_floor (by linarith)
      rw [rha_neg, rha_neg] at hneg
      omega

/-! ### Half to even (D4) -/

/-- The distance of a ratio from an integer, over the ratio's denominator. -/
theorem abs_ratioValue_sub {q : Ratio} (hd : 0 < q.den) (m : ℤ) :
    |ratioValue q - m| = ((q.num - m * q.den).natAbs : ℚ) / q.den := by
  have hpos : (0 : ℚ) < q.den := Nat.cast_pos.2 hd
  have hsub : ratioValue q - m = ((q.num - m * q.den : ℤ) : ℚ) / q.den := by
    rw [ratioValue]
    push_cast
    field_simp
  rw [hsub, abs_div, abs_of_pos hpos, Nat.cast_natAbs, Int.cast_abs]

theorem abs_ratioValue_sub_le_iff {q : Ratio} (hd : 0 < q.den) (m : ℤ) :
    |ratioValue q - m| ≤ 1 / 2 ↔ 2 * (q.num - m * q.den).natAbs ≤ q.den := by
  rw [abs_ratioValue_sub hd, div_le_div_iff₀ (Nat.cast_pos.2 hd) two_pos]
  constructor <;> intro h
  · exact_mod_cast (by linarith : (2 : ℚ) * (q.num - m * q.den).natAbs ≤ q.den)
  · have : (2 : ℚ) * (q.num - m * q.den).natAbs ≤ q.den := by exact_mod_cast h
    linarith

theorem abs_ratioValue_sub_eq_iff {q : Ratio} (hd : 0 < q.den) (m : ℤ) :
    |ratioValue q - m| = 1 / 2 ↔ 2 * (q.num - m * q.den).natAbs = q.den := by
  rw [abs_ratioValue_sub hd, div_eq_div_iff (Nat.cast_pos.2 hd).ne' two_ne_zero]
  constructor <;> intro h
  · exact_mod_cast (by linarith : (2 : ℚ) * (q.num - m * q.den).natAbs = q.den)
  · have : (2 : ℚ) * (q.num - m * q.den).natAbs = q.den := by exact_mod_cast h
    linarith

/-- The result is nearest, and even where two integers are. -/
theorem roundHalfEven_nearest {q : Ratio} (hd : 0 < q.den) :
    |ratioValue q - roundHalfEven q| ≤ 1 / 2 ∧
      (|ratioValue q - roundHalfEven q| = 1 / 2 → roundHalfEven q % 2 = 0) := by
  rw [abs_ratioValue_sub_le_iff hd, abs_ratioValue_sub_eq_iff hd]
  have hlow : 0 ≤ q.num - q.num / (q.den : ℤ) * q.den := by
    rw [mul_comm, ← Int.emod_def]
    exact Int.emod_nonneg _ (by omega)
  have hhigh : q.num - q.num / (q.den : ℤ) * q.den < q.den := by
    rw [mul_comm, ← Int.emod_def]
    exact Int.emod_lt_of_pos _ (by omega)
  simp only [roundHalfEven]
  generalize q.num / (q.den : ℤ) = below at *
  have hnext : q.num - (below + 1) * q.den = q.num - below * q.den - q.den := by ring
  split_ifs <;> omega

/-! ### The conversion -/

theorem scaledVoltage_exact {c : Config} (hc : c.voltArith = .exact) (f : Volt) :
    0 < (scaledVoltage c f).den ∧ ratioValue (scaledVoltage c f) = 16384 * volts f / 5 := by
  have hd := valueOf_den_pos f
  simp only [scaledVoltage, hc]
  refine ⟨Nat.mul_pos (by decide) hd, ?_⟩
  rw [← ratioValue_valueOf, ratioValue, ratioValue]
  push_cast
  field_simp

/-- A sample is the rounded product, moved up by machine-unit 0 (R70). -/
theorem voltageToMu_ok {c : Config} {f : Volt} {mu : Sample} (h : voltageToMu c f = .ok mu) :
    (mu.toNat : ℤ) = roundRatio c (scaledVoltage c f) + 32768 := by
  simp only [voltageToMu, muZero, muMax] at h
  split at h
  · split at h
    · cases h
    · cases h
      rw [BitVec.toNat_ofNat]
      omega
  · cases h

/-- A sample under the default arithmetic (R70). -/
theorem accepted_of_voltageToMu {c : Config} (hc : defaultArith c) {f : Volt} {mu : Sample}
    (h : voltageToMu c f = .ok mu) : accepted f ∧ (mu.toNat : ℤ) = machineUnits f := by
  have ha : accepted f := by
    by_contra hna
    rw [voltageToMu_of_not_accepted hc hna] at h
    cases h
  rw [voltageToMu_of_accepted hc ha] at h
  cases h
  rw [machineSample_toNat ha, Int.toNat_of_nonneg ha.2.1]
  exact ⟨ha, rfl⟩

/-! ### The obligations -/

/-- Settles O16: the bounds of `rha` at the lowest and the highest sample. -/
theorem acceptedVoltageInterval : Obligations.AcceptedVoltageInterval := by
  intro c f hc
  have htakes : (∃ mu, voltageToMu c f = .ok mu) ↔ accepted f :=
    ⟨fun ⟨_, h⟩ => (accepted_of_voltageToMu hc h).1, fun h => ⟨_, voltageToMu_of_accepted hc h⟩⟩
  have hlow : 0 ≤ machineUnits f ↔ -327685 / 32768 < volts f := by
    have hbound := neg_le_rha_iff (16384 * volts f / 5) 32768
    rw [machineUnits, ← neg_le_iff_add_nonneg]
    refine hbound.trans ⟨fun h => ?_, fun h => ?_⟩ <;> push_cast at * <;> linarith
  have hhigh : machineUnits f ≤ 65535 ↔ volts f < 327675 / 32768 := by
    have hbound := rha_le_iff (16384 * volts f / 5) 32767
    rw [machineUnits, ← le_sub_iff_add_le]
    refine hbound.trans ⟨fun h => ?_, fun h => ?_⟩ <;> push_cast at * <;> linarith
  rw [htakes, accepted, hlow, hhigh]

/-- Settles O17: `rha` is monotone. -/
theorem voltageToMuMonotone : Obligations.VoltageToMuMonotone := by
  intro c f g mu nu hc hf hg hle
  have hmu := (accepted_of_voltageToMu hc hf).2
  have hnu := (accepted_of_voltageToMu hc hg).2
  have hround : rha (16384 * volts f / 5) ≤ rha (16384 * volts g / 5) := rha_mono (by linarith)
  simp only [machineUnits] at hmu hnu
  omega

/-- Settles O18: `rha` is nearest, and a machine unit is 1 / 3276.8 V. -/
theorem nominalVoltageWithinHalfUnit : Obligations.NominalVoltageWithinHalfUnit := by
  intro c f mu hc h
  have hmu : (mu.toNat : ℚ) = rha (16384 * volts f / 5) + 32768 := by
    exact_mod_cast (accepted_of_voltageToMu hc h).2
  have hnear := abs_sub_rha_le (16384 * volts f / 5)
  have hscale : volts f - ((mu.toNat : ℚ) - 32768) / (16384 / 5) =
      (16384 * volts f / 5 - rha (16384 * volts f / 5)) / (16384 / 5) := by
    rw [hmu]
    ring
  rw [hscale, abs_div, abs_of_pos (show (0 : ℚ) < 16384 / 5 by norm_num)]
  gcongr

/-- Settles O19: half to even is nearest with its ties even, and 32768 is even. -/
theorem halfEvenRoundsTiesToEven : Obligations.HalfEvenRoundsTiesToEven := by
  intro c f mu ha hr h
  have hmu := voltageToMu_ok h
  simp only [roundRatio, hr] at hmu
  obtain ⟨hd, hvalue⟩ := scaledVoltage_exact ha f
  obtain ⟨hnear, heven⟩ := roundHalfEven_nearest hd
  have hdist : 16384 * volts f / 5 + 32768 - (mu.toNat : ℚ) =
      ratioValue (scaledVoltage c f) - roundHalfEven (scaledVoltage c f) := by
    have : (mu.toNat : ℚ) = roundHalfEven (scaledVoltage c f) + 32768 := by exact_mod_cast hmu
    rw [this, hvalue]
    ring
  rw [hdist]
  exact ⟨hnear, fun htie => by have := heven htie; omega⟩

/-- Settles O22: the two fields of an address are its page and its offset. -/
theorem encodeInjective : Obligations.EncodeInjective := by
  intro base base' off off' h
  have hnat := congrArg BitVec.toNat h
  have hoff := off.isLt
  have hoff' := off'.isLt
  rw [encodeAddress_toNat, encodeAddress_toNat] at hnat
  exact ⟨BitVec.eq_of_toNat_eq (by omega), BitVec.eq_of_toNat_eq (by omega)⟩

/-- Settles O28: every part of the quantizer's answer fits its field of the word. -/
theorem stagedWordDecodesToAchievedRate : Obligations.StagedWordDecodesToAchievedRate := by
  intro rate r h
  have hrange : 1 ≤ rate ∧ rate ≤ 65536 := by
    by_contra hout
    rw [cicQuantize_range (by omega)] at h
    cases h
  obtain ⟨n, rfl⟩ := Int.eq_ofNat_of_zero_le (by omega : 0 ≤ rate)
  obtain ⟨m, e, g, hok, hshift, -, hpos, he, hg⟩ := cicQuantize_spec (rate := n) (by omega) (by omega)
  obtain rfl := Except.ok.inj (hok.symm.trans h)
  have hm := cicShift_mantissa_le hshift
  have hmant : m - 1 < 64 := by omega
  have hexp : e < 16 := by omega
  have hgain : g + 3 * e < 64 := by omega
  have hword := cicWord_toNat (r := ⟨m - 1, e, g + 3 * e, m * 2 ^ e⟩) hmant hexp hgain
  have hmantissa : (m - 1 + 64 * e + 1024 * (g + 3 * e)) % 64 + 1 = m := by omega
  have hexponent : (m - 1 + 64 * e + 1024 * (g + 3 * e)) / 64 % 16 = e := by omega
  refine ⟨?_, ?_, ?_⟩
  · rw [cicFields_cicWord hmant hexp hgain, actualRate, Nat.shiftLeft_eq]
    simp only [BitVec.toNat_ofNat, Nat.mod_eq_of_lt hmant, Nat.mod_eq_of_lt hexp, Nat.sub_add_cancel hpos,
      Nat.reducePow]
  · rw [hword, hmantissa, hexponent]
  · rw [hword]
    dsimp only
    omega

end Sys2Proof.Machine
end

section
/-! The device over a delay: a delay of a FramePeriod or more is at least one frame boundary, of which the first takes
the waiting writes and every later one is idle, so what a channel becomes is decided by those two kinds of boundary. -/

namespace Sys2Proof.Machine

open Sys2Proof.Claims

/-! ### Runs of commands -/

theorem execAll_cons {i : Instr} {s t : State} (h : exec i s = .next t) (is : List Instr) :
    execAll (i :: is) s = execAll is t := by
  simp only [execAll, h]

theorem execAll_append {is : List Instr} {s t : State} (h : execAll is s = .next t) (js : List Instr) :
    execAll (is ++ js) s = execAll js t := by
  induction is generalizing s with
  | nil =>
    cases h
    rfl
  | cons i is ih =>
    cases hi : exec i s with
    | next u =>
      rw [execAll_cons hi] at h
      rw [List.cons_append, execAll_cons hi, ih h]
    | fault f => simp only [execAll, hi, reduceCtorEq] at h
    | refused r => simp only [execAll, hi, reduceCtorEq] at h

/-! ### Frames -/

/-- `d'` is `d` after at least one frame boundary, exactly one where `once` holds. -/
def framesPass (c : Config) (once : Prop) (d d' : Device) : Prop :=
  ∃ draw n, 1 ≤ n ∧ (once → n = 1) ∧ d' = elapseFrames c draw d n

theorem framesPass_buffer {c : Config} {once : Prop} {d d' : Device} (h : framesPass c once d d') : d'.buffer = [] := by
  obtain ⟨draw, n, hn, -, rfl⟩ := h
  exact elapseFrames_buffer c draw d hn

theorem framesPass_levels {c : Config} {once : Prop} {d d' : Device} (h : framesPass c once d d') :
    d'.levels = pendingLevels d := by
  obtain ⟨draw, n, hn, -, rfl⟩ := h
  exact elapseFrames_levels c draw d hn

/-- What the first boundary makes of a channel, and every idle boundary keeps, holds of it in the end. -/
theorem framesPass_channel {c : Config} {once : Prop} {d d' : Device} {ch : ℕ} {x : Channel} {R : Channel → Prop}
    (h : framesPass c once d d') (hx : d.channels[ch]? = some x)
    (hfirst : ∀ draw, R (frameChannel c draw d.buffer d.levels (pendingLevels d) ch x))
    (hidle : ¬once → ∀ draw y, R y → R (frameChannel c draw [] (pendingLevels d) (pendingLevels d) ch y)) :
    ∃ y, d'.channels[ch]? = some y ∧ R y := by
  obtain ⟨draw, n, hn, honce, rfl⟩ := h
  have hboundary : (frameBoundary c draw d).channels[ch]? =
      some (frameChannel c draw d.buffer d.levels (pendingLevels d) ch x) := by
    rw [frameBoundary_channel, hx]
    rfl
  match n, hn with
  | 1, _ => exact ⟨_, hboundary, hfirst draw⟩
  | n + 2, _ =>
    refine ⟨_, ?_, hidle (fun h => absurd (honce h) (by omega)) (draw + 1) _ (hfirst draw)⟩
    rw [elapseFrames, frameBoundary_channel, hboundary]
    rfl

/-- A delay of at least one FramePeriod passes frames, one of exactly one FramePeriod a single one (R41). -/
theorem exec_delay_framesPass (s : State) {d : Duration} (hd : 392 ≤ d.toNat) :
    ∃ t, exec (.delay d) s = .next t ∧ t.config = s.config ∧ (onTime s → onTime t) ∧
      framesPass s.config (d = 392) s.device t.device := by
  refine ⟨_, exec_delay d s, rfl, fun hb => Nat.le_trans hb (Nat.le_add_right _ _), s.draws, _,
    framesCrossed_pos hd, ?_, rfl⟩
  rintro rfl
  exact framesCrossed_tFrame s.now

/-- The device with one more write waiting in its buffer (R157). -/
def State.waiting (s : State) (w : DeviceWrite) : Device :=
  { s.device with buffer := s.device.buffer ++ [{ time := s.now, write := w }] }

theorem State.waiting_buffer {s : State} (h : s.device.buffer = []) (w : DeviceWrite) :
    (s.waiting w).buffer = [{ time := s.now, write := w }] := by
  rw [State.waiting, h]
  rfl

theorem pendingLevels_waiting (s : State) (w : DeviceWrite) :
    pendingLevels (s.waiting w) = landLevel (pendingLevels s.device) w := landLevels_concat ..

theorem pendingLevels_of_empty {d : Device} (h : d.buffer = []) : pendingLevels d = d.levels := by
  rw [pendingLevels, h, landLevels_nil]

/-- `t` is `s` but for one more write that waits in the device, and for what the block reports of itself. -/
structure Buffers (s t : State) (w : DeviceWrite) : Prop where
  device : t.device = s.waiting w
  config : t.config = s.config
  now : t.now = s.now
  busPosition : t.busPosition = s.busPosition

theorem buffers_of_writesOne {s t : State} {addr : Address} {word : Word} {w : DeviceWrite}
    (h : writesOne s t addr word w) : Buffers s t w := by
  obtain ⟨-, -, -, -, hdevice, hconfig, -, hnow, hbus, -⟩ := h
  exact ⟨hdevice, hconfig, hnow, hbus⟩

theorem buffers_of_writesGroup {s t : State} {chan : Chan} {words : List Word} (h : writesGroup s t chan words) :
    Buffers s t (.group chan words) := by
  obtain ⟨-, -, -, -, -, -, hdevice, hconfig, -, hnow, hbus⟩ := h
  exact ⟨hdevice, hconfig, hnow, hbus⟩

/-- A command that writes one register, and a delay: the frames pass over the buffer with its write. -/
theorem execAll_write_delay {i : Instr} {s t : State} {w : DeviceWrite} {d : Duration} (hexec : exec i s = .next t)
    (ht : Buffers s t w) (hb : onTime s) (hd : 392 ≤ d.toNat) :
    ∃ u, execAll [i, .delay d] s = .next u ∧ u.config = s.config ∧ onTime u ∧
      framesPass s.config (d = 392) (s.waiting w) u.device := by
  obtain ⟨u, hdelay, hconfig, honTime, hframes⟩ := exec_delay_framesPass t hd
  have hb' : onTime t := by rwa [onTime, ht.now, ht.busPosition]
  refine ⟨u, ?_, hconfig.trans ht.config, honTime hb', ?_⟩
  · rw [execAll_cons hexec, execAll_cons hdelay, execAll]
  · rwa [ht.config, ht.device] at hframes

/-! ### When a channel updates (R19, R22, R163) -/

theorem producible_of_possible {cic : CicConfig} (h : possible cic) : producible cic = true := decide_eq_true h

theorem channelRuns_unity {cic : CicConfig} (hp : possible cic) (hr : actualRate cic = 1) (draw index : ℕ)
    (continuous : Option Mask) (ch : ℕ) : channelRuns draw index continuous (some cic) ch = true := by
  simp [channelRuns, producible_of_possible hp, hr]

theorem channelRuns_stalled {cic : CicConfig} {cont : Mask} {ch : ℕ} (hp : possible cic) (hr : actualRate cic ≠ 1)
    (hcont : cont.getLsbD ch = false) (draw index : ℕ) : channelRuns draw index (some cont) (some cic) ch = false := by
  simp [channelRuns, producible_of_possible hp, hr, selects, hcont]

/-- A held channel is not updated by the frame (R19). -/
theorem autoUpdates_held {regs : LevelRegs} {hold : Mask} {ch : ℕ} (hhold : regs.holdMask = some hold)
    (hheld : hold.getLsbD ch = true) (c : Config) (draw : ℕ) (buffer : List Buffered)
    (oldCic newCic : Option CicConfig) :
    autoUpdates c draw ch buffer regs regs oldCic newCic = false := by
  simp [autoUpdates, hhold, selects, hheld]

/-- A channel that does not run is not updated by the frame (R163). -/
theorem autoUpdates_stalled {regs : LevelRegs} {cont : Mask} {cic : CicConfig} {x : Channel} {ch : ℕ}
    (hcont : regs.continuousMask = some cont) (hbit : cont.getLsbD ch = false) (hp : possible cic)
    (hr : actualRate cic ≠ 1) (hx : x.cic = some cic) (c : Config) (draw : ℕ) (buffer : List Buffered) :
    autoUpdates c draw ch buffer regs regs x.cic x.cic = false := by
  simp [autoUpdates, hcont, hx, channelRuns_stalled hp hr hbit]

/-- New data for a channel at rate 1 that is not held is applied by the frame (R19). -/
theorem autoUpdates_covered {c : Config} {regs : LevelRegs} {hold : Mask} {cic : CicConfig} {ch : ℕ} {b : Buffered}
    (hhold : regs.holdMask = some hold) (hfree : hold.getLsbD ch = false) (hp : possible cic)
    (hr : actualRate cic = 1) (hcover : covers c ch b.write = true) (draw : ℕ) :
    autoUpdates c draw ch [b] regs regs (some cic) (some cic) = true := by
  simp [autoUpdates, hhold, selects, hfree, channelRuns_unity hp hr, hcover]

/-! ### A channel at an idle boundary -/

theorem quietFrame_of_live {d : Device} (h : outputsLive d) {buffer : List Buffered}
    (hbuffer : ∀ b ∈ buffer, ∀ v, b.write ≠ .cfg v) : quietFrame d.levels buffer = true := by
  obtain ⟨v, hv, hreset, hafe, hclr⟩ := h
  simp only [quietFrame, hv, quietCfg, hreset, hafe, hclr, Bool.not_false, Bool.and_self, Bool.true_and,
    List.all_eq_true]
  intro b hb
  split
  · rename_i w hw
    exact absurd hw (hbuffer b hb w)
  · rfl

/-- Without a write, a quiet boundary applies what is staged or nothing. -/
theorem frameChannel_idle_applied {c : Config} {draw : ℕ} {d : Device} {ch : ℕ} {x : Channel} (h : outputsLive d) :
    (frameChannel c draw [] d.levels d.levels ch x).applied =
      if autoUpdates c draw ch [] d.levels d.levels x.cic x.cic then x.staged else x.applied :=
  frameChannel_applied rfl (quietFrame_of_live h (List.forall_mem_nil _))

/-! ### Settling counts (R24, R161) -/

/-- A settling count that only passes away: none stays none, and none goes up. -/
def settlesFrom (before after : Option ℕ) : Prop :=
  (before = none → after = none) ∧ ∀ m, before = some m → ∃ n ≤ m, after = some n

theorem settlesFrom_aged (draw ch : ℕ) (settling : Option ℕ) :
    settlesFrom settling (agedSettling draw ch settling) := by
  refine ⟨?_, ?_⟩
  · rintro rfl
    rfl
  · rintro m rfl
    exact (agedSettling_le (m := m)).2

theorem settlesFrom_trans {a b c : Option ℕ} (hab : settlesFrom a b) (hbc : settlesFrom b c) : settlesFrom a c := by
  refine ⟨fun h => hbc.1 (hab.1 h), fun m hm => ?_⟩
  obtain ⟨n, hn, hb⟩ := hab.2 m hm
  obtain ⟨k, hk, hc⟩ := hbc.2 n hb
  exact ⟨k, hk.trans hn, hc⟩

theorem frameChannel_idle_settling (c : Config) (draw : ℕ) (old cur : LevelRegs) (ch : ℕ) (x : Channel) :
    settlesFrom x.settling (frameChannel c draw [] old cur ch x).settling := by
  rw [frameChannel_settling]
  exact settlesFrom_aged draw ch x.settling

/-! ### Delays, the error counters -/

/-- Settles O53: at least one boundary passes. -/
theorem frameDelayIsABarrier : Obligations.FrameDelayIsABarrier := by
  intro s dur hd
  obtain ⟨t, hexec, -, -, hframes⟩ := exec_delay_framesPass s hd
  exact ⟨t, hexec, framesPass_buffer hframes, framesPass_levels hframes⟩

/-- A boundary that leaves `clr_err` at 1 clears the count (R144). -/
theorem frameErrors_cleared {cur : LevelRegs} {v : Cfg} (hv : cur.cfg = some v) (hclr : v.clrErr = true) (draw : ℕ)
    (buffer : List Buffered) (count : Option ℕ) : frameErrors draw buffer cur count = some 0 := by
  simp only [frameErrors, hv, hclr, if_true]

/-- So does every boundary after it. -/
theorem framesPass_cleared {c : Config} {once : Prop} {d d' : Device} {v : Cfg} (h : framesPass c once d d')
    (hv : (pendingLevels d).cfg = some v) (hclr : v.clrErr = true) : d'.errorCount = some 0 := by
  obtain ⟨draw, n, hn, -, rfl⟩ := h
  match n, hn with
  | 1, _ => exact frameErrors_cleared hv hclr _ _ _
  | _ + 2, _ => exact frameErrors_cleared hv hclr _ _ _

theorem exec_setCfg_ok {s : State} (reset afePowerDown dacClr clrErr : Bool) (hb : onTime s) :
    ∃ t, exec (.setCfg reset afePowerDown dacClr clrErr) s = .next t ∧
      Buffers s t (.cfg ⟨reset, afePowerDown, dacClr, clrErr⟩) := by
  obtain ⟨t, hexec, -, hwrite⟩ := setCfgWritesAndMirrors.2 s reset afePowerDown dacClr clrErr hb
  exact ⟨t, hexec, buffers_of_writesOne hwrite⟩

/-- Settles O59: the cfg write is the last in the buffer, so every boundary of the delay sees its `clr_err`. -/
theorem clearErrorsClearsCounters : Obligations.ClearErrorsClearsCounters := by
  intro s reset afePowerDown dacClr d hb hd
  obtain ⟨t, hexec, ht⟩ := exec_setCfg_ok reset afePowerDown dacClr true hb
  obtain ⟨u, hrun, -, -, hframes⟩ := execAll_write_delay hexec ht hb hd
  have hcfg : (pendingLevels (s.waiting (.cfg ⟨reset, afePowerDown, dacClr, true⟩))).cfg =
      some ⟨reset, afePowerDown, dacClr, true⟩ := by
    rw [pendingLevels_waiting]
    rfl
  exact ⟨u, hrun, framesPass_cleared hframes hcfg rfl, (framesPass_levels hframes).symm ▸ hcfg⟩

/-! ### Staging and applying a rate (R158) -/

/-- A channel in the frame of a CIC staging write. -/
theorem frameChannel_stageCic (c : Config) (draw : ℕ) (old cur : LevelRegs) (ch time : ℕ) (value : CicConfig)
    (x : Channel) :
    (frameChannel c draw [{ time := time, write := .stageCic value }] old cur ch x).cic = x.cic ∧
      settlesFrom x.settling
        (frameChannel c draw [{ time := time, write := .stageCic value }] old cur ch x).settling := by
  rw [frameChannel_cic, frameChannel_settling]
  exact ⟨rfl, settlesFrom_aged draw ch x.settling⟩

/-- A channel in the frame of an apply-CIC write, of nothing else. -/
theorem frameChannel_applyCic (c : Config) (draw : ℕ) (old cur : LevelRegs) (ch time : ℕ) (mask : Mask) (x : Channel) :
    let y := frameChannel c draw [{ time := time, write := .applyCic mask }] old cur ch x
    (y.cic = if mask.getLsbD ch then old.stagedCic else x.cic) ∧
      (mask.getLsbD ch = true → y.settling = some 3) ∧
      (mask.getLsbD ch = false → settlesFrom x.settling y.settling) := by
  dsimp only
  rw [frameChannel_cic, frameChannel_settling, landChannel_single]
  cases hbit : mask.getLsbD ch with
  | true => simp [landWrite, selects, hbit]
  | false => simp [landWrite, selects, hbit, settlesFrom_aged]

theorem exec_applyCic_ok {s : State} (mask : Mask) (hb : onTime s) :
    ∃ t, exec (.applyCic mask) s = .next t ∧ Buffers s t (.applyCic mask) := by
  obtain ⟨t, hexec, -, hwrite⟩ := (updateAndApplyWriteTheirMask s mask hb).2
  exact ⟨t, hexec, buffers_of_writesOne hwrite⟩

/-- Settles O54: the staging frame moves the config to the staging register, the applying frame from there to the
selected channels, whose count of transient samples starts at 3. -/
theorem spacedApplyCommitsStagedConfig : Obligations.SpacedApplyCommitsStagedConfig := by
  intro s rate mask d hb h1 h2 hd hempty
  obtain ⟨r, -, -, -, hr, -⟩ := cicQuantize_operand h1 h2
  obtain ⟨t₁, hstage, -, -, -, hwrite⟩ := exec_stageCic_ok hr hb
  obtain ⟨u, hrun₁, hconfig, hb', hframes₁⟩ := execAll_write_delay hstage (buffers_of_writesOne hwrite) hb hd
  obtain ⟨t₂, happly, ht₂⟩ := exec_applyCic_ok mask hb'
  obtain ⟨t, hrun₂, -, -, hframes₂⟩ := execAll_write_delay happly ht₂ hb' hd
  have hstaged : u.device.levels.stagedCic = some (cicFields (cicWord r)) := by
    rw [framesPass_levels hframes₁, pendingLevels_waiting]
    rfl
  refine ⟨t, r, (execAll_append hrun₁ _).trans hrun₂, hr, fun ch x hx => ?_⟩
  obtain ⟨y, hy, hcic, hsettling⟩ := framesPass_channel
    (R := fun y => y.cic = x.cic ∧ settlesFrom x.settling y.settling) hframes₁ hx
    (fun draw => by
      rw [State.waiting_buffer hempty]
      exact frameChannel_stageCic ..)
    (fun _ draw y hy => ⟨(frameChannel_idle ..).2.trans hy.1, settlesFrom_trans hy.2 (frameChannel_idle_settling ..)⟩)
  have hcommit := framesPass_channel (R := fun z =>
    (z.cic = if mask.getLsbD ch then some (cicFields (cicWord r)) else x.cic) ∧
      (mask.getLsbD ch = true → ∃ n ≤ 3, z.settling = some n ∧ (d = 392 → n = 3)) ∧
      (mask.getLsbD ch = false → settlesFrom x.settling z.settling)) hframes₂ hy
  refine hcommit (fun draw => ?_) (fun hlong draw z hz => ?_)
  · rw [State.waiting_buffer (framesPass_buffer hframes₁)]
    obtain ⟨hcic', hselected, hother⟩ := frameChannel_applyCic u.config draw u.device.levels
      (pendingLevels (u.waiting (.applyCic mask))) ch u.now mask y
    rw [hstaged, hcic] at hcic'
    exact ⟨hcic', fun h => ⟨3, le_rfl, hselected h, fun _ => rfl⟩, fun h => settlesFrom_trans hsettling (hother h)⟩
  · obtain ⟨hcic', hselected, hother⟩ := hz
    have haged := frameChannel_idle_settling u.config draw (pendingLevels (u.waiting (.applyCic mask)))
      (pendingLevels (u.waiting (.applyCic mask))) ch z
    refine ⟨(frameChannel_idle ..).2.trans hcic', fun h => ?_, fun h => settlesFrom_trans (hother h) haged⟩
    obtain ⟨n, hn, hsome, -⟩ := hselected h
    obtain ⟨k, hk, hsome'⟩ := haged.2 n hsome
    exact ⟨k, hk.trans hn, hsome', fun h => absurd h hlong⟩

end Sys2Proof.Machine
end

section
/-! Data on the device's channels: what a write of samples stages, when the frame or an update applies it, and what
INITIALIZE makes of every channel. -/

namespace Sys2Proof.Machine

open Sys2Proof.Claims

/-! ### Frames of data and updates -/

/-- A write of samples to one channel or to a group, or an update: none of them governs a channel. -/
def isSampleWrite : DeviceWrite → Prop
  | .data _ _ => True
  | .group _ _ => True
  | .update _ => True
  | _ => False

theorem landLevel_sampleWrite {w : DeviceWrite} (hw : isSampleWrite w) (regs : LevelRegs) :
    landLevel regs w = regs := by
  cases w with
  | data | group | update => rfl
  | _ => exact hw.elim

theorem isSampleWrite_ne {w : DeviceWrite} (hw : isSampleWrite w) :
    (∀ v, w ≠ .cfg v) ∧ ∀ mask, w ≠ .applyCic mask := by
  constructor <;> rintro _ rfl <;> exact hw

/-- A sample write changes no applied config. -/
theorem landWrite_sampleWrite_cic {w : DeviceWrite} (hw : isSampleWrite w) (c : Config) (draw ch : ℕ) (old : LevelRegs)
    (start : Channel) (k : ℕ) (cur : LevelRegs) (x : Channel) :
    (landWrite c draw ch old start k cur w x).cic = x.cic := by
  cases w with
  | data first word => exact (landWrite_data c draw ch old start k cur (.inl ⟨first, word, rfl⟩) x).2
  | group first words => exact (landWrite_data c draw ch old start k cur (.inr ⟨first, words, rfl⟩) x).2
  | update mask => exact (landWrite_update c draw ch old start k cur mask x).2
  | _ => exact hw.elim

/-- The applied sample after a quiet frame of one sample write: the frame's own update comes last. -/
theorem frameChannel_sampleWrite_applied {c : Config} {draw ch time : ℕ} {d : Device} {w : DeviceWrite} {x : Channel}
    (hlive : outputsLive d) (hw : isSampleWrite w) :
    (frameChannel c draw [{ time := time, write := w }] d.levels d.levels ch x).applied =
      let y := landWrite c draw ch d.levels x 0 d.levels w { x with settling := agedSettling draw ch x.settling }
      if autoUpdates c draw ch [{ time := time, write := w }] d.levels d.levels x.cic x.cic then y.staged
      else y.applied := by
  obtain ⟨hcfg, happly⟩ := isSampleWrite_ne hw
  have hrace : applyDataRace c ch [{ time := time, write := w }] = false :=
    applyDataRace_eq_false (List.forall_mem_singleton.2 happly)
  rw [frameChannel_applied hrace (quietFrame_of_live hlive (List.forall_mem_singleton.2 hcfg)), landChannel_single]
  dsimp only
  rw [landWrite_sampleWrite_cic hw]

theorem frameChannel_sampleWrite_cic {w : DeviceWrite} (hw : isSampleWrite w) (c : Config) (draw : ℕ)
    (old cur : LevelRegs) (ch time : ℕ) (x : Channel) :
    (frameChannel c draw [{ time := time, write := w }] old cur ch x).cic = x.cic := by
  rw [frameChannel_cic, landChannel_single, landWrite_sampleWrite_cic hw]

theorem frameChannel_sampleWrite_staged {w : DeviceWrite} (hw : isSampleWrite w) (c : Config) (draw : ℕ)
    (old cur : LevelRegs) (ch time : ℕ) (x : Channel) :
    (frameChannel c draw [{ time := time, write := w }] old cur ch x).staged =
      (landWrite c draw ch old x 0 old w { x with settling := agedSettling draw ch x.settling }).staged := by
  have hrace : applyDataRace c ch [{ time := time, write := w }] = false :=
    applyDataRace_eq_false (List.forall_mem_singleton.2 (isSampleWrite_ne hw).2)
  rw [frameChannel_staged, hrace, landChannel_single]
  rfl

/-- From an empty buffer the frames of a sample write leave the level registers alone. -/
theorem pendingLevels_sampleWrite {s : State} {w : DeviceWrite} (hempty : s.device.buffer = []) (hw : isSampleWrite w) :
    pendingLevels (s.waiting w) = s.device.levels := by
  rw [pendingLevels_waiting, pendingLevels_of_empty hempty, landLevel_sampleWrite hw]

/-- A channel over the frames of one sample write, from an empty buffer: the first boundary lands the write, and the
level registers stand still throughout. -/
theorem framesPass_sampleWrite {s : State} {once : Prop} {d' : Device} {w : DeviceWrite} {ch : ℕ} {x : Channel}
    {R : Channel → Prop} (h : framesPass s.config once (s.waiting w) d') (hempty : s.device.buffer = [])
    (hw : isSampleWrite w) (hx : s.device.channels[ch]? = some x)
    (hfirst : ∀ draw,
      R (frameChannel s.config draw [{ time := s.now, write := w }] s.device.levels s.device.levels ch x))
    (hidle : ∀ draw y, R y → R (frameChannel s.config draw [] s.device.levels s.device.levels ch y)) :
    ∃ y, d'.channels[ch]? = some y ∧ R y := by
  have hlevels := pendingLevels_sampleWrite hempty hw
  refine framesPass_channel h hx (fun draw => ?_) fun _ draw y hy => ?_
  · rw [State.waiting_buffer hempty, hlevels]
    exact hfirst draw
  · rw [hlevels]
    exact hidle draw y hy

/-! ### A channel that is not held (R19) -/

/-- The sample of an accepted voltage as the rule writes it (R55, R70). -/
theorem machineSample_eq_ofInt {f : Volt} (h : accepted f) : machineSample f = BitVec.ofInt 16 (machineUnits f) := by
  rw [machineSample, ← BitVec.ofInt_natCast, Int.toNat_of_nonneg h.2.1]

/-- In single-channel mode the write stages the sample and makes the first frame apply it; an idle frame applies it
again or not. -/
theorem framesPass_unheld_data {s : State} {once : Prop} {d' : Device} {chan : Chan} {mu : Sample} {hold : Mask}
    {x : Channel} (h : framesPass s.config once (s.waiting (.data chan (dataWord mu))) d')
    (hempty : s.device.buffer = []) (hwidth : s.config.log2Width.val = 0)
    (hhold : s.device.levels.holdMask = some hold) (hfree : hold.getLsbD chan.toNat = false)
    (hlive : outputsLive s.device) (hunity : unityChannel s.device chan.toNat x) :
    ∃ y, d'.channels[chan.toNat]? = some y ∧ y.staged = some mu ∧ y.applied = some mu := by
  obtain ⟨hx, cic, hcic, hpossible, hrate⟩ := hunity
  have hdata : isSampleWrite (.data chan (dataWord mu)) := trivial
  have hsame : sameGroup s.config chan chan.toNat = true := beq_self_eq_true _
  have hcover : covers s.config chan.toNat (.data chan (dataWord mu)) = true := by simp [covers, hwidth, hsame]
  have hlands (draw : ℕ) (y : Channel) : (landWrite s.config draw chan.toNat s.device.levels x 0 s.device.levels
      (.data chan (dataWord mu)) y).staged = some mu := by
    simp [landWrite, hwidth, hsame, dataWord]
  refine framesPass_sampleWrite (R := fun y => y.staged = some mu ∧ y.applied = some mu) h hempty hdata hx
    (fun draw => ⟨?_, ?_⟩) fun draw y hy => ⟨(frameChannel_idle ..).1.trans hy.1, ?_⟩
  · rw [frameChannel_sampleWrite_staged hdata, hlands]
  · rw [frameChannel_sampleWrite_applied hlive hdata, hcic,
      autoUpdates_covered (b := ⟨s.now, _⟩) hhold hfree hpossible hrate hcover]
    exact hlands draw _
  · rw [frameChannel_idle_applied hlive, hy.1, hy.2, ite_self]

/-- Settles O55: the converted sample goes to the channel in one data write, and frames pass. -/
theorem unheldSampleReachesOutput : Obligations.UnheldSampleReachesOutput := by
  intro s chan f d hold x hc hf hb hd hwidth hempty hhold hfree hlive hunity
  obtain ⟨t, hexec, -, hwrite⟩ := exec_setChannel_ok chan (voltageToMu_of_accepted hc hf) hb
  obtain ⟨u, hrun, -, -, hframes⟩ := execAll_write_delay hexec (buffers_of_writesOne hwrite) hb hd
  have hwidth' : s.config.log2Width.val = 0 := congrArg Fin.val hwidth
  obtain ⟨y, hy, hstaged, happlied⟩ := framesPass_unheld_data hframes hempty hwidth' hhold hfree hlive hunity
  exact ⟨u, y, hrun, hy, machineSample_eq_ofInt hf ▸ hstaged, happlied.trans hstaged.symm⟩

/-! ### Groups (R33, R160) -/

/-- The samples of GroupWords come back, slot by slot (R33). -/
theorem groupSample_sampleWords {mus : List Sample} {count j : ℕ} (h : j < 2 * count) :
    groupSample (sampleWords mus count) j = mus.getD j 0 := by
  have hword : (sampleWords mus count).getD (j / 2) 0 =
      BitVec.ofNat 32 ((mus.getD (2 * (j / 2)) 0).toNat + 65536 * (mus.getD (2 * (j / 2) + 1) 0).toNat) := by
    rw [List.getD_eq_getElem _ _ (by rw [length_sampleWords]; omega)]
    simp [sampleWords, slotWords]
  have heven := (mus.getD (2 * (j / 2)) 0).isLt
  have hodd := (mus.getD (2 * (j / 2) + 1) 0).isLt
  apply BitVec.eq_of_toNat_eq
  rw [groupSample, hword, BitVec.extractLsb'_toNat, BitVec.toNat_ofNat, Nat.shiftRight_eq_div_pow]
  rcases Nat.mod_two_eq_zero_or_one j with hj | hj
  · have hslot : 2 * (j / 2) = j := by omega
    rw [hslot] at heven ⊢
    rw [hj]
    omega
  · have hslot : 2 * (j / 2) + 1 = j := by omega
    rw [hslot] at hodd ⊢
    rw [hj]
    omega

/-- The group of an aligned first channel (R82). -/
theorem sameGroup_iff {c : Config} {first : Chan} (ha : alignedFirst c first) (ch : ℕ) :
    sameGroup c first ch = true ↔ first.toNat ≤ ch ∧ ch < first.toNat + 2 ^ c.log2Width.val := by
  have hpos : 0 < 2 ^ c.log2Width.val := Nat.two_pow_pos _
  obtain ⟨k, hk⟩ := Nat.dvd_of_mod_eq_zero ha
  rw [sameGroup, beq_iff_eq, groupWidth, hk, Nat.mul_div_cancel_left _ hpos, eq_comm, Nat.div_eq_iff hpos]
  rw [Nat.mul_comm k]
  omega

/-- In grouped mode the width is even, so `NWORDS` words hold one sample for every channel (R75). -/
theorem two_mul_nwords {c : Config} (h : 0 < c.log2Width.val) : 2 * nwords c = 2 ^ c.log2Width.val := by
  obtain ⟨k, hk⟩ := Nat.exists_eq_add_of_le' h
  have hpos := Nat.two_pow_pos k
  rw [nwords, hk, Nat.pow_succ, Nat.mul_div_cancel _ two_pos, max_eq_right hpos, mul_comm]

/-- Settles O56: the first boundary stages each channel's slot, and no idle one stages anything. -/
theorem groupWriteStagesEveryChannel : Obligations.GroupWriteStagesEveryChannel := by
  intro s chan n fs d hc hb hwidth ha hlen hn hfs hwindow hd hempty
  obtain ⟨t, hexec, hwrite⟩ := exec_setGroup_ok hb ha hlen hn (convertsTo_machineSample hc hfs) hwindow
  obtain ⟨u, hrun, -, -, hframes⟩ := execAll_write_delay hexec (buffers_of_writesGroup hwrite) hb hd
  have hgroup : isSampleWrite (.group chan (sampleWords (fs.map machineSample) (nwords s.config))) := trivial
  refine ⟨u, hrun, fun ch x hx => ?_⟩
  refine framesPass_sampleWrite (R := fun y => y.staged = _) hframes hempty hgroup hx (fun draw => ?_)
    fun draw y hy => (frameChannel_idle ..).1.trans hy
  rw [frameChannel_sampleWrite_staged hgroup]
  simp only [landWrite, if_neg hwidth.ne', ← sameGroup_iff ha]
  split
  · rename_i hin
    have hslot : ch - chan.toNat < 2 * nwords s.config := by
      rw [two_mul_nwords hwidth]
      have := (sameGroup_iff ha ch).1 hin
      omega
    rw [groupSample_sampleWords hslot, ← slot_eq_sample hfs, BitVec.ofNat_toNat, BitVec.setWidth_eq]
  · rfl

/-! ### Held channels (R18, R19, R42) -/

/-- An update applies what a held channel at rate 1 has staged, if it selects the channel (R18). -/
theorem landWrite_update_held {regs : LevelRegs} {hold : Mask} {cic : CicConfig} {x y : Channel} {ch : ℕ}
    (hhold : regs.holdMask = some hold) (hheld : hold.getLsbD ch = true) (hp : possible cic) (hr : actualRate cic = 1)
    (hx : x.cic = some cic) (hcic : y.cic = x.cic) (hstaged : y.staged = x.staged) (c : Config) (draw : ℕ)
    (mask : Mask) :
    (landWrite c draw ch regs x 0 regs (.update mask) y).applied = if mask.getLsbD ch then x.staged else y.applied := by
  cases hbit : mask.getLsbD ch with
  | true => simp [landWrite, selects, hbit, hhold, hheld, hcic, hx, hstaged, channelRuns_unity hp hr]
  | false => simp [landWrite, selects, hbit]

/-- A held channel keeps its applied sample and config over the frames of a group write. -/
theorem framesPass_held_group {s : State} {once : Prop} {d' : Device} {chan : Chan} {words : List Word} {hold : Mask}
    {ch : ℕ} {x : Channel} (h : framesPass s.config once (s.waiting (.group chan words)) d')
    (hempty : s.device.buffer = []) (hhold : s.device.levels.holdMask = some hold) (hheld : hold.getLsbD ch = true)
    (hlive : outputsLive s.device) (hx : s.device.channels[ch]? = some x) :
    ∃ y, d'.channels[ch]? = some y ∧ y.applied = x.applied ∧ y.cic = x.cic := by
  have hgroup : isSampleWrite (.group chan words) := trivial
  refine framesPass_sampleWrite (R := fun y => y.applied = x.applied ∧ y.cic = x.cic) h hempty hgroup hx
    (fun draw => ⟨?_, frameChannel_sampleWrite_cic hgroup ..⟩)
    fun draw y hy => ⟨?_, (frameChannel_idle ..).2.trans hy.2⟩
  · rw [frameChannel_sampleWrite_applied hlive hgroup, autoUpdates_held hhold hheld]
    exact (landWrite_data _ _ _ _ _ _ _ (.inr ⟨chan, words, rfl⟩) _).1
  · rw [frameChannel_idle_applied hlive, autoUpdates_held hhold hheld]
    exact hy.1

/-- Over the frames of an update a held channel at rate 1 takes what it has staged if it is selected. -/
theorem framesPass_held_update {s : State} {once : Prop} {d' : Device} {mask hold : Mask} {ch : ℕ} {x : Channel}
    (h : framesPass s.config once (s.waiting (.update mask)) d') (hempty : s.device.buffer = [])
    (hhold : s.device.levels.holdMask = some hold) (hheld : hold.getLsbD ch = true) (hlive : outputsLive s.device)
    (hunity : unityChannel s.device ch x) :
    ∃ y, d'.channels[ch]? = some y ∧ y.staged = x.staged ∧
      y.applied = if mask.getLsbD ch then x.staged else x.applied := by
  obtain ⟨hx, cic, hcic, hpossible, hrate⟩ := hunity
  have hupdate : isSampleWrite (.update mask) := trivial
  refine framesPass_sampleWrite
    (R := fun y => y.staged = x.staged ∧ y.applied = if mask.getLsbD ch then x.staged else x.applied)
    h hempty hupdate hx (fun draw => ⟨?_, ?_⟩) fun draw y hy => ⟨(frameChannel_idle ..).1.trans hy.1, ?_⟩
  · rw [frameChannel_sampleWrite_staged hupdate]
    exact (landWrite_update ..).1
  · rw [frameChannel_sampleWrite_applied hlive hupdate, autoUpdates_held hhold hheld]
    exact landWrite_update_held (y := { x with settling := agedSettling draw ch x.settling }) hhold hheld
      hpossible hrate hcic rfl rfl ..
  · rw [frameChannel_idle_applied hlive, autoUpdates_held hhold hheld]
    exact hy.2

theorem exec_update_ok {s : State} (mask : Mask) (hb : onTime s) :
    ∃ t, exec (.update mask) s = .next t ∧ Buffers s t (.update mask) := by
  obtain ⟨t, hexec, -, hwrite⟩ := (updateAndApplyWriteTheirMask s mask hb).1
  exact ⟨t, hexec, buffers_of_writesOne hwrite⟩

theorem exec_setGroup_buffers {s : State} {chan : Chan} {n : BitVec 6} {fs : List Volt} (hb : onTime s)
    (ha : alignedFirst s.config chan) (hlen : fs.length = n.toNat) (hn : n.toNat ≤ 2 ^ s.config.log2Width.val)
    (h : ∀ f ∈ fs, takes s.config f) (hwindow : s.config.dataOffset.toNat + nwords s.config ≤ 32) :
    ∃ t words, exec (.setGroup chan n fs) s = .next t ∧ Buffers s t (.group chan words) := by
  obtain ⟨mus, hmus⟩ := convertsTo_of_takes h
  obtain ⟨t, hexec, hwrite⟩ := exec_setGroup_ok hb ha hlen hn hmus hwindow
  exact ⟨t, _, hexec, buffers_of_writesGroup hwrite⟩

/-- Settles O57: a held channel is applied by the update alone, and takes then what the group write staged. -/
theorem heldGroupAppliesOnUpdate : Obligations.HeldGroupAppliesOnUpdate := by
  intro s chan n fs mask hold d hb ha hlen hn hfs hwindow hd hempty hhold hlive
  obtain ⟨t₁, words, hexec₁, ht₁⟩ := exec_setGroup_buffers hb ha hlen hn hfs hwindow
  obtain ⟨t, hrun₁, hconfig, hb', hframes₁⟩ := execAll_write_delay hexec₁ ht₁ hb hd
  obtain ⟨t₂, hexec₂, ht₂⟩ := exec_update_ok mask hb'
  obtain ⟨u, hrun₂, -, -, hframes₂⟩ := execAll_write_delay hexec₂ ht₂ hb' hd
  have hgroup : isSampleWrite (.group chan words) := trivial
  have hlevels : t.device.levels = s.device.levels :=
    (framesPass_levels hframes₁).trans (pendingLevels_sampleWrite hempty hgroup)
  have hhold' : t.device.levels.holdMask = some hold := hlevels ▸ hhold
  have hlive' : outputsLive t.device := by rwa [outputsLive, hlevels]
  refine ⟨t, u, hrun₁, hrun₂, fun ch x hheld hunity => ?_⟩
  obtain ⟨hx, cic, hcic, hpossible, hrate⟩ := hunity
  obtain ⟨y, hy, happlied, hcic'⟩ := framesPass_held_group hframes₁ hempty hhold hheld hlive hx
  have hunity' : unityChannel t.device ch y := ⟨hy, cic, hcic'.trans hcic, hpossible, hrate⟩
  obtain ⟨z, hz, hstaged, happlied'⟩ :=
    framesPass_held_update hframes₂ (framesPass_buffer hframes₁) hhold' hheld hlive' hunity'
  exact ⟨y, z, hy, hz, happlied, hstaged, happlied ▸ happlied'⟩

/-! ### Channels that do not run (R163, I11) -/

/-- A sample write applies nothing to a channel that does not run: data only stages, and an update is blocked. -/
theorem landWrite_stalled {regs : LevelRegs} {cont : Mask} {cic : CicConfig} {w : DeviceWrite} {x y : Channel} {ch : ℕ}
    (hw : isSampleWrite w) (hcont : regs.continuousMask = some cont) (hbit : cont.getLsbD ch = false)
    (hp : possible cic) (hr : actualRate cic ≠ 1) (hx : x.cic = some cic) (hy : y.cic = x.cic) (c : Config) (draw : ℕ) :
    (landWrite c draw ch regs x 0 regs w y).applied = y.applied := by
  cases w with
  | data first word => exact (landWrite_data c draw ch regs x 0 regs (.inl ⟨first, word, rfl⟩) y).1
  | group first words => exact (landWrite_data c draw ch regs x 0 regs (.inr ⟨first, words, rfl⟩) y).1
  | update mask => simp [landWrite, hcont, hy, hx, channelRuns_stalled hp hr hbit]
  | _ => exact hw.elim

/-- An idle boundary applies nothing to a channel that does not run. -/
theorem frameChannel_idle_stalled {d : Device} {cont : Mask} {cic : CicConfig} {x : Channel} {ch : ℕ}
    (hcont : d.levels.continuousMask = some cont) (hbit : cont.getLsbD ch = false) (hp : possible cic)
    (hr : actualRate cic ≠ 1) (hx : x.cic = some cic) (hlive : outputsLive d) (c : Config) (draw : ℕ) :
    (frameChannel c draw [] d.levels d.levels ch x).applied = x.applied := by
  rw [frameChannel_idle_applied hlive, autoUpdates_stalled hcont hbit hp hr hx]
  rfl

/-- The commands of the statement but the bare delay: each is one sample write. -/
theorem exec_sampleWrite {s : State} {is : List Instr} (hb : onTime s)
    (his : (∃ mask, is = [.update mask]) ∨ (∃ chan f, takes s.config f ∧ is = [.setChannel chan f]) ∨
      ∃ chan n fs, alignedFirst s.config chan ∧ fs.length = n.toNat ∧ n.toNat ≤ 2 ^ s.config.log2Width.val ∧
        (∀ f ∈ fs, takes s.config f) ∧ s.config.dataOffset.toNat + nwords s.config ≤ 32 ∧
        is = [.setGroup chan n fs]) :
    ∃ i t w, is = [i] ∧ exec i s = .next t ∧ Buffers s t w ∧ isSampleWrite w := by
  rcases his with ⟨mask, rfl⟩ | ⟨chan, f, ⟨mu, hmu⟩, rfl⟩ | ⟨chan, n, fs, ha, hlen, hn, hfs, hwindow, rfl⟩
  · obtain ⟨t, hexec, ht⟩ := exec_update_ok mask hb
    exact ⟨_, t, _, rfl, hexec, ht, trivial⟩
  · obtain ⟨t, hexec, -, hwrite⟩ := exec_setChannel_ok chan hmu hb
    exact ⟨_, t, _, rfl, hexec, buffers_of_writesOne hwrite, trivial⟩
  · obtain ⟨t, words, hexec, ht⟩ := exec_setGroup_buffers hb ha hlen hn hfs hwindow
    exact ⟨_, t, _, rfl, hexec, ht, trivial⟩

/-- Settles O58: neither the write's frame nor an idle one applies anything. -/
theorem nonUnityChannelNeedsContinuous : Obligations.NonUnityChannelNeedsContinuous := by
  intro s is cont d ch x cic his hb hd hempty hcont hbit hlive hx hcic hp hr
  have hidle (draw : ℕ) (y : Channel) (hy : y.applied = x.applied ∧ y.cic = x.cic) :
      let z := frameChannel s.config draw [] s.device.levels s.device.levels ch y
      z.applied = x.applied ∧ z.cic = x.cic := by
    have hstall := frameChannel_idle_stalled hcont hbit hp hr (hy.2.trans hcic) hlive s.config draw
    exact ⟨hstall.trans hy.1, (frameChannel_idle ..).2.trans hy.2⟩
  rcases his with rfl | his
  · obtain ⟨t, hexec, -, -, hframes⟩ := exec_delay_framesPass s hd
    obtain ⟨y, hy, happlied, -⟩ := framesPass_channel (R := fun y => y.applied = x.applied ∧ y.cic = x.cic) hframes hx
      (by rw [pendingLevels_of_empty hempty, hempty]; exact fun draw => hidle draw x ⟨rfl, rfl⟩)
      (by rw [pendingLevels_of_empty hempty]; exact fun _ => hidle)
    exact ⟨t, y, execAll_cons hexec [], hy, happlied⟩
  · obtain ⟨i, t, w, rfl, hexec, ht, hw⟩ := exec_sampleWrite hb his
    obtain ⟨u, hrun, -, -, hframes⟩ := execAll_write_delay hexec ht hb hd
    have hfirst (draw : ℕ) :
        let y := frameChannel s.config draw [{ time := s.now, write := w }] s.device.levels s.device.levels ch x
        y.applied = x.applied ∧ y.cic = x.cic := by
      refine ⟨?_, frameChannel_sampleWrite_cic hw ..⟩
      rw [frameChannel_sampleWrite_applied hlive hw, autoUpdates_stalled hcont hbit hp hr hcic]
      exact landWrite_stalled (y := { x with settling := agedSettling draw ch x.settling }) hw hcont hbit hp
        hr hcic rfl s.config draw
    obtain ⟨y, hy, happlied, -⟩ := framesPass_sampleWrite (R := fun y => y.applied = x.applied ∧ y.cic = x.cic) hframes
      hempty hw hx hfirst hidle
    exact ⟨u, y, hrun, hy, happlied⟩

/-! ### `INITIALIZE` on the device (R28, R110) -/

/-- A write that stages no sample. -/
def isControlWrite : DeviceWrite → Prop
  | .data _ _ => False
  | .group _ _ => False
  | .misalignedGroup _ _ => False
  | _ => True

/-- The applied config of a channel after a write alone in its frame: an apply-CIC that selects the channel commits the
staged config (R24). -/
def landCic (ch : ℕ) (regs : LevelRegs) (cic : Option CicConfig) : DeviceWrite → Option CicConfig
  | .applyCic mask => if selects mask ch then regs.stagedCic else cic
  | _ => cic

/-- The applied config of a channel after writes that each have a frame of their own. -/
def landCics (ch : ℕ) : LevelRegs → Option CicConfig → List DeviceWrite → Option CicConfig
  | _, cic, [] => cic
  | regs, cic, w :: ws => landCics ch (landLevel regs w) (landCic ch regs cic w) ws

theorem applyDataRace_control {w : DeviceWrite} (hw : isControlWrite w) (c : Config) (ch time : ℕ) :
    applyDataRace c ch [{ time := time, write := w }] = false := by
  cases w with
  | data | group | misalignedGroup => exact hw.elim
  | _ => simp [applyDataRace, mayReach, covers, strays]

/-- A channel in the frame of one control write. -/
theorem frameChannel_control {w : DeviceWrite} (hw : isControlWrite w) (c : Config) (draw : ℕ) (old cur : LevelRegs)
    (ch time : ℕ) (x : Channel) :
    (frameChannel c draw [{ time := time, write := w }] old cur ch x).staged = x.staged ∧
      (frameChannel c draw [{ time := time, write := w }] old cur ch x).cic = landCic ch old x.cic w := by
  rw [frameChannel_staged, applyDataRace_control hw, frameChannel_cic, landChannel_single]
  cases w with
  | data | group | misalignedGroup => exact hw.elim
  | update mask => exact landWrite_update ..
  | applyCic mask =>
    cases hbit : selects mask ch <;> simp [landWrite, landCic, hbit]
  | _ => exact ⟨rfl, rfl⟩

/-- Control writes, a FramePeriod apart and from an empty buffer: each takes effect alone. -/
theorem issueEvents_spacedWrites_device {c : Config} {writes : List (BitVec 8 × Word)} {ws : List DeviceWrite}
    (h : List.Forall₂ (fun p w => narrowWrite c (globalAddress c p.1) p.2 = some w) writes ws)
    (hws : ∀ w ∈ ws, isControlWrite w) {s : State} (hc : s.config = c) (hb : onTime s) (hempty : s.device.buffer = []) :
    ∃ t, issueEvents s (spacedWrites c writes) = .ok t ∧ t.device.buffer = [] ∧
      t.device.levels = ws.foldl landLevel s.device.levels ∧
      ∀ (ch : ℕ) (x : Channel), s.device.channels[ch]? = some x → ∃ y, t.device.channels[ch]? = some y ∧
        y.staged = x.staged ∧ y.cic = landCics ch s.device.levels x.cic ws := by
  induction h generalizing s with
  | nil => exact ⟨s, rfl, hempty, rfl, fun ch x hx => ⟨x, hx, rfl, rfl⟩⟩
  | @cons p w writes ws hw _ ih =>
    subst hc
    rw [List.forall_mem_cons] at hws
    obtain ⟨hcontrol, hws⟩ := hws
    obtain ⟨u, hissue, hconfig, -, -, -, -, hb', -, -, -, hdevice⟩ := issueEvents_spaced hb hw
    rw [hempty, List.nil_append] at hdevice
    obtain ⟨t, ht, hbuffer, hlevels, hchannels⟩ := ih hws hconfig hb' (by rw [hdevice, frameBoundary_buffer])
    have hlevels' : u.device.levels = landLevel s.device.levels w := by rw [hdevice]; rfl
    refine ⟨t, ?_, hbuffer, ?_, fun ch x hx => ?_⟩
    · rw [spacedWrites, hissue, ht]
    · rw [hlevels, hlevels', List.foldl_cons]
    · obtain ⟨hstaged, hcic⟩ := frameChannel_control hcontrol s.config s.draws s.device.levels
        (landLevel s.device.levels w) ch s.now x
      have hy : u.device.channels[ch]? = some (frameChannel s.config s.draws [{ time := s.now, write := w }]
          s.device.levels (landLevel s.device.levels w) ch x) := by
        rw [hdevice, frameBoundary_channel]
        simp only [hx]
        rfl
      obtain ⟨z, hz, hstaged', hcic'⟩ := hchannels ch _ hy
      exact ⟨z, hz, hstaged'.trans hstaged, by rw [hcic', hcic, hlevels', landCics]⟩

theorem initDeviceWrites_control : ∀ w ∈ initDeviceWrites, isControlWrite w := by
  simp [initDeviceWrites, isControlWrite]

/-- The sequence stages the unity config and commits it to every channel. -/
theorem landCics_initDeviceWrites {ch : ℕ} (h : ch < 32) (regs : LevelRegs) (cic : Option CicConfig) :
    landCics ch regs cic initDeviceWrites = some ⟨0, 0, 0⟩ := by
  have hselects : ∀ ch < 32, selects 0xFFFFFFFF ch = true := by decide
  exact if_pos (hselects ch h)

/-- Settles O60: the seven writes of the sequence are control writes a FramePeriod apart. -/
theorem initializeBringsDeviceToUnity : Obligations.InitializeBringsDeviceToUnity := by
  intro s hc hb hempty
  obtain ⟨t, ht, hbuffer, hlevels, hchannels⟩ := issueEvents_spacedWrites_device (s := s.withMirror initMirror)
    (initWrites_read s.config) initDeviceWrites_control rfl hb hempty
  have hexec : exec .initialise s =
      complete (s.withMirror initMirror) (okPorts s.draws) (spacedWrites s.config initWrites) := by
    rw [exec, execInitialise, initEvents, hc]
  refine ⟨_, hexec.trans (complete_of_issue ht), hbuffer, hlevels, fun ch x hch hx => ?_⟩
  obtain ⟨y, hy, hstaged, hcic⟩ := hchannels ch x hx
  exact ⟨y, hy, hstaged, hcic.trans (landCics_initDeviceWrites hch _ _)⟩

end Sys2Proof.Machine
end
